-- ==== Sys2Proof/Word.lean ====
section
/-! DEFINITION. The word, byte and register-number types of SimpleRisc (00_scope.md R5, R9; 10_state.md R21). -/

namespace Sys2Proof

/-- A general register, the `pc`, an address or an instruction word: 32 bits
(`XLEN`, `PCLEN`, `ILEN` of 00_scope.md R5). -/
abbrev Word := BitVec 32

/-- What one address names: 8 bits (20_memory.md R40). -/
abbrev Byte := BitVec 8

/-- A register number, 0 to 15 (10_state.md R21: "every field value 0 to 15 names a register"). -/
abbrev Reg := Fin 16

/-- `sp`, "the stack pointer register", is `r14` (00_scope.md R9). -/
abbrev Reg.sp : Reg := 14

/-- `ra`, "the return address register", is `r15` (00_scope.md R9). -/
abbrev Reg.ra : Reg := 15

end Sys2Proof
end

