-- ==== Sys2Proof/Syntax.lean ====
section
/-! DEFINITION. The instructions: one constructor for each of the 34 rows of spec/opcode_table.json, with the
row's fields as arguments (30_encoding.md R61, R63 to R66). Ignored bits (R76) are not part of an instruction. -/

namespace Sys2Proof

/-- One constructor a row of the opcode table. Arguments stand in the order of the assembly operands
(30_encoding.md R71 to R75): `rd`, then `rs1`, then `rs2` or the modifier and the 16-bit immediate. -/
inductive Instr where
  | addReg (rd rs1 rs2 : Reg)
  | addImm (rd rs1 : Reg) (mod : BitVec 2) (imm16 : BitVec 16)
  | subReg (rd rs1 rs2 : Reg)
  | subImm (rd rs1 : Reg) (mod : BitVec 2) (imm16 : BitVec 16)
  | mulReg (rd rs1 rs2 : Reg)
  | mulImm (rd rs1 : Reg) (mod : BitVec 2) (imm16 : BitVec 16)
  | divReg (rd rs1 rs2 : Reg)
  | divImm (rd rs1 : Reg) (mod : BitVec 2) (imm16 : BitVec 16)
  | modReg (rd rs1 rs2 : Reg)
  | modImm (rd rs1 : Reg) (mod : BitVec 2) (imm16 : BitVec 16)
  /-- `cmp` has no `rd` operand (30_encoding.md R72). -/
  | cmpReg (rs1 rs2 : Reg)
  | cmpImm (rs1 : Reg) (mod : BitVec 2) (imm16 : BitVec 16)
  | andReg (rd rs1 rs2 : Reg)
  | andImm (rd rs1 : Reg) (mod : BitVec 2) (imm16 : BitVec 16)
  | orReg (rd rs1 rs2 : Reg)
  | orImm (rd rs1 : Reg) (mod : BitVec 2) (imm16 : BitVec 16)
  /-- `not` and `mov` have no `rs1` operand (30_encoding.md R73). -/
  | notReg (rd rs2 : Reg)
  | notImm (rd : Reg) (mod : BitVec 2) (imm16 : BitVec 16)
  | movReg (rd rs2 : Reg)
  | movImm (rd : Reg) (mod : BitVec 2) (imm16 : BitVec 16)
  | lslReg (rd rs1 rs2 : Reg)
  | lslImm (rd rs1 : Reg) (mod : BitVec 2) (imm16 : BitVec 16)
  | lsrReg (rd rs1 rs2 : Reg)
  | lsrImm (rd rs1 : Reg) (mod : BitVec 2) (imm16 : BitVec 16)
  | asrReg (rd rs1 rs2 : Reg)
  | asrImm (rd rs1 : Reg) (mod : BitVec 2) (imm16 : BitVec 16)
  | nop
  | ld (rd rs1 : Reg) (mod : BitVec 2) (imm16 : BitVec 16)
  /-- `rd` names the register that is stored (30_encoding.md R74). -/
  | st (rd rs1 : Reg) (mod : BitVec 2) (imm16 : BitVec 16)
  | beq (offset : BitVec 27)
  | bgt (offset : BitVec 27)
  | b (offset : BitVec 27)
  | call (offset : BitVec 27)
  | ret
  deriving DecidableEq, Repr

/-- The mnemonic of an instruction's row, as spec/opcode_table.json spells it (30_encoding.md R64). -/
def Instr.mnemonic : Instr → String
  | .addReg .. | .addImm .. => "add"
  | .subReg .. | .subImm .. => "sub"
  | .mulReg .. | .mulImm .. => "mul"
  | .divReg .. | .divImm .. => "div"
  | .modReg .. | .modImm .. => "mod"
  | .cmpReg .. | .cmpImm .. => "cmp"
  | .andReg .. | .andImm .. => "and"
  | .orReg .. | .orImm .. => "or"
  | .notReg .. | .notImm .. => "not"
  | .movReg .. | .movImm .. => "mov"
  | .lslReg .. | .lslImm .. => "lsl"
  | .lsrReg .. | .lsrImm .. => "lsr"
  | .asrReg .. | .asrImm .. => "asr"
  | .nop => "nop"
  | .ld .. => "ld"
  | .st .. => "st"
  | .beq .. => "beq"
  | .bgt .. => "bgt"
  | .b .. => "b"
  | .call .. => "call"
  | .ret => "ret"

/-- The modifier field of the immediate format, where the instruction has one (30_encoding.md R66). -/
def Instr.modifier? : Instr → Option (BitVec 2)
  | .addImm _ _ m _ | .subImm _ _ m _ | .mulImm _ _ m _ | .divImm _ _ m _ | .modImm _ _ m _
  | .andImm _ _ m _ | .orImm _ _ m _ | .lslImm _ _ m _ | .lsrImm _ _ m _ | .asrImm _ _ m _
  | .ld _ _ m _ | .st _ _ m _ => some m
  | .cmpImm _ m _ | .notImm _ m _ | .movImm _ m _ => some m
  | .addReg .. | .subReg .. | .mulReg .. | .divReg .. | .modReg .. | .cmpReg .. | .andReg .. | .orReg ..
  | .notReg .. | .movReg .. | .lslReg .. | .lsrReg .. | .asrReg ..
  | .nop | .beq .. | .bgt .. | .b .. | .call .. | .ret => none

end Sys2Proof
end

