-- ==== Sys2Proof/WellFormed.lean ====
section
/-! DEFINITION. When a term of `Instr` is an instruction of the machine: the one constraint that
spec/opcode_table.json puts on a row's fields (`mod != 0b11`, 30_encoding.md R78). -/

namespace Sys2Proof

/-- An instruction is well formed when its modifier, if it has one, is not the reserved code `0b11`
(30_encoding.md R67, R78). Register numbers, immediates and offsets have no other constraint: every value of
their fields is legal (10_state.md R21; 30_encoding.md R68, R75). -/
def Instr.wellFormed (i : Instr) : Bool :=
  match i.modifier? with
  | some m => m != 3#2
  | none => true

end Sys2Proof
end

