-- ==== Sys2Proof/Decode.lean ====
section
/-! DEFINITION. The decoder of 30_encoding.md R81, total on every 32-bit word and rejecting by name, and the
encoder written from the same formats (R61, R63). Bit numbers are those of R6: bit 0 is the least significant. -/

namespace Sys2Proof

/-- A 4-bit register field names the register of that number (10_state.md R21). -/
def regOfBits (b : BitVec 4) : Reg := b.toFin

/-- The 4-bit field of a register number (10_state.md R21). -/
def bitsOfReg (r : Reg) : BitVec 4 := BitVec.ofFin r

/-! ## The fields of a word (30_encoding.md R61, R66) -/

/-- `op = inst[31:27]`. -/
def opField (inst : Word) : BitVec 5 := inst.extractLsb' 27 5
/-- `I = inst[26]`. -/
def immBit (inst : Word) : Bool := inst.getLsbD 26
/-- `rd = inst[25:22]`. -/
def rdField (inst : Word) : Reg := regOfBits (inst.extractLsb' 22 4)
/-- `rs1 = inst[21:18]`. -/
def rs1Field (inst : Word) : Reg := regOfBits (inst.extractLsb' 18 4)
/-- `rs2 = inst[17:14]`. -/
def rs2Field (inst : Word) : Reg := regOfBits (inst.extractLsb' 14 4)
/-- `mod = inst[17:16]` (R67; the position is the spec's decision D2, entry 13). -/
def modField (inst : Word) : BitVec 2 := inst.extractLsb' 16 2
/-- `imm16 = inst[15:0]` (R66). -/
def imm16Field (inst : Word) : BitVec 16 := inst.extractLsb' 0 16
/-- `offset = inst[26:0]`. -/
def offsetField (inst : Word) : BitVec 27 := inst.extractLsb' 0 27

/-! ## Decoding -/

/-- Why a word is no instruction: the three cases of 60_exceptions.md R183. -/
inductive DecodeError where
  /-- (a) the opcode is one of the 11 unassigned codes (30_encoding.md R77) -/
  | unassignedOpcode
  /-- (b) `ld` or `st` with `I = 0` (30_encoding.md R79) -/
  | registerFormMemory
  /-- (c) an immediate form with `mod = 0b11` (30_encoding.md R78) -/
  | reservedModifier
  deriving DecidableEq, Repr

/-- The immediate-format half of 30_encoding.md R81: `mod = 0b11` is refused. -/
def decodeImmForm (mk : Reg → Reg → BitVec 2 → BitVec 16 → Instr) (inst : Word) : Except DecodeError Instr :=
  if modField inst = 3#2 then .error .reservedModifier
  else .ok (mk (rdField inst) (rs1Field inst) (modField inst) (imm16Field inst))

/-- The opcodes with an `I` bit and two forms (30_encoding.md R65, R70, R81). -/
def decodeTwoForms (mkReg : Reg → Reg → Reg → Instr) (mkImm : Reg → Reg → BitVec 2 → BitVec 16 → Instr)
    (inst : Word) : Except DecodeError Instr :=
  if immBit inst then decodeImmForm mkImm inst
  else .ok (mkReg (rdField inst) (rs1Field inst) (rs2Field inst))

/-- `ld` and `st`: the immediate form only (30_encoding.md R79). -/
def decodeMemForm (mk : Reg → Reg → BitVec 2 → BitVec 16 → Instr) (inst : Word) : Except DecodeError Instr :=
  if immBit inst then decodeImmForm mk inst else .error .registerFormMemory

/-- The decoder (30_encoding.md R81), by the opcode map of R64. Bits that belong to no field are not read
(R76), so `cmp` drops the `rd` field and `not` and `mov` the `rs1` field. -/
def decode (inst : Word) : Except DecodeError Instr :=
  match (opField inst).toNat with
  | 0 => decodeTwoForms .addReg .addImm inst
  | 1 => decodeTwoForms .subReg .subImm inst
  | 2 => decodeTwoForms .mulReg .mulImm inst
  | 3 => decodeTwoForms .divReg .divImm inst
  | 4 => decodeTwoForms .modReg .modImm inst
  | 5 => decodeTwoForms (fun _ rs1 rs2 => .cmpReg rs1 rs2) (fun _ rs1 m i => .cmpImm rs1 m i) inst
  | 6 => decodeTwoForms .andReg .andImm inst
  | 7 => decodeTwoForms .orReg .orImm inst
  | 8 => decodeTwoForms (fun rd _ rs2 => .notReg rd rs2) (fun rd _ m i => .notImm rd m i) inst
  | 9 => decodeTwoForms (fun rd _ rs2 => .movReg rd rs2) (fun rd _ m i => .movImm rd m i) inst
  | 10 => decodeTwoForms .lslReg .lslImm inst
  | 11 => decodeTwoForms .lsrReg .lsrImm inst
  | 12 => decodeTwoForms .asrReg .asrImm inst
  | 13 => .ok .nop
  | 14 => decodeMemForm .ld inst
  | 15 => decodeMemForm .st inst
  | 16 => .ok (.beq (offsetField inst))
  | 17 => .ok (.bgt (offsetField inst))
  | 18 => .ok (.b (offsetField inst))
  | 19 => .ok (.call (offsetField inst))
  | 20 => .ok .ret
  | _ => .error .unassignedOpcode

/-! ## Encoding -/

/-- The register format (30_encoding.md R61); `inst[13:0]` belongs to no field and is written 0 (R76). -/
def regWord (op : BitVec 5) (rd rs1 rs2 : Reg) : Word :=
  op ++ 0#1 ++ bitsOfReg rd ++ bitsOfReg rs1 ++ bitsOfReg rs2 ++ 0#14

/-- The immediate format (30_encoding.md R61, R66, R67). -/
def immWord (op : BitVec 5) (rd rs1 : Reg) (mod : BitVec 2) (imm16 : BitVec 16) : Word :=
  op ++ 1#1 ++ bitsOfReg rd ++ bitsOfReg rs1 ++ mod ++ imm16

/-- The branch format (30_encoding.md R61); with offset 0 it is also the nullary layout of R63. -/
def branchWord (op : BitVec 5) (offset : BitVec 27) : Word := op ++ offset

/-- The opcode of an instruction (30_encoding.md R64). -/
def Instr.opcode : Instr → BitVec 5
  | .addReg .. | .addImm .. => 0b00000#5
  | .subReg .. | .subImm .. => 0b00001#5
  | .mulReg .. | .mulImm .. => 0b00010#5
  | .divReg .. | .divImm .. => 0b00011#5
  | .modReg .. | .modImm .. => 0b00100#5
  | .cmpReg .. | .cmpImm .. => 0b00101#5
  | .andReg .. | .andImm .. => 0b00110#5
  | .orReg .. | .orImm .. => 0b00111#5
  | .notReg .. | .notImm .. => 0b01000#5
  | .movReg .. | .movImm .. => 0b01001#5
  | .lslReg .. | .lslImm .. => 0b01010#5
  | .lsrReg .. | .lsrImm .. => 0b01011#5
  | .asrReg .. | .asrImm .. => 0b01100#5
  | .nop => 0b01101#5
  | .ld .. => 0b01110#5
  | .st .. => 0b01111#5
  | .beq .. => 0b10000#5
  | .bgt .. => 0b10001#5
  | .b .. => 0b10010#5
  | .call .. => 0b10011#5
  | .ret => 0b10100#5

/-- The word of an instruction, with every ignored bit 0 (30_encoding.md R61, R63, R76). A term whose
modifier is the reserved `0b11` is encoded too: its word is one that R78 makes illegal. -/
def encode (i : Instr) : Word :=
  match i with
  | .addReg rd rs1 rs2 | .subReg rd rs1 rs2 | .mulReg rd rs1 rs2 | .divReg rd rs1 rs2 | .modReg rd rs1 rs2
  | .andReg rd rs1 rs2 | .orReg rd rs1 rs2 | .lslReg rd rs1 rs2 | .lsrReg rd rs1 rs2
  | .asrReg rd rs1 rs2 => regWord i.opcode rd rs1 rs2
  | .cmpReg rs1 rs2 => regWord i.opcode 0 rs1 rs2
  | .notReg rd rs2 | .movReg rd rs2 => regWord i.opcode rd 0 rs2
  | .addImm rd rs1 m v | .subImm rd rs1 m v | .mulImm rd rs1 m v | .divImm rd rs1 m v | .modImm rd rs1 m v
  | .andImm rd rs1 m v | .orImm rd rs1 m v | .lslImm rd rs1 m v | .lsrImm rd rs1 m v | .asrImm rd rs1 m v
  | .ld rd rs1 m v | .st rd rs1 m v => immWord i.opcode rd rs1 m v
  | .cmpImm rs1 m v => immWord i.opcode 0 rs1 m v
  | .notImm rd m v | .movImm rd m v => immWord i.opcode rd 0 m v
  | .beq o | .bgt o | .b o | .call o => branchWord i.opcode o
  | .nop | .ret => branchWord i.opcode 0

/-- The bits of a word that belong to the opcode, the `I` bit or a field of the instruction; the others are
ignored (30_encoding.md R76; the "ignored" ranges of spec/opcode_table.json). -/
def Instr.fieldMask : Instr → Word
  | .addReg .. | .subReg .. | .mulReg .. | .divReg .. | .modReg .. | .andReg .. | .orReg ..
  | .lslReg .. | .lsrReg .. | .asrReg .. => 0xFFFFC000#32
  | .cmpReg .. => 0xFC3FC000#32
  | .notReg .. | .movReg .. => 0xFFC3C000#32
  | .cmpImm .. => 0xFC3FFFFF#32
  | .notImm .. | .movImm .. => 0xFFC3FFFF#32
  | .addImm .. | .subImm .. | .mulImm .. | .divImm .. | .modImm .. | .andImm .. | .orImm ..
  | .lslImm .. | .lsrImm .. | .asrImm .. | .ld .. | .st ..
  | .beq .. | .bgt .. | .b .. | .call .. => 0xFFFFFFFF#32
  | .nop | .ret => 0xF8000000#32

/-! ## Words as bytes -/

/-- The four bytes of a word in memory order, least significant first (20_memory.md R45). -/
def bytesOfWord (w : Word) : List Byte :=
  [w.extractLsb' 0 8, w.extractLsb' 8 8, w.extractLsb' 16 8, w.extractLsb' 24 8]

/-- The word of four bytes in memory order (20_memory.md R45). -/
def wordOfBytes (b0 b1 b2 b3 : Byte) : Word := b3 ++ b2 ++ b1 ++ b0

/-- Decoding from bytes: the first four are the word (30_encoding.md R60: every instruction is 4 bytes), the
rest is handed back; fewer than four are no instruction. -/
def decodeBytes : List Byte → Option (Except DecodeError Instr × List Byte)
  | b0 :: b1 :: b2 :: b3 :: rest => some (decode (wordOfBytes b0 b1 b2 b3), rest)
  | _ => none

/-- The word whose bits are `w`, of which the table gives `nbits` (bits above them are 0). -/
def tableWord (nbits w : Nat) : Word := BitVec.ofNat 32 (w % 2 ^ nbits)

/-- The instruction that the decoder reads from the word whose bits are `w`: the word is laid out as bytes
(20_memory.md R45) and given to the byte decoder. -/
def decodeTableWord (nbits w : Nat) : Option Instr :=
  match decodeBytes (bytesOfWord (tableWord nbits w)) with
  | some (.ok i, _) => some i
  | _ => none

end Sys2Proof
end

