-- ==== Sys2Proof/Config.lean ====
section
/-! DEFINITION. What an implementation of SimpleRisc fixes: the identity parameters (00_scope.md R2), the
configuration fields `DIV_FN`, `MOD_FN` (40_arithmetic.md R108) and `SHIFT_OOR` (43_shift.md R144), and
the regions a launch admits as data memory (20_memory.md R42). -/

namespace Sys2Proof

/-- `ISA_NAME` (00_scope.md R2). -/
def Config.isaName : String := "SimpleRisc"

/-- `ISA_VERSION`: the spec leaves it unspecified (00_scope.md R2); no rule uses it. Entry 16. -/
opaque Config.isaVersion : String

/-- `VENDOR`: the spec leaves it unspecified (00_scope.md R2); no rule uses it. Entry 16. -/
opaque Config.vendor : String

/-- An implementation's own `DIV_FN`, where it is not the default of 40_arithmetic.md R108: a total
function of the two signed operands about which nothing is known. Entry 11. -/
opaque Config.ownDivFn : Int → Int → Int

/-- An implementation's own `MOD_FN`, where it is not the default of 40_arithmetic.md R108. Entry 11. -/
opaque Config.ownModFn : Int → Int → Int

/-- Which body `DIV_FN` or `MOD_FN` has (40_arithmetic.md R108): the default that the rule states, or the
implementation's own function. -/
inductive FnChoice where
  | standard
  | own
  deriving DecidableEq, Repr

/-- What a shift by an amount above 31 does (43_shift.md R144). -/
inductive ShiftOor where
  /-- raise `ShiftAmountFault(n)`; the default -/
  | fault
  /-- use `n mod 32` -/
  | mod32
  /-- the mathematical shift: zeros, or copies of the sign for `asr` -/
  | saturate
  deriving DecidableEq, Repr

/-- The configuration fields of 00_scope.md R5 (kind "config"), with the defaults the spec states. -/
structure Config where
  divFn : FnChoice := .standard
  modFn : FnChoice := .standard
  shiftOor : ShiftOor := .fault
  deriving DecidableEq, Repr

/-- A run of admitted data words: the words at `base`, `base + 4`, ..., `words` of them
(20_memory.md R42). A finite list of regions describes any finite set of word addresses. -/
structure Region where
  base : Nat
  words : Nat
  deriving DecidableEq, Repr

end Sys2Proof
end

