-- ==== Sys2Proof/Machine/State.lean ====
section
/-! DEFINITION. The state of a SimpleRisc machine (10_state.md R20), the model faults (60_exceptions.md R182) and
the state after reset. -/

namespace Sys2Proof.Machine

/-- The flags register: two 1-bit fields (10_state.md R26). -/
structure Flags where
  /-- `flags.E`: the operands of the last `cmp` were equal. -/
  e : Bool
  /-- `flags.GT`: the first operand of the last `cmp` was greater than the second. -/
  gt : Bool
  deriving DecidableEq, Repr

/-- What an `UninitialisedRead` read (60_exceptions.md R182). -/
inductive Unwritten where
  | reg (r : Reg)
  | flags
  | mem (addr : Word)
  deriving DecidableEq, Repr

/-- The two kinds of `ArithmeticFault` (60_exceptions.md R182). -/
inductive ArithKind where
  | divideByZero
  | divideOverflow
  deriving DecidableEq, Repr

/-- The model faults of 60_exceptions.md R182, the complete list, each with what it records. A fault ends the
run and writes nothing (R181). Each stops where a chip would go on in some way, so each is safe (R193). -/
inductive Fault where
  /-- Raised by `fetch`: `pc` is not a multiple of 4 (20_memory.md R48). Safe. -/
  | misalignedFetch (pc : Word)
  /-- Raised by `fetch`: `pc` is aligned, is not `END_PC` and lies outside the text (20_memory.md R48). Safe. -/
  | fetchFault (pc : Word)
  /-- Raised when the word decodes to no instruction (60_exceptions.md R183). Safe. -/
  | illegalInstruction (inst : Word)
  /-- Raised by a read of a register, the flags or a data word that nothing has written (R185). Safe. -/
  | uninitialisedRead (what : Unwritten)
  /-- Raised by `div` and `mod` (40_arithmetic.md R104, R105). Safe. -/
  | arithmeticFault (kind : ArithKind)
  /-- Raised by `lsl`, `lsr`, `asr` when the amount exceeds 31 and `SHIFT_OOR = fault` (43_shift.md R144). Safe. -/
  | shiftAmountFault (n : Nat)
  /-- Raised by `ld` and `st`: the address is not a multiple of 4 (20_memory.md R44). Safe. -/
  | misalignedAccess (addr : Word)
  /-- Raised by `ld` and `st`: the address is no admitted data word (20_memory.md R46, R47). Safe. -/
  | accessFault (addr : Word)
  deriving DecidableEq, Repr

/-- The other ways a step or a launch ends without a next state. -/
inductive Refusal where
  /-- Raised by an arm of `exec` whose instruction has no meaning yet. Safe. No arm raises it. -/
  | notModelled (mnemonic : String)
  /-- Raised by `step` when `pc = END_PC`: "the run has ENDED NORMALLY; the state is final; no further step is
  taken" (70_reset_and_hazards.md R203). It is no fault. Safe. Entry 9. -/
  | endedNormally
  /-- Raised by `Launch.boot` for a launch that is not well formed (93_implementation_defined.md U14). Safe. -/
  | illFormedLaunch
  deriving DecidableEq, Repr

/-- The written data words, as bytes (20_memory.md R42, R45): addresses strictly rising. An address that is not
listed holds no value ("unwritten"), and reading it is a fault (R46). Entry 7. -/
structure Memory where
  cells : List Host.Cell
  deriving DecidableEq, Repr

/-- The state of 10_state.md R20, and with it the parameters of the run that a step reads (R20, last
paragraph; 00_scope.md R5), which no instruction writes (entry 2). -/
structure State where
  /-- The general registers `x[0..15]`. -/
  regs : Vector Word 16
  /-- Which general registers are written (10_state.md R30). The value of an unwritten one is never read. -/
  regsWritten : Vector Bool 16
  /-- The program counter (10_state.md R29). -/
  pc : Word
  /-- The flags register (10_state.md R26). -/
  flags : Flags
  /-- Whether the flags are written (10_state.md R32). -/
  flagsWritten : Bool
  /-- The contents of the data memory (20_memory.md R42). -/
  mem : Memory
  /-- `domain(DATA)`: the admitted data words (20_memory.md R42). -/
  dataMap : List Region
  /-- `TEXT_BASE` (20_memory.md R41). -/
  textBase : Word
  /-- `TEXT`: the instruction words (20_memory.md R41). -/
  text : List Word
  /-- `END_PC` (70_reset_and_hazards.md R203). -/
  endPc : Word
  /-- `DIV_FN`, `MOD_FN`, `SHIFT_OOR` (00_scope.md R5). -/
  config : Config
  deriving DecidableEq, Repr

/-- The machine right after reset. The spec has no reset but a launch that the host supplies
(70_reset_and_hazards.md R200); this is the launch in which no program is loaded: `TEXT_BASE`, `ENTRY_PC` and
`END_PC` are 0, the text is empty, every address is admitted as data and no data word is written, every register
is given the value 0 (so `sp` is a `STACK_TOP` with admitted words below it and `ra = END_PC`, as R201
recommends), and the configuration is the spec's default. The flags are given the value 0, where a launch of
the spec leaves them unwritten. Entries 1, 3, 4, 5, 6. -/
def State.reset : State where
  regs := Vector.replicate 16 0#32
  regsWritten := Vector.replicate 16 true
  pc := 0#32
  flags := { e := false, gt := false }
  flagsWritten := true
  mem := { cells := [] }
  dataMap := [{ base := 0, words := 2 ^ 30 }]
  textBase := 0#32
  text := []
  endPc := 0#32
  config := {}

end Sys2Proof.Machine
end

