-- ==== Sys2Proof/Machine/Ops.lean ====
section
/-! DEFINITION. The named operations over registers, flags, memory and the text, each with the faults it raises,
and the one way a step ends in a model fault. -/

namespace Sys2Proof.Machine

/-! ## Model faults -/

/-- `raise F(info)` (60_exceptions.md R181): the step ends in the fault and writes nothing. This is all that
taking an exception is on this machine: nothing is saved anywhere and control goes nowhere (R189), and there
is no return from it (R190). -/
def raise {α : Type} (f : Fault) : Except Fault α := .error f

/-- The outcome of an instruction: its next state, or the fault that it raised (60_exceptions.md R181). -/
def outcome (r : Except Fault State) : Host.Outcome State Fault Refusal :=
  match r with
  | .ok t => .next t
  | .error f => .fault f

/-! ## Registers, flags and pc -/

/-- `x[r]` (00_scope.md R7). No register is hardwired (10_state.md R22); reading an unwritten one raises
`UninitialisedRead(reg)` (R30). -/
def State.readReg (s : State) (r : Reg) : Except Fault Word :=
  if s.regsWritten[r] then .ok s.regs[r] else raise (.uninitialisedRead (.reg r))

/-- `x[r] <- v` (00_scope.md R7); "a register becomes written when an instruction writes it" (10_state.md R30). -/
def State.writeReg (s : State) (r : Reg) (v : Word) : State :=
  { s with regs := s.regs.set r v, regsWritten := s.regsWritten.set r true }

/-- The flags, or `UninitialisedRead(flags)` where no `cmp` has written them (10_state.md R32). -/
def State.readFlags (s : State) : Except Fault Flags :=
  if s.flagsWritten then .ok s.flags else raise (.uninitialisedRead .flags)

/-- Both fields of the flags register are written together (10_state.md R27, R32). -/
def State.writeFlags (s : State) (f : Flags) : State :=
  { s with flags := f, flagsWritten := true }

/-- Other contents of the data memory. -/
def State.setMem (s : State) (m : Memory) : State := { s with mem := m }

/-- `pc <- t` (00_scope.md R7). -/
def State.setPc (s : State) (t : Word) : State := { s with pc := t }

/-- `pc <- pc + 4`, modulo 2^32: the end of every instruction that does not write `pc` otherwise
(00_scope.md R8; 10_state.md R29). -/
def State.advance (s : State) : State := s.setPc (s.pc + 4#32)

/-! ## The bytes of the data memory -/

/-- The byte listed at an address, if one is. -/
def lookupCell : List Host.Cell → Nat → Option Byte
  | [], _ => none
  | (k, b) :: rest, a => if k = a then some b else lookupCell rest a

/-- Put a byte at an address, keeping the addresses strictly rising. -/
def insertCell : List Host.Cell → Nat → Byte → List Host.Cell
  | [], a, b => [(a, b)]
  | (k, c) :: rest, a, b =>
    if a < k then (a, b) :: (k, c) :: rest
    else if a = k then (a, b) :: rest
    else (k, c) :: insertCell rest a b

/-- What one byte of memory holds; an unlisted address holds no value (20_memory.md R42; entry 7). -/
def Memory.readByte (m : Memory) (a : Nat) : Option Byte := lookupCell m.cells a

/-- Write one byte. -/
def Memory.writeByte (m : Memory) (a : Nat) (b : Byte) : Memory := { cells := insertCell m.cells a b }

/-- The word at an address, least significant byte first (20_memory.md R45), if it is written. -/
def Memory.readWord (m : Memory) (a : Nat) : Option Word :=
  match m.readByte a, m.readByte (a + 1), m.readByte (a + 2), m.readByte (a + 3) with
  | some b0, some b1, some b2, some b3 => some (b3 ++ b2 ++ b1 ++ b0)
  | _, _, _, _ => none

/-- Write a word, least significant byte first (20_memory.md R45). -/
def Memory.writeWord (m : Memory) (a : Nat) (v : Word) : Memory :=
  (((m.writeByte a (v.extractLsb' 0 8)).writeByte (a + 1) (v.extractLsb' 8 8)).writeByte
    (a + 2) (v.extractLsb' 16 8)).writeByte (a + 3) (v.extractLsb' 24 8)

/-- The canonical form: addresses strictly rising, all of them 32-bit addresses (20_memory.md R40). As an
unlisted address holds no value, no entry can equal what an unlisted address reads as. -/
def Memory.wf (m : Memory) : Bool :=
  decide (m.cells.Pairwise (fun c d => c.1 < d.1)) && m.cells.all (fun c => decide (c.1 < 2 ^ 32))

/-! ## The address map -/

/-- The region holds the data word at address `a` (20_memory.md R42). -/
def inRegion (r : Region) (a : Nat) : Bool :=
  decide (r.base ≤ a) && decide (a < r.base + 4 * r.words) && decide ((a - r.base) % 4 = 0)

/-- `TEXT_BASE <= a < TEXT_BASE + 4*N` (20_memory.md R41). -/
def State.inText (s : State) (a : Word) : Bool :=
  decide (s.textBase.toNat ≤ a.toNat) && decide (a.toNat < s.textBase.toNat + 4 * s.text.length)

/-- `a` is in `domain(DATA)`, which holds no text address (20_memory.md R42, R46). Entry 10. -/
def State.admitted (s : State) (a : Word) : Bool :=
  s.dataMap.any (fun r => inRegion r a.toNat) && !s.inText a

/-! ## The three primitives (20_memory.md section 3) -/

/-- `MemRead(addr, 4)` (20_memory.md R46). -/
def State.memRead (s : State) (addr : Word) : Except Fault Word :=
  if addr.toNat % 4 ≠ 0 then raise (.misalignedAccess addr)
  else if s.admitted addr = false then raise (.accessFault addr)
  else
    match s.mem.readWord addr.toNat with
    | some v => .ok v
    | none => raise (.uninitialisedRead (.mem addr))

/-- `MemWrite(addr, 4, v)` (20_memory.md R47). -/
def State.memWrite (s : State) (addr v : Word) : Except Fault State :=
  if addr.toNat % 4 ≠ 0 then raise (.misalignedAccess addr)
  else if s.admitted addr = false then raise (.accessFault addr)
  else .ok (s.setMem (s.mem.writeWord addr.toNat v))

/-- `Fetch(pc)` (20_memory.md R48): word `(pc - TEXT_BASE) / 4` of the text. -/
def State.fetch (s : State) : Except Fault Word :=
  if s.pc.toNat % 4 ≠ 0 then raise (.misalignedFetch s.pc)
  else if s.inText s.pc = false then raise (.fetchFault s.pc)
  else
    match s.text[(s.pc.toNat - s.textBase.toNat) / 4]? with
    | some inst => .ok inst
    | none => raise (.fetchFault s.pc)

/-! ## Placing an instruction where the next step fetches it -/

/-- The text with the word `w` at `pc`: a word of the loaded text is replaced; where `pc` is outside the text,
`w` becomes the whole text, at `pc`. `END_PC` is moved off `pc`, where the run would end before the fetch
(70_reset_and_hazards.md R203), and a `pc` that is no multiple of 4 is rounded down, since no fetch is made
there (20_memory.md R48). It stands for the host loading a program (entry 1). -/
def State.placeWord (s : State) (w : Word) : State :=
  let pc := s.pc - BitVec.ofNat 32 (s.pc.toNat % 4)
  let endPc := if s.endPc = pc then pc + 4#32 else s.endPc
  let k := (pc.toNat - s.textBase.toNat) / 4
  if s.inText pc then { s with pc := pc, endPc := endPc, text := s.text.set k w }
  else { s with pc := pc, endPc := endPc, textBase := pc, text := [w] }

end Sys2Proof.Machine
end

