-- ==== Sys2Proof/Machine/Flags.lean ====
section
/-! DEFINITION. The flag computation: only `cmp` writes the flags (10_state.md R27), and it writes both. -/

namespace Sys2Proof.Machine

/-- `flags.E <- (a = b)`, `flags.GT <- (a > b)`, on the signed values (40_arithmetic.md R106). -/
def compareFlags (a b : Word) : Flags :=
  { e := decide (a.toInt = b.toInt), gt := decide (a.toInt > b.toInt) }

/-- The effect of comparing `a` with `b`: both flags, and `pc <- pc + 4` (40_arithmetic.md R106). -/
def State.compare (s : State) (a b : Word) : State := (s.writeFlags (compareFlags a b)).advance

/-- Flags that a `cmp` can leave: "`E` and `GT` are never both 1" (40_arithmetic.md R106). -/
def Flags.consistent (f : Flags) : Bool := !(f.e && f.gt)

end Sys2Proof.Machine
end

