-- ==== Sys2Proof/Machine/Operands.lean ====
section
/-! DEFINITION. The operand forms (30_encoding.md R66 to R75) and the functions of the operands that more than
one instruction uses: the immediate, the branch target, the effective address, division and shift amounts. -/

namespace Sys2Proof.Machine

/-- `immx` (30_encoding.md R68): sign-extended (default), zero-extended (`u`) or in the upper half (`h`). The
code `0b11` has no value (R78). -/
def immx (mod : BitVec 2) (imm16 : BitVec 16) : Option Word :=
  if mod = 0b00#2 then some (imm16.signExtend 32)
  else if mod = 0b01#2 then some (imm16.zeroExtend 32)
  else if mod = 0b10#2 then some (imm16 ++ 0#16)
  else none

/-- The immediate operand of the instruction `i`, or `IllegalInstruction` of its word where the modifier is the
reserved code (30_encoding.md R68, R78). The decoder lets no such `i` through; entry 8. -/
def immOperand (i : Instr) (mod : BitVec 2) (imm16 : BitVec 16) : Except Fault Word :=
  match immx mod imm16 with
  | some v => .ok v
  | none => raise (.illegalInstruction (encode i))

/-- `target = pc + (sext_32(offset) << 2)` modulo 2^32 (30_encoding.md R75; 45_branch.md R160). -/
def branchTarget (pc : Word) (offset : BitVec 27) : Word := pc + (offset.signExtend 32 <<< 2)

/-- `addr = x[rs1] + immx` modulo 2^32 (44_load_store.md R150; 20_memory.md R49). -/
def effectiveAddress (base disp : Word) : Word := base + disp

/-! ## The two shapes of an ALU instruction (30_encoding.md R70, R71; 40_arithmetic.md R100) -/

/-- Three operands, register form: read `rs1`, then `rs2`; compute; write `rd`; `pc <- pc + 4`. -/
def aluReg (op : Word → Word → Except Fault Word) (rd rs1 rs2 : Reg) (s : State) : Except Fault State := do
  let a ← s.readReg rs1
  let b ← s.readReg rs2
  let v ← op a b
  return (s.writeReg rd v).advance

/-- Three operands, immediate form of the instruction `i`: decode the immediate; read `rs1`; compute; write
`rd`; `pc <- pc + 4`. -/
def aluImm (i : Instr) (op : Word → Word → Except Fault Word) (rd rs1 : Reg) (mod : BitVec 2)
    (imm16 : BitVec 16) (s : State) : Except Fault State := do
  let b ← immOperand i mod imm16
  let a ← s.readReg rs1
  let v ← op a b
  return (s.writeReg rd v).advance

/-- Two operands (`not`, `mov`), register form (30_encoding.md R73): read `rs2`; write `rd`; `pc <- pc + 4`. -/
def unaryReg (op : Word → Word) (rd rs2 : Reg) (s : State) : Except Fault State := do
  let b ← s.readReg rs2
  return (s.writeReg rd (op b)).advance

/-- Two operands (`not`, `mov`), immediate form of the instruction `i`: no register is read. -/
def unaryImm (i : Instr) (op : Word → Word) (rd : Reg) (mod : BitVec 2) (imm16 : BitVec 16) (s : State) :
    Except Fault State := do
  let b ← immOperand i mod imm16
  return (s.writeReg rd (op b)).advance

/-! ## Division (40_arithmetic.md R104, R105, R108) -/

/-- `DIV_FN(a, b)`; the default is `sign(a) * sign(b) * floor(|a| / |b|)`, that is, `a / b` rounded toward zero
(40_arithmetic.md R108). -/
def divFn (c : Config) (a b : Int) : Int :=
  match c.divFn with
  | .standard => a.sign * b.sign * ((a.natAbs / b.natAbs : Nat) : Int)
  | .own => Config.ownDivFn a b

/-- `MOD_FN(a, b)`; the default is `a - b * DIV_FN(a, b)` (40_arithmetic.md R108). -/
def modFn (c : Config) (a b : Int) : Int :=
  match c.modFn with
  | .standard => a - b * divFn c a b
  | .own => Config.ownModFn a b

/-- What `div` and `mod` share: the two faults, tested before the function is asked (40_arithmetic.md R104,
R105; 60_exceptions.md R187), on the signed values of the operands. -/
def dividing (f : Int → Int → Int) (a b : Word) : Except Fault Word :=
  if b.toInt = 0 then raise (.arithmeticFault .divideByZero)
  else if a.toInt = -2 ^ 31 ∧ b.toInt = -1 then raise (.arithmeticFault .divideOverflow)
  else .ok (BitVec.ofInt 32 (f a.toInt b.toInt))

/-! ## Shift amounts (43_shift.md R140, R144) -/

/-- What the three shifts share: amounts 0 to 31 are exact; a larger one is treated as `SHIFT_OOR` says. `sh` is
the shift, `far` what it gives when every bit has been shifted out. -/
def shifting (c : Config) (sh : Word → Nat → Word) (far : Word → Word) (a b : Word) : Except Fault Word :=
  if b.toNat ≤ 31 then .ok (sh a b.toNat)
  else
    match c.shiftOor with
    | .fault => raise (.shiftAmountFault b.toNat)
    | .mod32 => .ok (sh a (b.toNat % 32))
    | .saturate => .ok (far a)

end Sys2Proof.Machine
end

