-- ==== Sys2Proof/Machine/Arithmetic.lean ====
section
/-! DEFINITION. add, sub, mul, div, mod, cmp (40_arithmetic.md). -/

namespace Sys2Proof.Machine

/-- The 32-bit sum modulo 2^32 (40_arithmetic.md R101). -/
def addOp (a b : Word) : Except Fault Word := .ok (a + b)

/-- The 32-bit difference modulo 2^32 (40_arithmetic.md R102). -/
def subOp (a b : Word) : Except Fault Word := .ok (a - b)

/-- The low 32 bits of the product (40_arithmetic.md R103). -/
def mulOp (a b : Word) : Except Fault Word := .ok (a * b)

/-- The quotient by `DIV_FN`, or an `ArithmeticFault` (40_arithmetic.md R104). -/
def divOp (c : Config) (a b : Word) : Except Fault Word := dividing (divFn c) a b

/-- The remainder by `MOD_FN`, or an `ArithmeticFault` (40_arithmetic.md R105). -/
def modOp (c : Config) (a b : Word) : Except Fault Word := dividing (modFn c) a b

/-- `add rd, rs1, (rs2/imm)`, register form (40_arithmetic.md R101). -/
def execAddReg (rd rs1 rs2 : Reg) (s : State) : Host.Outcome State Fault Refusal :=
  outcome (aluReg addOp rd rs1 rs2 s)

/-- `add rd, rs1, (rs2/imm)`, immediate form (40_arithmetic.md R101). -/
def execAddImm (rd rs1 : Reg) (mod : BitVec 2) (imm16 : BitVec 16) (s : State) : Host.Outcome State Fault Refusal :=
  outcome (aluImm (.addImm rd rs1 mod imm16) addOp rd rs1 mod imm16 s)

/-- `sub rd, rs1, (rs2/imm)`, register form (40_arithmetic.md R102). The flags are not set (10_state.md R27). -/
def execSubReg (rd rs1 rs2 : Reg) (s : State) : Host.Outcome State Fault Refusal :=
  outcome (aluReg subOp rd rs1 rs2 s)

/-- `sub rd, rs1, (rs2/imm)`, immediate form (40_arithmetic.md R102). -/
def execSubImm (rd rs1 : Reg) (mod : BitVec 2) (imm16 : BitVec 16) (s : State) : Host.Outcome State Fault Refusal :=
  outcome (aluImm (.subImm rd rs1 mod imm16) subOp rd rs1 mod imm16 s)

/-- `mul rd, rs1, (rs2/imm)`, register form (40_arithmetic.md R103). -/
def execMulReg (rd rs1 rs2 : Reg) (s : State) : Host.Outcome State Fault Refusal :=
  outcome (aluReg mulOp rd rs1 rs2 s)

/-- `mul rd, rs1, (rs2/imm)`, immediate form (40_arithmetic.md R103). -/
def execMulImm (rd rs1 : Reg) (mod : BitVec 2) (imm16 : BitVec 16) (s : State) : Host.Outcome State Fault Refusal :=
  outcome (aluImm (.mulImm rd rs1 mod imm16) mulOp rd rs1 mod imm16 s)

/-- `div rd, rs1, (rs2/imm)`, register form (40_arithmetic.md R104). -/
def execDivReg (rd rs1 rs2 : Reg) (s : State) : Host.Outcome State Fault Refusal :=
  outcome (aluReg (divOp s.config) rd rs1 rs2 s)

/-- `div rd, rs1, (rs2/imm)`, immediate form (40_arithmetic.md R104). -/
def execDivImm (rd rs1 : Reg) (mod : BitVec 2) (imm16 : BitVec 16) (s : State) : Host.Outcome State Fault Refusal :=
  outcome (aluImm (.divImm rd rs1 mod imm16) (divOp s.config) rd rs1 mod imm16 s)

/-- `mod rd, rs1, (rs2/imm)`, register form (40_arithmetic.md R105). -/
def execModReg (rd rs1 rs2 : Reg) (s : State) : Host.Outcome State Fault Refusal :=
  outcome (aluReg (modOp s.config) rd rs1 rs2 s)

/-- `mod rd, rs1, (rs2/imm)`, immediate form (40_arithmetic.md R105). -/
def execModImm (rd rs1 : Reg) (mod : BitVec 2) (imm16 : BitVec 16) (s : State) : Host.Outcome State Fault Refusal :=
  outcome (aluImm (.modImm rd rs1 mod imm16) (modOp s.config) rd rs1 mod imm16 s)

/-- `cmp rs1, (rs2/imm)`, register form (40_arithmetic.md R106); the `rd` field is not read. -/
def execCmpReg (rs1 rs2 : Reg) (s : State) : Host.Outcome State Fault Refusal :=
  outcome do
    let a ← s.readReg rs1
    let b ← s.readReg rs2
    return s.compare a b

/-- `cmp rs1, (rs2/imm)`, immediate form (40_arithmetic.md R106). -/
def execCmpImm (rs1 : Reg) (mod : BitVec 2) (imm16 : BitVec 16) (s : State) : Host.Outcome State Fault Refusal :=
  outcome do
    let b ← immOperand (.cmpImm rs1 mod imm16) mod imm16
    let a ← s.readReg rs1
    return s.compare a b

end Sys2Proof.Machine
end

