-- ==== Sys2Proof/Machine/Branch.lean ====
section
/-! DEFINITION. b, beq, bgt (45_branch.md). There is no delay slot (R160). -/

namespace Sys2Proof.Machine

/-- A conditional branch: to the target where `taken` holds, else to `pc + 4` (45_branch.md R162, R163). -/
def State.branchIf (s : State) (taken : Bool) (offset : BitVec 27) : State :=
  if taken then s.setPc (branchTarget s.pc offset) else s.advance

/-- `beq label` (45_branch.md R162): tests `flags.E`. -/
def execBeq (offset : BitVec 27) (s : State) : Host.Outcome State Fault Refusal :=
  outcome do
    let f ← s.readFlags
    return s.branchIf f.e offset

/-- `bgt label` (45_branch.md R163): tests `flags.GT`. -/
def execBgt (offset : BitVec 27) (s : State) : Host.Outcome State Fault Refusal :=
  outcome do
    let f ← s.readFlags
    return s.branchIf f.gt offset

/-- `b label` (45_branch.md R161). -/
def execB (offset : BitVec 27) (s : State) : Host.Outcome State Fault Refusal :=
  .next (s.setPc (branchTarget s.pc offset))

end Sys2Proof.Machine
end

