-- ==== Sys2Proof/Machine/CallRet.lean ====
section
/-! DEFINITION. call and ret (46_call_ret.md). -/

namespace Sys2Proof.Machine

/-- `call label` (46_call_ret.md R170): `ra` and the target are computed from the old `pc`; `ra` is not read. -/
def execCall (offset : BitVec 27) (s : State) : Host.Outcome State Fault Refusal :=
  .next ((s.writeReg Reg.ra (s.pc + 4#32)).setPc (branchTarget s.pc offset))

/-- `ret` (46_call_ret.md R171): `pc <- x[15]`, untested; `ra` is not changed. -/
def execRet (s : State) : Host.Outcome State Fault Refusal :=
  outcome do
    let t ← s.readReg Reg.ra
    return s.setPc t

end Sys2Proof.Machine
end

