-- ==== Sys2Proof/Machine/LoadStore.lean ====
section
/-! DEFINITION. ld and st (44_load_store.md). -/

namespace Sys2Proof.Machine

/-- `ld rd, imm[rs1]` (44_load_store.md R151). -/
def execLd (rd rs1 : Reg) (mod : BitVec 2) (imm16 : BitVec 16) (s : State) : Host.Outcome State Fault Refusal :=
  outcome do
    let disp ← immOperand (.ld rd rs1 mod imm16) mod imm16
    let base ← s.readReg rs1
    let v ← s.memRead (effectiveAddress base disp)
    return (s.writeReg rd v).advance

/-- `st rd, imm[rs1]` (44_load_store.md R152): the register named by `rd` is read, after `rs1`, and stored. -/
def execSt (rd rs1 : Reg) (mod : BitVec 2) (imm16 : BitVec 16) (s : State) : Host.Outcome State Fault Refusal :=
  outcome do
    let disp ← immOperand (.st rd rs1 mod imm16) mod imm16
    let base ← s.readReg rs1
    let v ← s.readReg rd
    let t ← s.memWrite (effectiveAddress base disp) v
    return t.advance

end Sys2Proof.Machine
end

