-- ==== Sys2Proof/Machine/Logical.lean ====
section
/-! DEFINITION. and, or, not (41_logical.md). -/

namespace Sys2Proof.Machine

/-- Bit by bit: 1 where both operands are 1 (41_logical.md R121). -/
def andOp (a b : Word) : Except Fault Word := .ok (a &&& b)

/-- Bit by bit: 1 where either operand is 1 (41_logical.md R122). -/
def orOp (a b : Word) : Except Fault Word := .ok (a ||| b)

/-- Every one of the 32 bits inverted (41_logical.md R123). -/
def notOp (b : Word) : Word := ~~~b

/-- `and rd, rs1, (rs2/imm)`, register form (41_logical.md R121). -/
def execAndReg (rd rs1 rs2 : Reg) (s : State) : Host.Outcome State Fault Refusal :=
  outcome (aluReg andOp rd rs1 rs2 s)

/-- `and rd, rs1, (rs2/imm)`, immediate form (41_logical.md R121). -/
def execAndImm (rd rs1 : Reg) (mod : BitVec 2) (imm16 : BitVec 16) (s : State) : Host.Outcome State Fault Refusal :=
  outcome (aluImm (.andImm rd rs1 mod imm16) andOp rd rs1 mod imm16 s)

/-- `or rd, rs1, (rs2/imm)`, register form (41_logical.md R122). -/
def execOrReg (rd rs1 rs2 : Reg) (s : State) : Host.Outcome State Fault Refusal :=
  outcome (aluReg orOp rd rs1 rs2 s)

/-- `or rd, rs1, (rs2/imm)`, immediate form (41_logical.md R122). -/
def execOrImm (rd rs1 : Reg) (mod : BitVec 2) (imm16 : BitVec 16) (s : State) : Host.Outcome State Fault Refusal :=
  outcome (aluImm (.orImm rd rs1 mod imm16) orOp rd rs1 mod imm16 s)

/-- `not rd, (rs2/imm)`, register form (41_logical.md R123); `rs1` is not read. -/
def execNotReg (rd rs2 : Reg) (s : State) : Host.Outcome State Fault Refusal :=
  outcome (unaryReg notOp rd rs2 s)

/-- `not rd, (rs2/imm)`, immediate form (41_logical.md R123); no register is read. -/
def execNotImm (rd : Reg) (mod : BitVec 2) (imm16 : BitVec 16) (s : State) : Host.Outcome State Fault Refusal :=
  outcome (unaryImm (.notImm rd mod imm16) notOp rd mod imm16 s)

end Sys2Proof.Machine
end

