-- ==== Sys2Proof/Machine/Move.lean ====
section
/-! DEFINITION. mov and nop (42_move_nop.md). -/

namespace Sys2Proof.Machine

/-- The operand itself (42_move_nop.md R130). -/
def movOp (b : Word) : Word := b

/-- `mov rd, (rs2/imm)`, register form (42_move_nop.md R130); `rs1` is not read. -/
def execMovReg (rd rs2 : Reg) (s : State) : Host.Outcome State Fault Refusal :=
  outcome (unaryReg movOp rd rs2 s)

/-- `mov rd, (rs2/imm)`, immediate form (42_move_nop.md R130); no register is read. -/
def execMovImm (rd : Reg) (mod : BitVec 2) (imm16 : BitVec 16) (s : State) : Host.Outcome State Fault Refusal :=
  outcome (unaryImm (.movImm rd mod imm16) movOp rd mod imm16 s)

/-- `nop`: only `pc <- pc + 4` (42_move_nop.md R132). -/
def execNop (s : State) : Host.Outcome State Fault Refusal := .next s.advance

end Sys2Proof.Machine
end

