-- ==== Sys2Proof/Machine/Shift.lean ====
section
/-! DEFINITION. lsl, lsr, asr (43_shift.md). `ror` is no instruction (R145). -/

namespace Sys2Proof.Machine

/-- Bits move up, zeros enter at bit 0 (43_shift.md R141); out of range, 0 (R144). -/
def lslOp (c : Config) (a b : Word) : Except Fault Word :=
  shifting c (fun v n => v <<< n) (fun _ => 0#32) a b

/-- Bits move down, zeros enter at bit 31 (43_shift.md R142); out of range, 0 (R144). -/
def lsrOp (c : Config) (a b : Word) : Except Fault Word :=
  shifting c (fun v n => v >>> n) (fun _ => 0#32) a b

/-- Bits move down, copies of bit 31 enter (43_shift.md R143); out of range, 32 copies of it (R144). -/
def asrOp (c : Config) (a b : Word) : Except Fault Word :=
  shifting c (fun v n => v.sshiftRight n) (fun v => if v.msb then 0xFFFFFFFF#32 else 0#32) a b

/-- `lsl rd, rs1, (rs2/imm)`, register form (43_shift.md R141). -/
def execLslReg (rd rs1 rs2 : Reg) (s : State) : Host.Outcome State Fault Refusal :=
  outcome (aluReg (lslOp s.config) rd rs1 rs2 s)

/-- `lsl rd, rs1, (rs2/imm)`, immediate form (43_shift.md R141). -/
def execLslImm (rd rs1 : Reg) (mod : BitVec 2) (imm16 : BitVec 16) (s : State) : Host.Outcome State Fault Refusal :=
  outcome (aluImm (.lslImm rd rs1 mod imm16) (lslOp s.config) rd rs1 mod imm16 s)

/-- `lsr rd, rs1, (rs2/imm)`, register form (43_shift.md R142). -/
def execLsrReg (rd rs1 rs2 : Reg) (s : State) : Host.Outcome State Fault Refusal :=
  outcome (aluReg (lsrOp s.config) rd rs1 rs2 s)

/-- `lsr rd, rs1, (rs2/imm)`, immediate form (43_shift.md R142). -/
def execLsrImm (rd rs1 : Reg) (mod : BitVec 2) (imm16 : BitVec 16) (s : State) : Host.Outcome State Fault Refusal :=
  outcome (aluImm (.lsrImm rd rs1 mod imm16) (lsrOp s.config) rd rs1 mod imm16 s)

/-- `asr rd, rs1, (rs2/imm)`, register form (43_shift.md R143). -/
def execAsrReg (rd rs1 rs2 : Reg) (s : State) : Host.Outcome State Fault Refusal :=
  outcome (aluReg (asrOp s.config) rd rs1 rs2 s)

/-- `asr rd, rs1, (rs2/imm)`, immediate form (43_shift.md R143). -/
def execAsrImm (rd rs1 : Reg) (mod : BitVec 2) (imm16 : BitVec 16) (s : State) : Host.Outcome State Fault Refusal :=
  outcome (aluImm (.asrImm rd rs1 mod imm16) (asrOp s.config) rd rs1 mod imm16 s)

end Sys2Proof.Machine
end

