-- ==== Sys2Proof/Machine/Dispatch.lean ====
section
/-! DEFINITION. The meaning of every instruction: one arm a constructor (70_reset_and_hazards.md R204). -/

namespace Sys2Proof.Machine

def exec (i : Instr) (s : State) : Host.Outcome State Fault Refusal :=
  match i with
  | .addReg rd rs1 rs2 => Sys2Proof.Machine.execAddReg rd rs1 rs2 s
  | .addImm rd rs1 mod imm16 => Sys2Proof.Machine.execAddImm rd rs1 mod imm16 s
  | .subReg rd rs1 rs2 => Sys2Proof.Machine.execSubReg rd rs1 rs2 s
  | .subImm rd rs1 mod imm16 => Sys2Proof.Machine.execSubImm rd rs1 mod imm16 s
  | .mulReg rd rs1 rs2 => Sys2Proof.Machine.execMulReg rd rs1 rs2 s
  | .mulImm rd rs1 mod imm16 => Sys2Proof.Machine.execMulImm rd rs1 mod imm16 s
  | .divReg rd rs1 rs2 => Sys2Proof.Machine.execDivReg rd rs1 rs2 s
  | .divImm rd rs1 mod imm16 => Sys2Proof.Machine.execDivImm rd rs1 mod imm16 s
  | .modReg rd rs1 rs2 => Sys2Proof.Machine.execModReg rd rs1 rs2 s
  | .modImm rd rs1 mod imm16 => Sys2Proof.Machine.execModImm rd rs1 mod imm16 s
  | .cmpReg rs1 rs2 => Sys2Proof.Machine.execCmpReg rs1 rs2 s
  | .cmpImm rs1 mod imm16 => Sys2Proof.Machine.execCmpImm rs1 mod imm16 s
  | .andReg rd rs1 rs2 => Sys2Proof.Machine.execAndReg rd rs1 rs2 s
  | .andImm rd rs1 mod imm16 => Sys2Proof.Machine.execAndImm rd rs1 mod imm16 s
  | .orReg rd rs1 rs2 => Sys2Proof.Machine.execOrReg rd rs1 rs2 s
  | .orImm rd rs1 mod imm16 => Sys2Proof.Machine.execOrImm rd rs1 mod imm16 s
  | .notReg rd rs2 => Sys2Proof.Machine.execNotReg rd rs2 s
  | .notImm rd mod imm16 => Sys2Proof.Machine.execNotImm rd mod imm16 s
  | .movReg rd rs2 => Sys2Proof.Machine.execMovReg rd rs2 s
  | .movImm rd mod imm16 => Sys2Proof.Machine.execMovImm rd mod imm16 s
  | .lslReg rd rs1 rs2 => Sys2Proof.Machine.execLslReg rd rs1 rs2 s
  | .lslImm rd rs1 mod imm16 => Sys2Proof.Machine.execLslImm rd rs1 mod imm16 s
  | .lsrReg rd rs1 rs2 => Sys2Proof.Machine.execLsrReg rd rs1 rs2 s
  | .lsrImm rd rs1 mod imm16 => Sys2Proof.Machine.execLsrImm rd rs1 mod imm16 s
  | .asrReg rd rs1 rs2 => Sys2Proof.Machine.execAsrReg rd rs1 rs2 s
  | .asrImm rd rs1 mod imm16 => Sys2Proof.Machine.execAsrImm rd rs1 mod imm16 s
  | .nop => Sys2Proof.Machine.execNop s
  | .ld rd rs1 mod imm16 => Sys2Proof.Machine.execLd rd rs1 mod imm16 s
  | .st rd rs1 mod imm16 => Sys2Proof.Machine.execSt rd rs1 mod imm16 s
  | .beq offset => Sys2Proof.Machine.execBeq offset s
  | .bgt offset => Sys2Proof.Machine.execBgt offset s
  | .b offset => Sys2Proof.Machine.execB offset s
  | .call offset => Sys2Proof.Machine.execCall offset s
  | .ret => Sys2Proof.Machine.execRet s

end Sys2Proof.Machine
end

