-- ==== Sys2Proof/Machine/Step.lean ====
section
/-! DEFINITION. One step of the machine (70_reset_and_hazards.md R204), and the word placed where it is fetched. -/

namespace Sys2Proof.Machine

/-- The step function, whole (70_reset_and_hazards.md R204), testing in the order of 60_exceptions.md R187:
the end of the run, then the fetch, then the decoding, then the instruction's own tests. -/
def step (s : State) : Host.Outcome State Fault Refusal :=
  if s.pc = s.endPc then .refused .endedNormally
  else
    match s.fetch with
    | .error f => .fault f
    | .ok inst =>
      match decode inst with
      | .error _ => .fault (.illegalInstruction inst)
      | .ok i => exec i s

/-- `s` with the word whose bits are `w` where the next step fetches its instruction: the host's load of a
program (entry 1). -/
def State.withFetchWord (s : State) (nbits w : Nat) : State := s.placeWord (tableWord nbits w)

end Sys2Proof.Machine
end

