-- ==== Sys2Proof/Machine/Assembler.lean ====
section
/-! DEFINITION. Assembly language (30_encoding.md section 5): the operand forms of R82, the modifier suffixes of R83
and the lexical rules, labels and immediates of R84, as an assembler from text to instruction words. Text is a list
of characters. Where the spec leaves the form of the text open, entry 17 says what is accepted. -/

namespace Sys2Proof.Machine

/-! ## Assembly instructions (30_encoding.md R82) -/

/-- The letter appended to a mnemonic (30_encoding.md R83). -/
inductive Suffix where
  | plain
  | u
  | h
  deriving DecidableEq, Repr

/-- The instructions of the form `op reg, reg, (reg/imm)`. -/
inductive Op3 where
  | add | sub | mul | div | mod | and | or | lsl | lsr | asr
  deriving DecidableEq, Repr

/-- The instructions of the form `op reg, (reg/imm)`. -/
inductive Op2 where
  | cmp | not | mov
  deriving DecidableEq, Repr

/-- The instructions of the form `op reg, imm[reg]`. -/
inductive OpMem where
  | ld | st
  deriving DecidableEq, Repr

/-- The instructions of the form `op label`. -/
inductive OpBranch where
  | b | beq | bgt | call
  deriving DecidableEq, Repr

/-- The operand `(reg/imm)`. -/
inductive RegImm where
  | reg (r : Reg)
  | imm (v : Int)
  deriving DecidableEq, Repr

/-- One line's instruction. -/
inductive Asm where
  | op3 (op : Op3) (sfx : Suffix) (a b : Reg) (c : RegImm)
  | op2 (op : Op2) (sfx : Suffix) (a : Reg) (c : RegImm)
  | mem (op : OpMem) (sfx : Suffix) (a : Reg) (disp : Int) (b : Reg)
  | branch (op : OpBranch) (label : List Char)
  | nop
  | ret
  deriving DecidableEq, Repr

/-- A label definition, or an instruction. -/
inductive Item where
  | label (name : List Char)
  | instr (i : Asm)
  deriving DecidableEq, Repr

/-- Why an assembler rejects a program. -/
inductive AsmError where
  /-- A character or a number that is none of 30_encoding.md R84. -/
  | lexical
  /-- A sequence of tokens that is no instruction of 30_encoding.md R82. -/
  | form
  /-- "A suffix on a register-form instruction is an assembly error" (30_encoding.md R83). -/
  | suffixOnRegister
  /-- An immediate outside the range of its modifier (30_encoding.md R84). -/
  | immediateRange
  /-- An operand label that is not defined, or is defined more than once (entry 17). -/
  | label
  /-- "does not fit in 27 signed bits" (30_encoding.md R84). -/
  | offsetRange
  deriving DecidableEq, Repr

/-! ## Assembling one instruction -/

/-- The modifier and the 16-bit value of an immediate (30_encoding.md R83, R84): "any integer from -32768 to
65535 ... encoded as its low 16 bits" by default, 0 to 65535 with `u` or `h`. -/
def asmImm (sfx : Suffix) (v : Int) : Except AsmError (BitVec 2 × BitVec 16) :=
  match sfx with
  | .plain => if -32768 ≤ v ∧ v ≤ 65535 then .ok (0b00#2, BitVec.ofInt 16 v) else .error .immediateRange
  | .u => if 0 ≤ v ∧ v ≤ 65535 then .ok (0b01#2, BitVec.ofInt 16 v) else .error .immediateRange
  | .h => if 0 ≤ v ∧ v ≤ 65535 then .ok (0b10#2, BitVec.ofInt 16 v) else .error .immediateRange

/-- A register operand takes no suffix (30_encoding.md R83). -/
def asmReg (sfx : Suffix) (i : Instr) : Except AsmError Instr :=
  if sfx = .plain then .ok i else .error .suffixOnRegister

/-- The two rows of a three-operand mnemonic. -/
def Op3.rows : Op3 → (Reg → Reg → Reg → Instr) × (Reg → Reg → BitVec 2 → BitVec 16 → Instr)
  | .add => (.addReg, .addImm)
  | .sub => (.subReg, .subImm)
  | .mul => (.mulReg, .mulImm)
  | .div => (.divReg, .divImm)
  | .mod => (.modReg, .modImm)
  | .and => (.andReg, .andImm)
  | .or => (.orReg, .orImm)
  | .lsl => (.lslReg, .lslImm)
  | .lsr => (.lsrReg, .lsrImm)
  | .asr => (.asrReg, .asrImm)

/-- The two rows of a two-operand mnemonic. -/
def Op2.rows : Op2 → (Reg → Reg → Instr) × (Reg → BitVec 2 → BitVec 16 → Instr)
  | .cmp => (.cmpReg, .cmpImm)
  | .not => (.notReg, .notImm)
  | .mov => (.movReg, .movImm)

/-- The row of a memory mnemonic. -/
def OpMem.row : OpMem → Reg → Reg → BitVec 2 → BitVec 16 → Instr
  | .ld => .ld
  | .st => .st

/-- The row of a branch mnemonic. -/
def OpBranch.row : OpBranch → BitVec 27 → Instr
  | .b => .b
  | .beq => .beq
  | .bgt => .bgt
  | .call => .call

/-- `offset = (address(label) - address(branch)) / 4`, rejected if it does not fit in 27 signed bits
(30_encoding.md R84). The addresses are `TEXT_BASE + 4*k`, so the quotient is the difference of the positions
`k` of the label and the branch in the text. -/
def asmOffset (target here : Nat) : Except AsmError (BitVec 27) :=
  let d : Int := (target : Int) - (here : Int)
  if -2 ^ 26 ≤ d ∧ d ≤ 2 ^ 26 - 1 then .ok (BitVec.ofInt 27 d) else .error .offsetRange

/-- The instruction of an assembly instruction at position `here`; `find` gives a label's position. -/
def asmInstr (find : List Char → Except AsmError Nat) (here : Nat) : Asm → Except AsmError Instr
  | .op3 op sfx a b (.reg c) => asmReg sfx (op.rows.1 a b c)
  | .op3 op sfx a b (.imm v) => do
    let (m, i) ← asmImm sfx v
    return op.rows.2 a b m i
  | .op2 op sfx a (.reg c) => asmReg sfx (op.rows.1 a c)
  | .op2 op sfx a (.imm v) => do
    let (m, i) ← asmImm sfx v
    return op.rows.2 a m i
  | .mem op sfx a v b => do
    let (m, i) ← asmImm sfx v
    return op.row a b m i
  | .branch op l => do
    let t ← find l
    let o ← asmOffset t here
    return op.row o
  | .nop => .ok .nop
  | .ret => .ok .ret

/-! ## Labels (30_encoding.md R84) -/

/-- The positions of the labels: a label "stands for that instruction's address", the one that follows it; after
the last instruction it stands for the address past the text. -/
def labelTable : Nat → List Item → List (List Char × Nat)
  | _, [] => []
  | k, .label n :: rest => (n, k) :: labelTable k rest
  | k, .instr _ :: rest => labelTable (k + 1) rest

/-- How many instructions a part of a program has. -/
def instrCount : List Item → Nat
  | [] => 0
  | .label _ :: rest => instrCount rest
  | .instr _ :: rest => instrCount rest + 1

/-- The position of a label that an operand names: it must be defined exactly once (30_encoding.md R84 is silent on
a label defined again; DESIGN CHOICE, entry 17). -/
def findLabel (table : List (List Char × Nat)) (n : List Char) : Except AsmError Nat :=
  match table.filter (fun p => p.1 == n) with
  | [p] => .ok p.2
  | _ => .error .label

/-- The instructions of a program, from position `here` on. Only operand labels are looked up, so a label defined
more than once that no operand names does no harm (DESIGN CHOICE, entry 17). -/
def asmItems (find : List Char → Except AsmError Nat) : Nat → List Item → Except AsmError (List Instr)
  | _, [] => .ok []
  | here, .label _ :: rest => asmItems find here rest
  | here, .instr a :: rest => do
    let i ← asmInstr find here a
    let is ← asmItems find (here + 1) rest
    return i :: is

/-- The instruction words of a program. -/
def assemble (p : List Item) : Except AsmError (List Word) := do
  let is ← asmItems (findLabel (labelTable 0 p)) 0 p
  return is.map encode

/-! ## Tokens (30_encoding.md R84) -/

/-- The tokens of a line. -/
inductive Token where
  | name (s : List Char)
  | label (s : List Char)
  | number (v : Int)
  | comma
  | colon
  | lbracket
  | rbracket
  deriving DecidableEq, Repr

/-- The value of a decimal digit. -/
def decDigit (c : Char) : Option Nat := if '0' ≤ c ∧ c ≤ '9' then some (c.toNat - 48) else none

/-- The value of a hexadecimal digit, in either case. -/
def hexDigit (c : Char) : Option Nat :=
  if '0' ≤ c ∧ c ≤ '9' then some (c.toNat - 48)
  else if 'a' ≤ c ∧ c ≤ 'f' then some (c.toNat - 87)
  else if 'A' ≤ c ∧ c ≤ 'F' then some (c.toNat - 55)
  else none

/-- The value of a string of digits, most significant first. -/
def digits (base : Nat) (digit : Char → Option Nat) : Nat → List Char → Option Nat
  | acc, [] => some acc
  | acc, c :: rest =>
    match digit c with
    | some d => digits base digit (acc * base + d) rest
    | none => none

/-- "in decimal (`10`, `3`, `12`, `16`) or in hexadecimal with `0x`". -/
def natural : List Char → Option Nat
  | [] => none
  | '0' :: 'x' :: c :: rest => digits 16 hexDigit 0 (c :: rest)
  | c :: rest => digits 10 decDigit 0 (c :: rest)

/-- A word of the text: a label (leading dot), a number (leading digit or minus sign), or a name. -/
def wordToken : List Char → Option Token
  | [] => none
  | '.' :: c :: rest => some (.label (c :: rest))
  | '-' :: rest => (natural rest).map (fun n => .number (-(n : Int)))
  | c :: rest =>
    if (decDigit c).isSome then (natural (c :: rest)).map (fun n => .number (n : Int))
    else some (.name (c :: rest))

/-- A character of a word: a letter, a digit, a dot, a minus sign or an underscore. -/
def isWordChar (c : Char) : Bool :=
  ('a' ≤ c && c ≤ 'z') || ('A' ≤ c && c ≤ 'Z') || ('0' ≤ c && c ≤ '9') || c == '.' || c == '-' || c == '_'

/-- A punctuation character's token. -/
def punctuation (c : Char) : Option Token :=
  if c = ',' then some .comma
  else if c = ':' then some .colon
  else if c = '[' then some .lbracket
  else if c = ']' then some .rbracket
  else none

/-- White space; a new line is no more than that (entry 17). -/
def isBlank (c : Char) : Bool := c == ' ' || c == '\n' || c == '\t' || c == '\r'

/-- The token of the word collected so far (in reverse), before the tokens `ts`. -/
def flushWord (acc : List Char) (ts : List Token) : Option (List Token) :=
  match acc with
  | [] => some ts
  | c :: rest => (wordToken (c :: rest).reverse).map (fun t => t :: ts)

/-- The tokens of a text, its comments dropped. `acc` is the word being read, in reverse; `comment` holds
inside a comment, which must end. -/
def tokens : List Char → List Char → Bool → Option (List Token)
  | [], acc, comment => if comment then none else flushWord acc []
  | '*' :: '/' :: rest, _, true => tokens rest [] false
  | _ :: rest, _, true => tokens rest [] true
  | '/' :: '*' :: rest, acc, false => (tokens rest [] true).bind (flushWord acc)
  | c :: rest, acc, false =>
    if isWordChar c then tokens rest (c :: acc) false
    else if isBlank c then (tokens rest [] false).bind (flushWord acc)
    else
      match punctuation c with
      | some t => ((tokens rest [] false).map (fun ts => t :: ts)).bind (flushWord acc)
      | none => none

/-! ## Names -/

/-- Register names: `r0` to `r15`, and `sp` and `ra` (00_scope.md R9). -/
def regName (s : List Char) : Option Reg :=
  match s with
  | ['s', 'p'] => some Reg.sp
  | ['r', 'a'] => some Reg.ra
  | ['r', c] => (decDigit c).map (fun d => Fin.ofNat 16 d)
  | ['r', '1', c] => (decDigit c).bind (fun d => if d ≤ 5 then some (Fin.ofNat 16 (10 + d)) else none)
  | _ => none

/-- What a mnemonic stands for. -/
inductive Mnemonic where
  | op3 (op : Op3)
  | op2 (op : Op2)
  | mem (op : OpMem)
  | branch (op : OpBranch)
  | nop
  | ret
  deriving DecidableEq, Repr

/-- The 21 mnemonics (30_encoding.md R64, R82). -/
def mnemonics : List (List Char × Mnemonic) :=
  [(['a', 'd', 'd'], .op3 .add), (['s', 'u', 'b'], .op3 .sub), (['m', 'u', 'l'], .op3 .mul),
   (['d', 'i', 'v'], .op3 .div), (['m', 'o', 'd'], .op3 .mod), (['c', 'm', 'p'], .op2 .cmp),
   (['a', 'n', 'd'], .op3 .and), (['o', 'r'], .op3 .or), (['n', 'o', 't'], .op2 .not), (['m', 'o', 'v'], .op2 .mov),
   (['l', 's', 'l'], .op3 .lsl), (['l', 's', 'r'], .op3 .lsr), (['a', 's', 'r'], .op3 .asr), (['n', 'o', 'p'], .nop),
   (['l', 'd'], .mem .ld), (['s', 't'], .mem .st), (['b', 'e', 'q'], .branch .beq), (['b', 'g', 't'], .branch .bgt),
   (['b'], .branch .b), (['c', 'a', 'l', 'l'], .branch .call), (['r', 'e', 't'], .ret)]

/-- A mnemonic without a suffix. -/
def plainMnemonic (s : List Char) : Option Mnemonic := (mnemonics.find? (fun p => p.1 == s)).map Prod.snd

/-- The mnemonics that have an immediate form, and so take a suffix (30_encoding.md R83). -/
def Mnemonic.takesSuffix : Mnemonic → Bool
  | .op3 _ | .op2 _ | .mem _ => true
  | .branch _ | .nop | .ret => false

/-- A mnemonic with its suffix: none, `u` or `h` (30_encoding.md R83). -/
def mnemonic (s : List Char) : Option (Mnemonic × Suffix) :=
  match plainMnemonic s with
  | some m => some (m, .plain)
  | none =>
    match (plainMnemonic s.dropLast).filter Mnemonic.takesSuffix, s.getLast? with
    | some m, some 'u' => some (m, .u)
    | some m, some 'h' => some (m, .h)
    | _, _ => none

/-! ## Lines -/

/-- The operand `(reg/imm)`. -/
def regImm : Token → Option RegImm
  | .name s => (regName s).map .reg
  | .number v => some (.imm v)
  | .label _ | .comma | .colon | .lbracket | .rbracket => none

/-- An instruction from its mnemonic and the tokens after it; the tokens after the instruction are handed back
(30_encoding.md R82). -/
def parseInstr (m : Mnemonic) (sfx : Suffix) (ts : List Token) : Option (Asm × List Token) :=
  match m with
  | .op3 op =>
    match ts with
    | .name a :: .comma :: .name b :: .comma :: c :: rest => do
      return (.op3 op sfx (← regName a) (← regName b) (← regImm c), rest)
    | _ => none
  | .op2 op =>
    match ts with
    | .name a :: .comma :: c :: rest => do return (.op2 op sfx (← regName a) (← regImm c), rest)
    | _ => none
  | .mem op =>
    match ts with
    | .name a :: .comma :: .number v :: .lbracket :: .name b :: .rbracket :: rest => do
      return (.mem op sfx (← regName a) v (← regName b), rest)
    | _ => none
  | .branch op =>
    match ts with
    | .label l :: rest => some (.branch op l, rest)
    | _ => none
  | .nop => some (.nop, ts)
  | .ret => some (.ret, ts)

/-- One item from the tokens of a program. -/
def parseItem : List Token → Option (Item × List Token)
  | .label l :: .colon :: rest => some (.label l, rest)
  | .name s :: rest => do
    let (m, sfx) ← mnemonic s
    let (i, rest') ← parseInstr m sfx rest
    return (.instr i, rest')
  | _ => none

/-- The items of a program. Each takes a token at least, so `fuel` tokens at most are left. -/
def parseItems : Nat → List Token → Option (List Item)
  | _, [] => some []
  | 0, _ :: _ => none
  | fuel + 1, t :: ts => do
    let (i, rest) ← parseItem (t :: ts)
    let is ← parseItems fuel rest
    return i :: is

/-- The assembler: the instruction words of a program text (30_encoding.md R82 to R84). -/
def assembleText (text : List Char) : Except AsmError (List Word) :=
  match tokens text [] false with
  | none => .error .lexical
  | some ts =>
    match parseItems ts.length ts with
    | none => .error .form
    | some p => assemble p

end Sys2Proof.Machine
end

