-- ==== Sys2Proof/Machine/Launch.lean ====
section
/-! DEFINITION. The launch, in place of a reset (70_reset_and_hazards.md R200 to R202): the parameters that the
host supplies, when they are well formed, and the state they start; and what the host reads after a run. -/

namespace Sys2Proof.Machine

/-- The launch parameters of 00_scope.md R5, and the configuration. -/
structure Launch where
  /-- `TEXT_BASE` -/
  textBase : Word
  /-- `TEXT` -/
  text : List Word
  /-- `domain(DATA)` -/
  dataMap : List Region
  /-- The admitted words that have an initial value; the others are unwritten (20_memory.md R42). -/
  contents : List (Word × Word) := []
  /-- `LAUNCH_REGS` -/
  regs : List (Reg × Word) := []
  /-- `ENTRY_PC`, default `TEXT_BASE` -/
  entryPc : Word := textBase
  /-- `END_PC`, default `TEXT_BASE + 4*N`. Where that sum is 2^32 the spec has no default: `END_PC` "must be chosen
  elsewhere" (70_reset_and_hazards.md R202). DESIGN CHOICE: the sum then wraps to 0. Entry 18. -/
  endPc : Word := textBase + BitVec.ofNat 32 (4 * text.length)
  /-- The model's own: a value for the flags. A launch of the spec has none (10_state.md R32). Entry 5. -/
  flags : Option Flags := none
  config : Config := {}
  deriving DecidableEq, Repr

/-- `LAUNCH_REGS` applied to a state whose registers are unwritten (10_state.md R30). -/
def launchRegs (rs : List (Reg × Word)) (s : State) : State := rs.foldl (fun t p => t.writeReg p.1 p.2) s

/-- The initial contents of the data words (20_memory.md R42). -/
def launchData (ws : List (Word × Word)) : Memory := ws.foldl (fun m p => m.writeWord p.1.toNat p.2) { cells := [] }

/-- The state at launch (70_reset_and_hazards.md R201): `pc = ENTRY_PC`; the registers of `LAUNCH_REGS` written,
the others not; the flags unwritten; the data words as `DATA` gives them. -/
def Launch.start (l : Launch) : State :=
  launchRegs l.regs
    { regs := Vector.replicate 16 0#32
      regsWritten := Vector.replicate 16 false
      pc := l.entryPc
      flags := l.flags.getD { e := false, gt := false }
      flagsWritten := l.flags.isSome
      mem := launchData l.contents
      dataMap := l.dataMap
      textBase := l.textBase
      text := l.text
      endPc := l.endPc
      config := l.config }

/-- The region is aligned, lies in the address space, and does not meet the text (70_reset_and_hazards.md R202). -/
def Launch.regionOk (l : Launch) (r : Region) : Bool :=
  decide (r.base % 4 = 0) && decide (r.base + 4 * r.words ≤ 2 ^ 32) &&
    (decide (r.base + 4 * r.words ≤ l.textBase.toNat) ||
      decide (l.textBase.toNat + 4 * l.text.length ≤ r.base))

/-- `a` lies in the text range of the launch (20_memory.md R41). -/
def Launch.inText (l : Launch) (a : Word) : Bool :=
  decide (l.textBase.toNat ≤ a.toNat) && decide (a.toNat < l.textBase.toNat + 4 * l.text.length)

/-- When a launch is well formed (70_reset_and_hazards.md R202). `DATA` and `LAUNCH_REGS` are maps, so no
address and no register is listed twice, and initial contents stand at admitted words only. An `END_PC` of 0 that is
the default wrapped at 2^32 is judged like one that was chosen: it must lie outside the text (DESIGN CHOICE,
entry 18). -/
def Launch.wellFormed (l : Launch) : Bool :=
  decide (l.textBase.toNat % 4 = 0) && decide (1 ≤ l.text.length) &&
    decide (l.textBase.toNat + 4 * l.text.length ≤ 2 ^ 32) &&
    decide (l.entryPc.toNat % 4 = 0) && l.inText l.entryPc &&
    decide (l.endPc.toNat % 4 = 0) && !l.inText l.endPc &&
    l.dataMap.all l.regionOk &&
    l.contents.all (fun p => l.dataMap.any (fun r => inRegion r p.1.toNat)) &&
    decide (l.contents.map Prod.fst).Nodup && decide (l.regs.map Prod.fst).Nodup

/-- Start a run: a launch that is not well formed is refused (93_implementation_defined.md U14). -/
def Launch.boot (l : Launch) : Host.Outcome State Fault Refusal :=
  if l.wellFormed then .next l.start else .refused .illFormedLaunch

/-- The recommended registers: `sp = STACK_TOP` and `ra = END_PC` (70_reset_and_hazards.md R201). -/
def Launch.recommended (l : Launch) (stackTop : Word) : Launch :=
  { l with regs := [(Reg.sp, stackTop), (Reg.ra, l.endPc)] }

/-! ## The host's view (20_memory.md R45, R56) -/

/-- What the host may read after a run that ended normally: each register and the flags, where written, and
the written data bytes (20_memory.md R56). -/
structure Result where
  regs : List (Option Word)
  flags : Option Flags
  data : List Host.Cell
  deriving DecidableEq, Repr

/-- The observable result; there is none before the run has ended normally (20_memory.md R56). -/
def State.result (s : State) : Option Result :=
  if s.pc = s.endPc then
    some { regs := List.zipWith (fun v w => if w then some v else none) s.regs.toList s.regsWritten.toList
           flags := if s.flagsWritten then some s.flags else none
           data := s.mem.cells }
  else none

/-- The text as bytes at addresses rising from `base`, in the byte order of 20_memory.md R45. -/
def textImage (base : Nat) : List Word → List Host.Cell
  | [] => []
  | w :: rest =>
    (base, w.extractLsb' 0 8) :: (base + 1, w.extractLsb' 8 8) :: (base + 2, w.extractLsb' 16 8) ::
      (base + 3, w.extractLsb' 24 8) :: textImage (base + 4) rest

end Sys2Proof.Machine
end

