-- ==== Sys2Proof/Machine/Signals.lean ====
section
/-! DEFINITION. The control signals of the decode stage (30_encoding.md section 6) and `isBranchTaken`
(45_branch.md R164): Boolean functions of the instruction word and the flags, and the step that they select. -/

namespace Sys2Proof.Machine

/-! ## The opcode bits (30_encoding.md R62) -/

/-- `op5 = inst[31]`. -/
def op5 (inst : Word) : Bool := inst.getLsbD 31
/-- `op4 = inst[30]`. -/
def op4 (inst : Word) : Bool := inst.getLsbD 30
/-- `op3 = inst[29]`. -/
def op3 (inst : Word) : Bool := inst.getLsbD 29
/-- `op2 = inst[28]`. -/
def op2 (inst : Word) : Bool := inst.getLsbD 28
/-- `op1 = inst[27]`. -/
def op1 (inst : Word) : Bool := inst.getLsbD 27

/-! ## Signals 1 to 9 (30_encoding.md R85 to R89) -/

/-- `op5.~op4.~op3.~op2.~op1` (30_encoding.md R85). -/
def isBeq (w : Word) : Bool := op5 w && !op4 w && !op3 w && !op2 w && !op1 w
/-- `op5.~op4.~op3.~op2.op1` (30_encoding.md R85). -/
def isBgt (w : Word) : Bool := op5 w && !op4 w && !op3 w && !op2 w && op1 w
/-- `op5.~op4.op3.~op2.~op1` (30_encoding.md R85). -/
def isRet (w : Word) : Bool := op5 w && !op4 w && op3 w && !op2 w && !op1 w
/-- `op5.~op4.~op3.op2.op1` (30_encoding.md R85). -/
def isCall (w : Word) : Bool := op5 w && !op4 w && !op3 w && op2 w && op1 w
/-- The `I` bit (30_encoding.md R86). -/
def isImmediate (w : Word) : Bool := immBit w
/-- `~(op5 + ~op5.op3.op1.(op4 + ~op2)) + op5.~op4.~op3.op2.op1` (30_encoding.md R87). -/
def isWb (w : Word) : Bool :=
  !(op5 w || (!op5 w && op3 w && op1 w && (op4 w || !op2 w))) || (op5 w && !op4 w && !op3 w && op2 w && op1 w)
/-- `op5.~op4.(~op3.op2 + op3.~op2.~op1)` (30_encoding.md R88). -/
def isUbranch (w : Word) : Bool := op5 w && !op4 w && ((!op3 w && op2 w) || (op3 w && !op2 w && !op1 w))
/-- `~op5.op4.op3.op2.op1` (30_encoding.md R89). -/
def isSt (w : Word) : Bool := !op5 w && op4 w && op3 w && op2 w && op1 w
/-- `~op5.op4.op3.op2.~op1` (30_encoding.md R89). -/
def isLd (w : Word) : Bool := !op5 w && op4 w && op3 w && op2 w && !op1 w

/-! ## Signals 10 to 22, the ALU signals (30_encoding.md R90) -/

/-- `~op5.~op4.~op3.~op2.~op1 + ~op5.op4.op3.op2`. -/
def isAdd (w : Word) : Bool :=
  (!op5 w && !op4 w && !op3 w && !op2 w && !op1 w) || (!op5 w && op4 w && op3 w && op2 w)
/-- `~op5.~op4.~op3.~op2.op1`. -/
def isSub (w : Word) : Bool := !op5 w && !op4 w && !op3 w && !op2 w && op1 w
/-- `~op5.~op4.op3.~op2.op1`. -/
def isCmp (w : Word) : Bool := !op5 w && !op4 w && op3 w && !op2 w && op1 w
/-- `~op5.~op4.~op3.op2.~op1`. -/
def isMul (w : Word) : Bool := !op5 w && !op4 w && !op3 w && op2 w && !op1 w
/-- `~op5.~op4.~op3.op2.op1`. -/
def isDiv (w : Word) : Bool := !op5 w && !op4 w && !op3 w && op2 w && op1 w
/-- `~op5.~op4.op3.~op2.~op1`. -/
def isMod (w : Word) : Bool := !op5 w && !op4 w && op3 w && !op2 w && !op1 w
/-- `~op5.op4.~op3.op2.~op1`. -/
def isLsl (w : Word) : Bool := !op5 w && op4 w && !op3 w && op2 w && !op1 w
/-- `~op5.op4.~op3.op2.op1`. -/
def isLsr (w : Word) : Bool := !op5 w && op4 w && !op3 w && op2 w && op1 w
/-- `~op5.op4.op3.~op2.~op1`. -/
def isAsr (w : Word) : Bool := !op5 w && op4 w && op3 w && !op2 w && !op1 w
/-- `~op5.~op4.op3.op2.op1`. -/
def isOr (w : Word) : Bool := !op5 w && !op4 w && op3 w && op2 w && op1 w
/-- `~op5.~op4.op3.op2.~op1`. -/
def isAnd (w : Word) : Bool := !op5 w && !op4 w && op3 w && op2 w && !op1 w
/-- `~op5.op4.~op3.~op2.~op1`. -/
def isNot (w : Word) : Bool := !op5 w && op4 w && !op3 w && !op2 w && !op1 w
/-- `~op5.op4.~op3.~op2.op1`. -/
def isMov (w : Word) : Bool := !op5 w && op4 w && !op3 w && !op2 w && op1 w

/-- The thirteen ALU signals in the order of their serial numbers 10 to 22 (30_encoding.md R90). -/
def aluSignals (w : Word) : List Bool :=
  [isAdd w, isSub w, isCmp w, isMul w, isDiv w, isMod w, isLsl w, isLsr w, isAsr w, isOr w, isAnd w, isNot w,
    isMov w]

/-! ## The branch unit (45_branch.md R164) -/

/-- `isBranchTaken = isUbranch + isBeq.flags.E + isBgt.flags.GT` (45_branch.md R164). -/
def isBranchTaken (w : Word) (f : Flags) : Bool := isUbranch w || (isBeq w && f.e) || (isBgt w && f.gt)

/-- `branchPC`: `x[15]` for `ret` (`isRet` makes that choice), the target for the others (45_branch.md R164). -/
def branchPc (w : Word) (pc ra : Word) : Word := if isRet w then ra else branchTarget pc (offsetField w)

/-! ## The step that the signals select

The instruction rules and the control signals are two statements of which opcode does what (30_encoding.md
section 6). This is the second one as a step: the ALU signals choose the function of `A` and `B` (R91), `I`
chooses `B` (R70, R86), `isLd` and `isSt` the memory access, `isWb` and `isCall` the register write (R87),
`isBranchTaken` and `isRet` the next `pc` (R164). No rule gives the processor's structure (00_scope.md R4):
this puts those rules together and says nothing of a data path (entry 15). -/

/-- The ALU's result on `A` and `B` (30_encoding.md R91); `isCmp` and the opcodes without an ALU signal have
none, and 0 stands for it where nothing reads it. -/
def aluResult (c : Config) (w : Word) (a b : Word) : Except Fault Word :=
  if isAdd w then addOp a b
  else if isSub w then subOp a b
  else if isMul w then mulOp a b
  else if isDiv w then divOp c a b
  else if isMod w then modOp c a b
  else if isLsl w then lslOp c a b
  else if isLsr w then lsrOp c a b
  else if isAsr w then asrOp c a b
  else if isOr w then orOp a b
  else if isAnd w then andOp a b
  else if isNot w then .ok (notOp b)
  else if isMov w then .ok (movOp b)
  else .ok 0#32

/-- Some ALU signal is 1. -/
def usesAlu (w : Word) : Bool := (aluSignals w).any id

/-- `A = x[rs1]` is an operand: every ALU function but those of `B` alone (30_encoding.md R91). -/
def usesA (w : Word) : Bool := usesAlu w && !isNot w && !isMov w

/-- The immediate of the word, or `IllegalInstruction` (30_encoding.md R68, R78). -/
def wordImmediate (w : Word) : Except Fault Word :=
  match immx (modField w) (imm16Field w) with
  | some v => .ok v
  | none => raise (.illegalInstruction w)

/-- Do `r` where a signal asks for it; nothing is read otherwise, and 0 stands for the value nothing reads. -/
def onSignal (signal : Bool) (r : Except Fault Word) : Except Fault Word := if signal then r else .ok 0#32

/-- One instruction, driven by the control signals of its word alone. -/
def signalExec (w : Word) (s : State) : Except Fault State := do
  let imm ← onSignal (usesAlu w && isImmediate w) (wordImmediate w)
  let a ← onSignal (usesA w) (s.readReg (rs1Field w))
  let x ← onSignal (usesAlu w && !isImmediate w) (s.readReg (rs2Field w))
  let b := if isImmediate w then imm else x
  let stored ← onSignal (isSt w) (s.readReg (rdField w))
  let ra ← onSignal (isRet w) (s.readReg Reg.ra)
  let f ← if isBeq w || isBgt w then s.readFlags else .ok s.flags
  let r ← aluResult s.config w a b
  let loaded ← onSignal (isLd w) (s.memRead r)
  let t ← if isSt w then s.memWrite r stored else .ok s
  let t := if isWb w then
      t.writeReg (if isCall w then Reg.ra else rdField w)
        (if isCall w then s.pc + 4#32 else if isLd w then loaded else r)
    else t
  let t := if isCmp w then t.writeFlags (compareFlags a b) else t
  return t.setPc (if isBranchTaken w f then branchPc w s.pc ra else s.pc + 4#32)

end Sys2Proof.Machine
end

