-- ==== Sys2Proof/Safety.lean ====
section
/-! DEFINITION. What counts as a run and how it ends (60_exceptions.md R181; 70_reset_and_hazards.md R203, R208),
what an instruction reads and writes (10_state.md R25), and the invariant of the machine's states. -/

namespace Sys2Proof

/-! ## What an instruction reads and writes (10_state.md R25) -/

/-- The general registers an instruction reads. -/
def Instr.sources : Instr → List Reg
  | .addReg _ x y | .subReg _ x y | .mulReg _ x y | .divReg _ x y | .modReg _ x y | .andReg _ x y
  | .orReg _ x y | .lslReg _ x y | .lsrReg _ x y | .asrReg _ x y | .cmpReg x y => [x, y]
  | .addImm _ x _ _ | .subImm _ x _ _ | .mulImm _ x _ _ | .divImm _ x _ _ | .modImm _ x _ _ | .andImm _ x _ _
  | .orImm _ x _ _ | .lslImm _ x _ _ | .lsrImm _ x _ _ | .asrImm _ x _ _ | .cmpImm x _ _ => [x]
  | .notReg _ y | .movReg _ y => [y]
  | .notImm .. | .movImm .. => []
  | .ld _ x _ _ => [x]
  | .st d x _ _ => [x, d]
  | .nop | .b .. | .beq .. | .bgt .. | .call .. => []
  | .ret => [Reg.ra]

/-- The general register an instruction writes. -/
def Instr.dest : Instr → Option Reg
  | .addReg d _ _ | .subReg d _ _ | .mulReg d _ _ | .divReg d _ _ | .modReg d _ _ | .andReg d _ _
  | .orReg d _ _ | .lslReg d _ _ | .lsrReg d _ _ | .asrReg d _ _ => some d
  | .addImm d _ _ _ | .subImm d _ _ _ | .mulImm d _ _ _ | .divImm d _ _ _ | .modImm d _ _ _ | .andImm d _ _ _
  | .orImm d _ _ _ | .lslImm d _ _ _ | .lsrImm d _ _ _ | .asrImm d _ _ _ | .ld d _ _ _ => some d
  | .notReg d _ | .movReg d _ | .notImm d _ _ | .movImm d _ _ => some d
  | .cmpReg .. | .cmpImm .. | .nop | .st .. | .beq .. | .bgt .. | .b .. | .ret => none
  | .call .. => some Reg.ra

/-- `cmp`, the one instruction that writes the flags (10_state.md R27). -/
def Instr.writesFlags : Instr → Bool
  | .cmpReg .. | .cmpImm .. => true
  | .addReg .. | .addImm .. | .subReg .. | .subImm .. | .mulReg .. | .mulImm .. | .divReg .. | .divImm ..
  | .modReg .. | .modImm .. | .andReg .. | .andImm .. | .orReg .. | .orImm .. | .notReg .. | .notImm ..
  | .movReg .. | .movImm .. | .lslReg .. | .lslImm .. | .lsrReg .. | .lsrImm .. | .asrReg .. | .asrImm ..
  | .nop | .ld .. | .st .. | .beq .. | .bgt .. | .b .. | .call .. | .ret => false

/-- `beq` and `bgt`, the instructions that read the flags (10_state.md R28). -/
def Instr.readsFlags : Instr → Bool
  | .beq .. | .bgt .. => true
  | .addReg .. | .addImm .. | .subReg .. | .subImm .. | .mulReg .. | .mulImm .. | .divReg .. | .divImm ..
  | .modReg .. | .modImm .. | .andReg .. | .andImm .. | .orReg .. | .orImm .. | .notReg .. | .notImm ..
  | .movReg .. | .movImm .. | .lslReg .. | .lslImm .. | .lsrReg .. | .lsrImm .. | .asrReg .. | .asrImm ..
  | .nop | .ld .. | .st .. | .cmpReg .. | .cmpImm .. | .b .. | .call .. | .ret => false

/-- The control transfers: the instructions that can end with `pc` other than `pc + 4` (45_branch.md R165). -/
def Instr.isTransfer : Instr → Bool
  | .b .. | .beq .. | .bgt .. | .call .. | .ret => true
  | .addReg .. | .addImm .. | .subReg .. | .subImm .. | .mulReg .. | .mulImm .. | .divReg .. | .divImm ..
  | .modReg .. | .modImm .. | .andReg .. | .andImm .. | .orReg .. | .orImm .. | .notReg .. | .notImm ..
  | .movReg .. | .movImm .. | .lslReg .. | .lslImm .. | .lsrReg .. | .lsrImm .. | .asrReg .. | .asrImm ..
  | .nop | .ld .. | .st .. | .cmpReg .. | .cmpImm .. => false

/-- The address that `st` stores to, where the instruction is `st` and its operands are readable: the effective
address of its meaning (44_load_store.md R152). -/
def Instr.storeAddress (i : Instr) (s : Machine.State) : Option Word :=
  match i with
  | .st _ rs1 m v =>
    match Machine.immx m v, s.readReg rs1 with
    | some disp, .ok base => some (Machine.effectiveAddress base disp)
    | _, _ => none
  | .addReg .. | .addImm .. | .subReg .. | .subImm .. | .mulReg .. | .mulImm .. | .divReg .. | .divImm ..
  | .modReg .. | .modImm .. | .andReg .. | .andImm .. | .orReg .. | .orImm .. | .notReg .. | .notImm ..
  | .movReg .. | .movImm .. | .lslReg .. | .lslImm .. | .lsrReg .. | .lsrImm .. | .asrReg .. | .asrImm ..
  | .nop | .ld ..
  | .cmpReg .. | .cmpImm .. | .beq .. | .bgt .. | .b .. | .call .. | .ret => none

end Sys2Proof

namespace Sys2Proof.Machine

/-! ## Runs -/

/-- `n` steps from `s`, stopping at the first step with no next state. -/
def runFor (n : Nat) (s : State) : Host.Outcome State Fault Refusal := Host.Core.run Sys2Proof.core n s

/-- The run from `s` reaches `END_PC`, and `t` is its final state (70_reset_and_hazards.md R203). -/
def EndsNormally (s t : State) : Prop := ∃ n, runFor n s = .next t ∧ t.pc = t.endPc

/-- The run from `s` ends in the model fault `f` (60_exceptions.md R181). -/
def EndsInFault (s : State) (f : Fault) : Prop := ∃ n, runFor n s = .fault f

/-- The run from `s` never ends (70_reset_and_hazards.md R208). -/
def Hangs (s : State) : Prop := ∀ n, ∃ t, runFor n s = .next t

/-! ## What stays the same -/

/-- The general register `r` reads the same in both states, value and written mark. -/
def sameReg (s t : State) (r : Reg) : Prop := t.regs[r] = s.regs[r] ∧ t.regsWritten[r] = s.regsWritten[r]

/-- The flags and their written mark are the same in both states. -/
def sameFlags (s t : State) : Prop := t.flags = s.flags ∧ t.flagsWritten = s.flagsWritten

/-- The parameters of the run are the same in both states (entry 2). -/
def sameRun (s t : State) : Prop :=
  t.dataMap = s.dataMap ∧ t.textBase = s.textBase ∧ t.text = s.text ∧ t.endPc = s.endPc ∧ t.config = s.config

/-- `s` with another value and written mark in register `r`. -/
def State.putReg (s : State) (r : Reg) (v : Word) (written : Bool) : State :=
  { s with regs := s.regs.set r v, regsWritten := s.regsWritten.set r written }

/-- `s` with other flags and another written mark for them. -/
def State.putFlags (s : State) (f : Flags) (written : Bool) : State :=
  { s with flags := f, flagsWritten := written }

/-- The outcome with its next state, if there is one, changed by `g`. -/
def mapNext (g : State → State) (o : Host.Outcome State Fault Refusal) : Host.Outcome State Fault Refusal :=
  match o with
  | .next t => .next (g t)
  | .fault f => .fault f
  | .refused q => .refused q

/-! ## What the rules of the ALU instructions have in common

The parts of a rule such as 40_arithmetic.md R101: its two encodings (`junk` is the 14 ignored bits of the register
form), its effect in both forms, its faults in the order of 60_exceptions.md R187. As an effect gives the whole next
state, it says also that nothing else changes. -/

/-- An instruction `op rd, rs1, (rs2/imm)` with the code `code` that computes `f` and has no fault of its own. -/
structure ThreeOperandRule (code : BitVec 5) (mkReg : Reg → Reg → Reg → Instr)
    (mkImm : Reg → Reg → BitVec 2 → BitVec 16 → Instr) (f : Word → Word → Word) : Prop where
  regEncoding : ∀ rd rs1 rs2 (junk : BitVec 14),
    decode (regWord code rd rs1 rs2 ||| junk.setWidth 32) = .ok (mkReg rd rs1 rs2)
  immEncoding : ∀ rd rs1 m v, m ≠ 3#2 → decode (immWord code rd rs1 m v) = .ok (mkImm rd rs1 m v)
  regEffect : ∀ rd rs1 rs2 (s : State) a b, s.readReg rs1 = .ok a → s.readReg rs2 = .ok b →
    exec (mkReg rd rs1 rs2) s = .next (s.writeReg rd (f a b)).advance
  immEffect : ∀ rd rs1 m v (s : State) a b, s.readReg rs1 = .ok a → immx m v = some b →
    exec (mkImm rd rs1 m v) s = .next (s.writeReg rd (f a b)).advance
  regFaultFirst : ∀ rd rs1 rs2 (s : State), s.regsWritten[rs1] = false →
    exec (mkReg rd rs1 rs2) s = .fault (.uninitialisedRead (.reg rs1))
  regFaultSecond : ∀ rd rs1 rs2 (s : State), s.regsWritten[rs1] = true → s.regsWritten[rs2] = false →
    exec (mkReg rd rs1 rs2) s = .fault (.uninitialisedRead (.reg rs2))
  immFault : ∀ rd rs1 m v (s : State), m ≠ 3#2 → s.regsWritten[rs1] = false →
    exec (mkImm rd rs1 m v) s = .fault (.uninitialisedRead (.reg rs1))
  illegal : ∀ rd rs1 v, decode (immWord code rd rs1 3#2 v) = .error .reservedModifier

/-- An instruction `op rd, (rs2/imm)` with the code `code` that computes `f` of its operand. The field `x`, in the
place of `rs1`, is ignored. -/
structure TwoOperandRule (code : BitVec 5) (mkReg : Reg → Reg → Instr)
    (mkImm : Reg → BitVec 2 → BitVec 16 → Instr) (f : Word → Word) : Prop where
  regEncoding : ∀ rd x rs2 (junk : BitVec 14),
    decode (regWord code rd x rs2 ||| junk.setWidth 32) = .ok (mkReg rd rs2)
  immEncoding : ∀ rd x m v, m ≠ 3#2 → decode (immWord code rd x m v) = .ok (mkImm rd m v)
  regEffect : ∀ rd rs2 (s : State) b, s.readReg rs2 = .ok b →
    exec (mkReg rd rs2) s = .next (s.writeReg rd (f b)).advance
  immEffect : ∀ rd m v (s : State) b, immx m v = some b →
    exec (mkImm rd m v) s = .next (s.writeReg rd (f b)).advance
  regFault : ∀ rd rs2 (s : State), s.regsWritten[rs2] = false →
    exec (mkReg rd rs2) s = .fault (.uninitialisedRead (.reg rs2))
  illegal : ∀ rd x v, decode (immWord code rd x 3#2 v) = .error .reservedModifier

/-- The names of the signals that are 1 for a word, in the order of the table of 30_encoding.md R92
(`isImmediate` is not in that table). -/
def activeSignals (w : Word) : List String :=
  (List.zip
    ["isSt", "isLd", "isBeq", "isBgt", "isRet", "isWb", "isUbranch", "isCall", "isAdd", "isSub", "isCmp", "isMul",
      "isDiv", "isMod", "isLsl", "isLsr", "isAsr", "isOr", "isAnd", "isNot", "isMov"]
    ([isSt w, isLd w, isBeq w, isBgt w, isRet w, isWb w, isUbranch w, isCall w] ++ aluSignals w)).filterMap
      (fun p => if p.2 then some p.1 else none)

/-! ## The invariant -/

/-- What holds of every state of a run: the memory has its canonical form; only admitted data words hold
values, and each one whole (20_memory.md R42, R43); and written flags are ones that a `cmp` can leave
(40_arithmetic.md R106). -/
structure State.Inv (s : State) : Prop where
  memWf : s.mem.wf = true
  admittedOnly : ∀ a, (s.mem.readByte a).isSome = true → s.admitted (BitVec.ofNat 32 (a - a % 4)) = true
  wholeWords : ∀ a, (s.mem.readByte a).isSome = true → ∀ k, k < 4 → (s.mem.readByte (a - a % 4 + k)).isSome = true
  flagsOk : s.flagsWritten = true → s.flags.consistent = true

end Sys2Proof.Machine
end

