-- ==== Sys2Proof/Certificates/Slice0/Obligations.lean ====
section
/-! DEFINITION. The statements for the provers. A statement marked "derived" rests on a decision, a derivation or
general knowledge that the spec marks as its own, or on a choice of the model that its docstring names. -/

open Sys2Proof Sys2Proof.Machine

/-! ## Encoding (30_encoding.md) -/

/-- Decoding the word of any well-formed instruction gives it back, every field at every value. -/
def Obligations.DecodeEncodeRoundTrip : Prop :=
  ∀ i : Instr, i.wellFormed = true → decode (encode i) = .ok i

/-- A word decodes to `i` exactly when `i` is well formed and the word's field bits are those of `i`; so two words
decode alike exactly when they differ in ignored bits only (R81). Derived: ignoring those bits is the spec's
decision D5 (entry 13). -/
def Obligations.DecodeReadsExactlyTheFields : Prop :=
  ∀ (w : Word) (i : Instr), decode w = .ok i ↔ i.wellFormed = true ∧ w &&& i.fieldMask = encode i

/-- The words that decode to nothing are exactly those of 60_exceptions.md R183. Derived: the spec's decisions D4,
D6, D7 (entry 13). -/
def Obligations.IllegalWordsExactly : Prop :=
  ∀ w : Word, (∃ e, decode w = .error e) ↔
    (21 ≤ (opField w).toNat) ∨
    (((opField w).toNat = 14 ∨ (opField w).toNat = 15) ∧ immBit w = false) ∨
    (((opField w).toNat ≤ 12 ∨ (opField w).toNat = 14 ∨ (opField w).toNat = 15) ∧ immBit w = true ∧
      modField w = 3#2)

/-- Words written out in the spec's worked examples, one a family, and what they stand for. Derived: the words are
the spec's derivations. -/
def Obligations.WorkedExampleWordsDecode : Prop :=
  decode 0x0048C000#32 = .ok (.addReg 1 2 3) ∧
  decode 0x0448000A#32 = .ok (.addImm 1 2 0 10) ∧
  decode 0x3048C000#32 = .ok (.andReg 1 2 3) ∧
  decode 0x40408000#32 = .ok (.notReg 1 2) ∧
  decode 0x4C02FEAB#32 = .ok (.movImm 0 2 0xFEAB) ∧
  decode 0x68000000#32 = .ok .nop ∧
  decode 0x64C40004#32 = .ok (.asrImm 3 1 0 4) ∧
  decode 0x7448000C#32 = .ok (.ld 1 2 0 12) ∧
  decode 0x7C48000C#32 = .ok (.st 1 2 0 12) ∧
  decode 0x97FFFFFE#32 = .ok (.b (BitVec.ofInt 27 (-2))) ∧
  decode 0x98000010#32 = .ok (.call 16) ∧
  decode 0xA0000000#32 = .ok .ret

/-- The opcode table: 21 instructions, each with its code, and no word with another code decodes (R64). -/
def Obligations.OpcodeMapOfTwentyOneInstructions : Prop :=
  let table : List (String × BitVec 5) :=
    [("add", 0b00000#5), ("sub", 0b00001#5), ("mul", 0b00010#5), ("div", 0b00011#5), ("mod", 0b00100#5),
     ("cmp", 0b00101#5), ("and", 0b00110#5), ("or", 0b00111#5), ("not", 0b01000#5), ("mov", 0b01001#5),
     ("lsl", 0b01010#5), ("lsr", 0b01011#5), ("asr", 0b01100#5), ("nop", 0b01101#5), ("ld", 0b01110#5),
     ("st", 0b01111#5), ("beq", 0b10000#5), ("bgt", 0b10001#5), ("b", 0b10010#5), ("call", 0b10011#5),
     ("ret", 0b10100#5)]
  (∀ w i, decode w = .ok i → (i.mnemonic, opField w) ∈ table) ∧
  (∀ p ∈ table, ∃ w i, decode w = .ok i ∧ (i.mnemonic, opField w) = p) ∧
  (∀ w, 0b10101#5 ≤ opField w → decode w = .error .unassignedOpcode)

/-! ## Immediates (30_encoding.md R68) -/

/-- `immx` for each modifier: the signed value, the unsigned value, the value in the upper half (R68), with the source's
three examples; and for `0b11` the immediate operand of any term `i` is `IllegalInstruction` of the word that `i` is
encoded as (R78). Derived: decisions D2, D4 (entry 13), and the operand of a term with `0b11`, which no word decodes to,
is the model's choice (entry 8). -/
def Obligations.ImmediateModifiers : Prop :=
  (∀ v : BitVec 16,
    (∃ x, immx 0b00#2 v = some x ∧ x.toInt = v.toInt) ∧
    (∃ x, immx 0b01#2 v = some x ∧ x.toNat = v.toNat) ∧
    (∃ x, immx 0b10#2 v = some x ∧ x.toNat = v.toNat * 65536) ∧
    (∀ i : Instr, immOperand i 0b11#2 v = .error (.illegalInstruction (encode i)))) ∧
  immx 0b00#2 0xFFFE#16 = some 0xFFFFFFFE#32 ∧
  immx 0b01#2 0xFEAB#16 = some 0x0000FEAB#32 ∧
  immx 0b10#2 0xFEAB#16 = some 0xFEAB0000#32

/-- The rows of R131: each word, and what it loads in every state; and a 32-bit constant from `movh` and then
`addu` or `oru`. Derived: the words are the spec's derivations. -/
def Obligations.MovLoadsConstants : Prop :=
  (decode 0x4C40FFFE#32 = .ok (.movImm 1 0 0xFFFE) ∧ decode 0x4C01FEAB#32 = .ok (.movImm 0 1 0xFEAB) ∧
    decode 0x4C02FEAB#32 = .ok (.movImm 0 2 0xFEAB) ∧ decode 0x4C40CDEF#32 = .ok (.movImm 1 0 0xCDEF)) ∧
  (∀ s : State,
    exec (.movImm 1 0 0xFFFE) s = .next (s.writeReg 1 0xFFFFFFFE#32).advance ∧
    exec (.movImm 0 1 0xFEAB) s = .next (s.writeReg 0 0x0000FEAB#32).advance ∧
    exec (.movImm 0 2 0xFEAB) s = .next (s.writeReg 0 0xFEAB0000#32).advance ∧
    exec (.movImm 1 0 0xCDEF) s = .next (s.writeReg 1 0xFFFFCDEF#32).advance) ∧
  (∀ (rd : Reg) (hi lo : BitVec 16) (s : State), ∃ t u v,
    exec (.movImm rd 0b10#2 hi) s = .next t ∧
    exec (.addImm rd rd 0b01#2 lo) t = .next u ∧ u.readReg rd = .ok (hi ++ lo) ∧
    exec (.orImm rd rd 0b01#2 lo) t = .next v ∧ v.readReg rd = .ok (hi ++ lo))

/-! ## Arithmetic (40_arithmetic.md) -/

/-- `add`, `sub` and `mul`: the mathematical result modulo 2^32, in both forms, with their encodings and faults (R101 to
R103). Derived: the wrap-around is the spec's decision D12; which faults there are and that `rs1` is reported before
`rs2` are decisions D4, D25 and D41 (R187), the encodings D2, D3 and D5 (entry 13). -/
def Obligations.AddSubMulWrap : Prop :=
  ThreeOperandRule 0b00000#5 .addReg .addImm (fun a b => BitVec.ofNat 32 (a.toNat + b.toNat)) ∧
  ThreeOperandRule 0b00001#5 .subReg .subImm (fun a b => BitVec.ofInt 32 (a.toNat - b.toNat)) ∧
  ThreeOperandRule 0b00010#5 .mulReg .mulImm (fun a b => BitVec.ofNat 32 (a.toNat * b.toNat))

/-- `div` and `mod` complete for every divisor but 0 and the overflow pair, whatever the configuration, with the
values of `DIV_FN` and `MOD_FN` (R104, R105, R108). Derived: decisions D13, D14; entry 11. -/
def Obligations.DivModAskTheConfiguration : Prop :=
  ∀ (rd rs1 : Reg) (s : State) (a b : Word), s.readReg rs1 = .ok a →
    b.toInt ≠ 0 → ¬ (a.toInt = -2 ^ 31 ∧ b.toInt = -1) →
    (∀ rs2, s.readReg rs2 = .ok b →
      exec (.divReg rd rs1 rs2) s =
        .next (s.writeReg rd (BitVec.ofInt 32 (divFn s.config a.toInt b.toInt))).advance ∧
      exec (.modReg rd rs1 rs2) s =
        .next (s.writeReg rd (BitVec.ofInt 32 (modFn s.config a.toInt b.toInt))).advance) ∧
    (∀ m v, immx m v = some b →
      exec (.divImm rd rs1 m v) s =
        .next (s.writeReg rd (BitVec.ofInt 32 (divFn s.config a.toInt b.toInt))).advance ∧
      exec (.modImm rd rs1 m v) s =
        .next (s.writeReg rd (BitVec.ofInt 32 (modFn s.config a.toInt b.toInt))).advance)

/-- The default `DIV_FN` rounds toward zero and the default `MOD_FN` takes the sign of the dividend: on the operands
that the machine asks them for, they are truncated division and its remainder, and both fit 32 bits, so that
`a = b * q + r` (R104, R105, R107). Derived: decision D13 and general knowledge K8; entry 11. -/
def Obligations.DefaultDivisionTruncates : Prop :=
  ∀ (c : Config) (a b : Word), c.divFn = .standard → c.modFn = .standard →
    b.toInt ≠ 0 → ¬ (a.toInt = -2 ^ 31 ∧ b.toInt = -1) →
    let q : Word := BitVec.ofInt 32 (divFn c a.toInt b.toInt)
    let r : Word := BitVec.ofInt 32 (modFn c a.toInt b.toInt)
    q.toInt = a.toInt.tdiv b.toInt ∧ r.toInt = a.toInt.tmod b.toInt ∧
      a.toInt = b.toInt * q.toInt + r.toInt ∧ r.toInt.natAbs < b.toInt.natAbs

/-- `div` and `mod` fault on a zero divisor and on `-2^31` by `-1`, in both forms (R104, R105). Derived: decision
D14. -/
def Obligations.DivModFaultOnZeroAndOverflow : Prop :=
  ∀ (rd rs1 : Reg) (s : State) (a b : Word) (k : ArithKind), s.readReg rs1 = .ok a →
    (k = .divideByZero ∧ b.toInt = 0 ∨ k = .divideOverflow ∧ a.toInt = -2 ^ 31 ∧ b.toInt = -1) →
    (∀ rs2, s.readReg rs2 = .ok b →
      exec (.divReg rd rs1 rs2) s = .fault (.arithmeticFault k) ∧
      exec (.modReg rd rs1 rs2) s = .fault (.arithmeticFault k)) ∧
    (∀ m v, immx m v = some b →
      exec (.divImm rd rs1 m v) s = .fault (.arithmeticFault k) ∧
      exec (.modImm rd rs1 m v) s = .fault (.arithmeticFault k))

/-- `cmp` writes both flags from the signed comparison and changes nothing else but the pc; it never leaves both 1;
the `rd` field is ignored (R106). Derived: decisions D8, D15, general knowledge K4, K9 (entry 13). -/
def Obligations.CmpWritesBothFlags : Prop :=
  (∀ (rs1 rs2 : Reg) (s : State) (a b : Word), s.readReg rs1 = .ok a → s.readReg rs2 = .ok b →
    exec (.cmpReg rs1 rs2) s = .next (s.writeFlags { e := a == b, gt := b.slt a }).advance) ∧
  (∀ (rs1 : Reg) (m : BitVec 2) (v : BitVec 16) (s : State) (a b : Word),
    s.readReg rs1 = .ok a → immx m v = some b →
    exec (.cmpImm rs1 m v) s = .next (s.writeFlags { e := a == b, gt := b.slt a }).advance) ∧
  (∀ a b : Word, ¬ ((a == b) = true ∧ b.slt a = true)) ∧
  (∀ (x rs1 rs2 : Reg) (junk : BitVec 14),
    decode (regWord 0b00101#5 x rs1 rs2 ||| junk.setWidth 32) = .ok (.cmpReg rs1 rs2)) ∧
  (∀ (x rs1 : Reg) (m : BitVec 2) (v : BitVec 16), m ≠ 3#2 →
    decode (immWord 0b00101#5 x rs1 m v) = .ok (.cmpImm rs1 m v))

/-! ## Logical and move (41_logical.md, 42_move_nop.md) -/

/-- `and` and `or`: the functions whose bits are the "and" and the "or" of the operands' bits, in both forms, with
encodings, faults and worked examples (R121, R122). Derived: which faults there are and that `rs1` is reported before
`rs2` are decisions D4, D25 and D41 (R187; entry 13), the encodings D2, D3 and D5. -/
def Obligations.AndOrBitByBit : Prop :=
  ∃ f g : Word → Word → Word,
    (∀ a b k, k < 32 → (f a b).getLsbD k = (a.getLsbD k && b.getLsbD k)) ∧
    (∀ a b k, k < 32 → (g a b).getLsbD k = (a.getLsbD k || b.getLsbD k)) ∧
    ThreeOperandRule 0b00110#5 .andReg .andImm f ∧
    ThreeOperandRule 0b00111#5 .orReg .orImm g ∧
    (∀ a, f a 0xFFFFFFFF#32 = a ∧ (f a 0x0000FFFF#32).toNat = a.toNat % 2 ^ 16 ∧
      (f a 0xFFFF0000#32).toNat = a.toNat - a.toNat % 2 ^ 16 ∧ f a 0#32 = 0#32) ∧
    (∀ a, (g a 0x0000CDEF#32).toNat / 2 ^ 16 = a.toNat / 2 ^ 16 ∧
      (g a 0xFFFFCDEF#32).toNat / 2 ^ 16 = 0xFFFF) ∧
    decode 0x3048C000#32 = .ok (.andReg 1 2 3) ∧ f 0x0000FF0F#32 0x00000FF0#32 = 0x00000F00#32 ∧
    decode 0x3848C000#32 = .ok (.orReg 1 2 3) ∧ g 0x0000FF00#32 0x00000FF0#32 = 0x0000FFF0#32

/-- `not` inverts every bit; the `rs1` field is ignored (R123). Derived: reading "logical complement" as bitwise is
the spec's decision D44, the faults are decisions D4 and D25, the encodings D2, D3, D5 and D9 (entry 13). -/
def Obligations.NotInvertsEveryBit : Prop :=
  ∃ f : Word → Word,
    (∀ b k, k < 32 → (f b).getLsbD k = !b.getLsbD k) ∧ TwoOperandRule 0b01000#5 .notReg .notImm f

/-- `mov` copies its operand; the `rs1` field is ignored; only the register form reads a register; `mov r, r`
changes the pc alone (R130). -/
def Obligations.MovCopiesItsOperand : Prop :=
  TwoOperandRule 0b01001#5 .movReg .movImm (fun b => b) ∧
  (∀ (r : Reg) (s : State) (a : Word), s.readReg r = .ok a → exec (.movReg r r) s = .next s.advance) ∧
  decode 0x4C400003#32 = .ok (.movImm 1 0 3) ∧ immx 0#2 3#16 = some 3#32 ∧
  decode 0x48408000#32 = .ok (.movReg 1 2)

/-- `nop` completes in every state and changes the pc alone, whatever its 27 low bits (R132). Derived: decision D32
and general knowledge K10 (entry 13). -/
def Obligations.NopOnlyAdvances : Prop :=
  (∀ s : State, exec .nop s = .next { s with pc := s.pc + 4#32 }) ∧
  (∀ x : BitVec 27, decode (branchWord 0b01101#5 x) = .ok .nop)

/-- No register is hardwired: each reads back what was written to it, and a write changes no other; `r0` is
ordinary, as the source's examples show (10_state.md R22). -/
def Obligations.NoRegisterIsHardwired : Prop :=
  (∀ (s : State) (r q : Reg) (v : Word),
    (s.writeReg r v).readReg q = if q = r then .ok v else s.readReg q) ∧
  (∀ (s : State) (a b : Word), s.readReg 0 = .ok a → s.readReg 1 = .ok b →
    exec (.addReg 0 0 1) s = .next (s.writeReg 0 (a + b)).advance) ∧
  (∀ s : State, exec (.movImm 0 0b01#2 0xFEAB#16) s = .next (s.writeReg 0 0x0000FEAB#32).advance)

/-! ## Shifts (43_shift.md) -/

/-- A shift by `n` from 0 to 31, under every configuration: `lsl` multiplies by `2^n` modulo 2^32, `lsr` divides the
unsigned value by `2^n` rounding down, `asr` divides the signed value by `2^n` rounding toward minus infinity
(R140 to R143). Derived: what "arithmetic" means is general knowledge K11. -/
def Obligations.ShiftsInRange : Prop :=
  ∀ (rd rs1 : Reg) (s : State) (a b : Word), s.readReg rs1 = .ok a → b.toNat ≤ 31 →
    (∀ rs2, s.readReg rs2 = .ok b →
      exec (.lslReg rd rs1 rs2) s = .next (s.writeReg rd (BitVec.ofNat 32 (a.toNat * 2 ^ b.toNat))).advance ∧
      exec (.lsrReg rd rs1 rs2) s = .next (s.writeReg rd (BitVec.ofNat 32 (a.toNat / 2 ^ b.toNat))).advance ∧
      exec (.asrReg rd rs1 rs2) s = .next (s.writeReg rd (BitVec.ofInt 32 (a.toInt / 2 ^ b.toNat))).advance) ∧
    (∀ m v, immx m v = some b →
      exec (.lslImm rd rs1 m v) s = .next (s.writeReg rd (BitVec.ofNat 32 (a.toNat * 2 ^ b.toNat))).advance ∧
      exec (.lsrImm rd rs1 m v) s = .next (s.writeReg rd (BitVec.ofNat 32 (a.toNat / 2 ^ b.toNat))).advance ∧
      exec (.asrImm rd rs1 m v) s = .next (s.writeReg rd (BitVec.ofInt 32 (a.toInt / 2 ^ b.toNat))).advance)

/-- A shift by more than 31 does what `SHIFT_OOR` says: the fault with the amount, the amount modulo 32, or the
mathematical shift (R144), in both forms. Derived: decision D17; entry 12. -/
def Obligations.ShiftsOutOfRange : Prop :=
  ∀ (rd rs1 : Reg) (s : State) (a b : Word), s.readReg rs1 = .ok a → 31 < b.toNat →
    let n := b.toNat % 32
    let result (mod32 saturate : Word) : Host.Outcome State Fault Refusal :=
      match s.config.shiftOor with
      | .fault => .fault (.shiftAmountFault b.toNat)
      | .mod32 => .next (s.writeReg rd mod32).advance
      | .saturate => .next (s.writeReg rd saturate).advance
    (∀ rs2, s.readReg rs2 = .ok b →
      exec (.lslReg rd rs1 rs2) s = result (BitVec.ofNat 32 (a.toNat * 2 ^ n)) 0#32 ∧
      exec (.lsrReg rd rs1 rs2) s = result (BitVec.ofNat 32 (a.toNat / 2 ^ n)) 0#32 ∧
      exec (.asrReg rd rs1 rs2) s =
        result (BitVec.ofInt 32 (a.toInt / 2 ^ n)) (if a.toInt < 0 then 0xFFFFFFFF#32 else 0#32)) ∧
    (∀ m v, immx m v = some b →
      exec (.lslImm rd rs1 m v) s = result (BitVec.ofNat 32 (a.toNat * 2 ^ n)) 0#32 ∧
      exec (.lsrImm rd rs1 m v) s = result (BitVec.ofNat 32 (a.toNat / 2 ^ n)) 0#32 ∧
      exec (.asrImm rd rs1 m v) s =
        result (BitVec.ofInt 32 (a.toInt / 2 ^ n)) (if a.toInt < 0 then 0xFFFFFFFF#32 else 0#32))

/-! ## Load and store (44_load_store.md, 20_memory.md) -/

/-- `ld` completes at an aligned, admitted, written word and loads it into `rd` (R151). Derived: decisions D18, D19,
D22. -/
def Obligations.LoadReadsTheWord : Prop :=
  ∀ (rd rs1 : Reg) (m : BitVec 2) (v : BitVec 16) (s : State) (base disp x : Word),
    s.readReg rs1 = .ok base → immx m v = some disp →
    (base + disp).toNat % 4 = 0 → s.admitted (base + disp) = true →
    s.mem.readWord (base + disp).toNat = some x →
    exec (.ld rd rs1 m v) s = .next (s.writeReg rd x).advance

/-- `st` completes at an aligned, admitted word: the four bytes from the address on are those of the register, least
significant first, every other byte is as before, and so is all else but the pc (R152, R45). Derived: decisions
D10, D18 to D20, D22. -/
def Obligations.StoreWritesTheWord : Prop :=
  ∀ (rd rs1 : Reg) (m : BitVec 2) (v : BitVec 16) (s : State) (base disp x : Word),
    s.readReg rs1 = .ok base → s.readReg rd = .ok x → immx m v = some disp →
    (base + disp).toNat % 4 = 0 → s.admitted (base + disp) = true →
    ∃ mem, exec (.st rd rs1 m v) s = .next (s.setMem mem).advance ∧
      (∀ k, k < 4 → mem.readByte ((base + disp).toNat + k) = some (x.extractLsb' (8 * k) 8)) ∧
      (∀ c, c < (base + disp).toNat ∨ (base + disp).toNat + 4 ≤ c → mem.readByte c = s.mem.readByte c)

/-- After a `st`, a `ld` of the same operand loads the stored value (R152's worked example, for all states). Derived,
as `StoreWritesTheWord`. -/
def Obligations.StoreThenLoad : Prop :=
  ∀ (rd rs1 q : Reg) (m : BitVec 2) (v : BitVec 16) (s t : State) (x : Word),
    exec (.st rd rs1 m v) s = .next t → s.readReg rd = .ok x →
    exec (.ld q rs1 m v) t = .next (t.writeReg q x).advance

/-- A word written is read back, and every other word reads as before: "a `ld` from address `a` returns the value
written by the most recent `st` to `a`" (R52), for the primitives (R46, R47). Derived: decision D30. -/
def Obligations.MostRecentWriteIsRead : Prop :=
  ∀ (s t : State) (a v : Word), s.memWrite a v = .ok t →
    ∀ c : Word, c.toNat % 4 = 0 → t.memRead c = if c = a then .ok v else s.memRead c

/-- The memory faults of `ld` and `st` and their order: alignment, then admission, then for `ld` the unwritten word;
and no text address is admitted (R46, R47, R55, R151, R152). Derived: decisions D19, D22, D23, D25, D41. -/
def Obligations.MemoryFaultsInOrder : Prop :=
  (∀ (rd rs1 : Reg) (m : BitVec 2) (v : BitVec 16) (s : State) (base disp : Word),
    s.readReg rs1 = .ok base → immx m v = some disp →
    ((base + disp).toNat % 4 ≠ 0 →
      exec (.ld rd rs1 m v) s = .fault (.misalignedAccess (base + disp)) ∧
      (s.regsWritten[rd] = true → exec (.st rd rs1 m v) s = .fault (.misalignedAccess (base + disp)))) ∧
    ((base + disp).toNat % 4 = 0 → s.admitted (base + disp) = false →
      exec (.ld rd rs1 m v) s = .fault (.accessFault (base + disp)) ∧
      (s.regsWritten[rd] = true → exec (.st rd rs1 m v) s = .fault (.accessFault (base + disp)))) ∧
    ((base + disp).toNat % 4 = 0 → s.admitted (base + disp) = true →
      s.mem.readWord (base + disp).toNat = none →
      exec (.ld rd rs1 m v) s = .fault (.uninitialisedRead (.mem (base + disp))))) ∧
  (∀ (s : State) (a : Word), s.inText a = true → s.admitted a = false)

/-! ## Control transfer (45_branch.md, 46_call_ret.md) -/

/-- `b`, `beq` and `bgt`: the target is `4 * offset` bytes from the branch, modulo 2^32; a conditional branch goes
there when its flag is 1 and to `pc + 4` when it is 0; nothing but the pc changes (R160 to R163). Derived: the
target's formula is decision D11, `flags.E` general knowledge K1 (entries 13, 14). -/
def Obligations.BranchesFollowTheFlags : Prop :=
  ∀ (o : BitVec 27) (s : State),
    let target : Word := BitVec.ofInt 32 (s.pc.toNat + 4 * o.toInt)
    exec (.b o) s = .next { s with pc := target } ∧
    (s.flagsWritten = true →
      exec (.beq o) s = .next { s with pc := if s.flags.e then target else s.pc + 4#32 } ∧
      exec (.bgt o) s = .next { s with pc := if s.flags.gt then target else s.pc + 4#32 })

/-- `call` completes in every state: `ra` is the address after the call, the pc the target, both from the old pc, and
nothing else changes (R170). Derived: the target's formula is decision D11 (entry 14). -/
def Obligations.CallSavesTheReturnAddress : Prop :=
  ∀ (o : BitVec 27) (s : State),
    exec (.call o) s =
      .next { s.writeReg Reg.ra (s.pc + 4#32) with pc := BitVec.ofInt 32 (s.pc.toNat + 4 * o.toInt) }

/-- `ret` copies `ra` to the pc untested and changes nothing else; it faults where `ra` is unwritten; the next step
ends the run at `END_PC`, and else faults on a misaligned `ra` or one outside the text; any low bits are ignored
(R171). Derived: decisions D5, D19, D22, D25, D26 (entry 13), and answering the end as a refusal is the model's choice
(entry 9). -/
def Obligations.RetJumpsToRa : Prop :=
  (∀ (s : State) (a : Word), s.readReg Reg.ra = .ok a → exec .ret s = .next { s with pc := a }) ∧
  (∀ s : State, s.regsWritten[Reg.ra] = false → exec .ret s = .fault (.uninitialisedRead (.reg Reg.ra))) ∧
  (∀ s t : State, exec .ret s = .next t →
    (t.pc = t.endPc → step t = .refused .endedNormally) ∧
    (t.pc ≠ t.endPc → t.pc.toNat % 4 ≠ 0 → step t = .fault (.misalignedFetch t.pc)) ∧
    (t.pc ≠ t.endPc → t.pc.toNat % 4 = 0 → t.inText t.pc = false → step t = .fault (.fetchFault t.pc))) ∧
  (∀ x : BitVec 27, decode (branchWord 0b10100#5 x) = .ok .ret)

/-- A `ret` reached with the `ra` that a `call` left returns to the address after the call (R170 to R172). Derived
from the two rules. -/
def Obligations.CallThenRetReturns : Prop :=
  ∀ (o : BitVec 27) (s t u : State), exec (.call o) s = .next t → u.readReg Reg.ra = t.readReg Reg.ra →
    exec .ret u = .next { u with pc := s.pc + 4#32 }

/-- Every instruction but `b`, `beq`, `bgt`, `call` and `ret` ends with `pc + 4` (R165; 00_scope.md R8). Derived. -/
def Obligations.OnlyTransfersLeaveSequence : Prop :=
  ∀ (i : Instr) (s t : State), exec i s = .next t → i.isTransfer = false → t.pc = s.pc + 4#32

/-- The next pc of every instruction is `branchPC` where `isBranchTaken` is 1 and `pc + 4` where it is 0 (R164).
Derived: the formula of the signal is general knowledge K12 (entry 15). -/
def Obligations.NextPcFollowsIsBranchTaken : Prop :=
  ∀ (w : Word) (i : Instr) (s t : State), decode w = .ok i → exec i s = .next t →
    t.pc = if isBranchTaken w s.flags then branchPc w s.pc s.regs[Reg.ra] else s.pc + 4#32

/-- Only `ret` can leave a pc that is no multiple of 4 (10_state.md R29). Derived: decision D31. -/
def Obligations.OnlyRetMisalignsThePc : Prop :=
  ∀ (s t : State) (w : Word), step s = .next t → s.fetch = .ok w → t.pc.toNat % 4 ≠ 0 → decode w = .ok .ret

/-! ## Frames (10_state.md R25, R27, R28, R30) -/

/-- An instruction changes no general register but its destination: `rd` for add, sub, mul, div, mod, and, or, not,
mov, lsl, lsr, asr and ld, `ra` for call, none for cmp, nop, st, b, beq, bgt and ret (R25). The destination is
written after it. Derived. -/
def Obligations.RegisterFrame : Prop :=
  ∀ (i : Instr) (s t : State), exec i s = .next t →
    (∀ r, i.dest ≠ some r → sameReg s t r) ∧ (∀ r, i.dest = some r → t.regsWritten[r] = true)

/-- Only `cmp` changes the flags (R27). Derived: decision D16. -/
def Obligations.FlagsFrame : Prop :=
  ∀ (i : Instr) (s t : State), exec i s = .next t → i.writesFlags = false → sameFlags s t

/-- Every byte of memory outside the four that `st` stores to, at the address its meaning computes, reads as before;
for every other instruction every byte does (R25, R152). Derived. -/
def Obligations.MemoryFrame : Prop :=
  ∀ (i : Instr) (s t : State), exec i s = .next t →
    ∀ c : Nat, (∀ a, i.storeAddress s = some a → c < a.toNat ∨ a.toNat + 4 ≤ c) →
      t.mem.readByte c = s.mem.readByte c

/-- No instruction changes the text, the admitted words, `END_PC` or the configuration (20_memory.md R41, R42).
Derived: decisions D22, D23; entry 2. -/
def Obligations.RunParametersFrame : Prop :=
  ∀ (i : Instr) (s t : State), exec i s = .next t → sameRun s t

/-- What is written stays written: registers (10_state.md R30), flags (R32) and memory bytes (20_memory.md R47). Derived: decisions D24, D25. -/
def Obligations.WrittenStaysWritten : Prop :=
  ∀ s t : State, step s = .next t →
    (∀ r : Reg, s.regsWritten[r] = true → t.regsWritten[r] = true) ∧
    (s.flagsWritten = true → t.flagsWritten = true) ∧
    (∀ c, (s.mem.readByte c).isSome = true → (t.mem.readByte c).isSome = true)

/-- A register that an instruction does not read makes no difference to it: changing its value or its written mark
changes nothing in the outcome but that register, unless it is overwritten (R25; 60_exceptions.md R185). Derived. -/
def Obligations.UnreadRegistersMakeNoDifference : Prop :=
  ∀ (i : Instr) (s : State) (r : Reg) (v : Word) (written : Bool), r ∉ i.sources →
    exec i (s.putReg r v written) =
      mapNext (fun t => if i.dest = some r then t else t.putReg r v written) (exec i s)

/-- Only `beq` and `bgt` read the flags: to every other instruction they make no difference (R28). Derived. -/
def Obligations.FlagsMakeNoDifferenceElsewhere : Prop :=
  ∀ (i : Instr) (s : State) (f : Flags) (written : Bool), i.readsFlags = false →
    exec i (s.putFlags f written) =
      mapNext (fun t => if i.writesFlags then t else t.putFlags f written) (exec i s)

/-! ## Control signals (30_encoding.md section 6) -/

/-- `isBeq`, `isBgt`, `isRet` and `isCall` are each 1 for one opcode; the expression of `isCall` is a term of `isWb`
(R85). -/
def Obligations.SingleOpcodeSignals : Prop :=
  ∀ w : Word,
    (isBeq w = true ↔ opField w = 0b10000#5) ∧ (isBgt w = true ↔ opField w = 0b10001#5) ∧
    (isRet w = true ↔ opField w = 0b10100#5) ∧ (isCall w = true ↔ opField w = 0b10011#5) ∧
    (isCall w = true → isWb w = true)

/-- `isWb` is 1 exactly for the fourteen opcodes of R87, exactly when the instruction writes a general register: `ra`
for `call`, `rd` for the others; where it is 0 no register changes. -/
def Obligations.WriteBackSignal : Prop :=
  (∀ w : Word, isWb w = true ↔ opField w ∈
    [0b00000#5, 0b00001#5, 0b00010#5, 0b00011#5, 0b00100#5, 0b00110#5, 0b00111#5, 0b01000#5, 0b01001#5,
      0b01010#5, 0b01011#5, 0b01100#5, 0b01110#5, 0b10011#5]) ∧
  (∀ (w : Word) (i : Instr) (s t : State), decode w = .ok i → exec i s = .next t →
    (isWb w = true → ∃ r : Reg, (r = if isCall w then Reg.ra else rdField w) ∧
      ∃ v, t.regs = s.regs.set r v ∧ t.regsWritten = s.regsWritten.set r true) ∧
    (isWb w = false → t.regs = s.regs ∧ t.regsWritten = s.regsWritten))

/-- `isUbranch` is 1 exactly for `b`, `call` and `ret` (R88). -/
def Obligations.UnconditionalBranchSignal : Prop :=
  (∀ w : Word, isUbranch w = true ↔ opField w ∈ [0b10010#5, 0b10011#5, 0b10100#5]) ∧
  (∀ (w : Word) (i : Instr), decode w = .ok i → (isUbranch w = true ↔ i.mnemonic ∈ ["b", "call", "ret"]))

/-- The thirteen ALU signals and their opcodes; at most one is 1 for any word, and none for nop, beq, bgt, b, call
and ret (R90). -/
def Obligations.AluSignalOpcodes : Prop :=
  ∀ w : Word,
    (isAdd w = true ↔ opField w ∈ [0b00000#5, 0b01110#5, 0b01111#5]) ∧
    (isSub w = true ↔ opField w = 0b00001#5) ∧ (isCmp w = true ↔ opField w = 0b00101#5) ∧
    (isMul w = true ↔ opField w = 0b00010#5) ∧ (isDiv w = true ↔ opField w = 0b00011#5) ∧
    (isMod w = true ↔ opField w = 0b00100#5) ∧ (isLsl w = true ↔ opField w = 0b01010#5) ∧
    (isLsr w = true ↔ opField w = 0b01011#5) ∧ (isAsr w = true ↔ opField w = 0b01100#5) ∧
    (isOr w = true ↔ opField w = 0b00111#5) ∧ (isAnd w = true ↔ opField w = 0b00110#5) ∧
    (isNot w = true ↔ opField w = 0b01000#5) ∧ (isMov w = true ↔ opField w = 0b01001#5) ∧
    (aluSignals w).count true ≤ 1 ∧
    (opField w ∈ [0b01101#5, 0b10000#5, 0b10001#5, 0b10010#5, 0b10011#5, 0b10100#5] →
      (aluSignals w).count true = 0)

/-- The signals that are 1 for each instruction: the whole table of R92, `isSt` and `isLd` with it. Derived: the two
are general knowledge K7 (entry 15). -/
def Obligations.SignalTableOfEveryInstruction : Prop :=
  ∀ (w : Word) (i : Instr), decode w = .ok i → (i.mnemonic, activeSignals w) ∈
    [("add", ["isWb", "isAdd"]), ("sub", ["isWb", "isSub"]), ("mul", ["isWb", "isMul"]),
     ("div", ["isWb", "isDiv"]), ("mod", ["isWb", "isMod"]), ("cmp", ["isCmp"]), ("and", ["isWb", "isAnd"]),
     ("or", ["isWb", "isOr"]), ("not", ["isWb", "isNot"]), ("mov", ["isWb", "isMov"]),
     ("lsl", ["isWb", "isLsl"]), ("lsr", ["isWb", "isLsr"]), ("asr", ["isWb", "isAsr"]), ("nop", []),
     ("ld", ["isLd", "isWb", "isAdd"]), ("st", ["isSt", "isAdd"]), ("beq", ["isBeq"]), ("bgt", ["isBgt"]),
     ("b", ["isUbranch"]), ("call", ["isWb", "isUbranch", "isCall"]), ("ret", ["isRet", "isUbranch"])]

/-- Two designs agree: on every legal word, the step that the control signals select is the step of the instruction
rules, in its result and in its fault (R70, R87, R91, R164). Derived: putting those rules together is the model's
own inference (entry 15). -/
def Obligations.SignalsDriveTheSameStep : Prop :=
  ∀ (w : Word) (i : Instr) (s : State), decode w = .ok i → outcome (signalExec w s) = exec i s

/-! ## The step (70_reset_and_hazards.md, 60_exceptions.md) -/

/-- Where the run has not ended and the word at the pc decodes to `i`, the step is the meaning of `i` (R204). -/
def Obligations.StepRunsTheDecodedInstruction : Prop :=
  ∀ (s : State) (w : Word) (i : Instr), s.pc ≠ s.endPc → s.fetch = .ok w → decode w = .ok i → step s = exec i s

/-- The two fetch faults, exactly: the run has not ended, and the pc is misaligned, or aligned and outside the text
(20_memory.md R48; 60_exceptions.md R187). Derived: decisions D19, D22, D41. -/
def Obligations.FetchFaultsExactly : Prop :=
  ∀ (s : State) (x : Word),
    (step s = .fault (.misalignedFetch x) ↔ s.pc ≠ s.endPc ∧ s.pc.toNat % 4 ≠ 0 ∧ x = s.pc) ∧
    (step s = .fault (.fetchFault x) ↔
      s.pc ≠ s.endPc ∧ s.pc.toNat % 4 = 0 ∧ s.inText s.pc = false ∧ x = s.pc)

/-- A step raises `IllegalInstruction` exactly for a fetched word that decodes to nothing, and records the word
(60_exceptions.md R182, R183). Derived: decisions D4, D6, D7. -/
def Obligations.IllegalInstructionExactly : Prop :=
  ∀ (s : State) (x : Word),
    step s = .fault (.illegalInstruction x) ↔ s.pc ≠ s.endPc ∧ s.fetch = .ok x ∧ ∃ e, decode x = .error e

/-- A well-formed instruction raises `UninitialisedRead` of a register exactly for the first unwritten one among those
it reads, in the order `rs1`, then `rs2` or `st`'s `rd`, and of the flags exactly when it is `beq` or `bgt` and they are
unwritten (60_exceptions.md R185, R187; 10_state.md R30, R32). Derived: decisions D25, D41. -/
def Obligations.UninitialisedReadsExactly : Prop :=
  ∀ (i : Instr) (s : State), i.wellFormed = true →
    (∀ r, exec i s = .fault (.uninitialisedRead (.reg r)) ↔
      i.sources.find? (fun q => !s.regsWritten[q]) = some r) ∧
    (exec i s = .fault (.uninitialisedRead .flags) ↔ i.readsFlags = true ∧ s.flagsWritten = false)

/-- A step is refused exactly at `END_PC`, as the normal end of the run; no instruction is refused (R203). Derived:
decision D26; answering the end as a refusal is the model's choice (entry 9). -/
def Obligations.StepEndsOnlyAtEndPc : Prop :=
  (∀ (s : State) (q : Refusal), step s = .refused q ↔ s.pc = s.endPc ∧ q = .endedNormally) ∧
  (∀ (i : Instr) (s : State) (q : Refusal), exec i s ≠ .refused q)

/-- A term that is not well formed stands for no instruction: its word does not decode, and its meaning is the fault
that its word raises. The meaning is the model's choice (entry 8). Derived (30_encoding.md R78, decision D4). -/
def Obligations.IllFormedTermsAreIllegal : Prop :=
  ∀ (i : Instr) (s : State), i.wellFormed = false →
    decode (encode i) = .error .reservedModifier ∧ exec i s = .fault (.illegalInstruction (encode i))

/-- A word placed by `withFetchWord` is the one that the next step runs, from every state. The placing is the model's
choice (entry 1). -/
def Obligations.PlacedWordRunsNext : Prop :=
  ∀ (s : State) (w : Word) (i : Instr), decode w = .ok i →
    decodeTableWord 32 w.toNat = some i ∧
    step (s.withFetchWord 32 w.toNat) = exec i (s.withFetchWord 32 w.toNat) ∧
    (s.withFetchWord 32 w.toNat).regs = s.regs ∧ (s.withFetchWord 32 w.toNat).flags = s.flags ∧
    (s.withFetchWord 32 w.toNat).mem = s.mem

/-! ## Launch, reset, invariant, runs (70_reset_and_hazards.md) -/

/-- What State.reset holds. The spec gives no reset (R200): every value is the model's choice of launch
(entries 1, 3, 4, 5, 6). -/
def Obligations.ResetValues : Prop :=
  (∀ r : Reg, State.reset.readReg r = .ok 0#32) ∧
  State.reset.readFlags = .ok { e := false, gt := false } ∧
  State.reset.pc = 0#32 ∧ State.reset.textBase = 0#32 ∧ State.reset.endPc = 0#32 ∧ State.reset.text = [] ∧
  State.reset.config = { divFn := .standard, modFn := .standard, shiftOor := .fault } ∧
  (∀ a : Word, a.toNat % 4 = 0 →
    State.reset.admitted a = true ∧ State.reset.memRead a = .error (.uninitialisedRead (.mem a)))

/-- The state that a well-formed launch starts holds what R201 says, and the parameters of the run: the pc, the text,
`END_PC`, the configuration; the registers of `LAUNCH_REGS` and no other; the flags unwritten where `l.flags = none`, as
it is for every launch of the spec (entry 5); the data words as `DATA` gives them; and an address outside `domain(DATA)`
is no memory. Derived: decisions D22, D24, D25. -/
def Obligations.LaunchStateValues : Prop :=
  ∀ l : Launch, l.wellFormed = true →
    l.start.pc = l.entryPc ∧ l.start.text = l.text ∧ l.start.textBase = l.textBase ∧ l.start.endPc = l.endPc ∧
    l.start.dataMap = l.dataMap ∧ l.start.config = l.config ∧
    (∀ p ∈ l.regs, l.start.readReg p.1 = .ok p.2) ∧
    (∀ r, r ∉ l.regs.map Prod.fst → l.start.readReg r = .error (.uninitialisedRead (.reg r))) ∧
    (l.flags = none → l.start.readFlags = .error (.uninitialisedRead .flags)) ∧
    (∀ a : Word, l.start.admitted a = true ↔ ∃ r ∈ l.dataMap, inRegion r a.toNat = true) ∧
    (∀ p ∈ l.contents, l.start.memRead p.1 = .ok p.2) ∧
    (∀ a : Word, (∃ r ∈ l.dataMap, inRegion r a.toNat = true) → a ∉ l.contents.map Prod.fst →
      l.start.memRead a = .error (.uninitialisedRead (.mem a))) ∧
    (∀ a v : Word, a.toNat % 4 = 0 → (∀ r ∈ l.dataMap, inRegion r a.toNat = false) →
      l.start.memRead a = .error (.accessFault a) ∧ l.start.memWrite a v = .error (.accessFault a))

/-- The reset state has the invariant. -/
def Obligations.ResetHasTheInvariant : Prop := State.reset.Inv

/-- Every well-formed launch whose flags, if it gives any, are not both 1 starts a state that has the invariant. No
launch of the spec gives the flags a value (entry 5). -/
def Obligations.LaunchEstablishesTheInvariant : Prop :=
  ∀ l : Launch, l.wellFormed = true → (∀ f, l.flags = some f → f.consistent = true) → l.start.Inv

/-- Every step keeps the invariant: the memory's canonical form, values at admitted words only and in whole words, and
flags that are never both 1 (20_memory.md R42, R43; 40_arithmetic.md R106). -/
def Obligations.StepKeepsTheInvariant : Prop :=
  ∀ s t : State, s.Inv → step s = .next t → t.Inv

/-- Every run ends in exactly one way: normally, in one final state; in one model fault; or not at all
(60_exceptions.md R181; R203, R204, R208). Derived: decisions D26, D27; entry 9. -/
def Obligations.EveryRunEndsInOneWay : Prop :=
  ∀ s : State,
    ((∃ t, EndsNormally s t) ∨ (∃ f, EndsInFault s f) ∨ Hangs s) ∧
    (∀ t u, EndsNormally s t → EndsNormally s u → t = u) ∧
    (∀ f g, EndsInFault s f → EndsInFault s g → f = g) ∧
    (∀ t f, EndsNormally s t → ¬ EndsInFault s f) ∧
    (∀ t, EndsNormally s t → ¬ Hangs s) ∧
    (∀ f, EndsInFault s f → ¬ Hangs s)

/-! ## Assembly (30_encoding.md section 5) -/

/-- In an assembled program each branch reaches its label, wherever the text stands: the label is defined at one place,
the word at the branch's position is that of the branch with some offset, and the machine's target for that offset, from
the branch's address, is the address of the instruction that follows the label (R84, R75). And the arithmetic of it: any
offset that `asmOffset` gives two positions leads from the one to the other. Derived: decisions D11, D33 (entries 14,
17). -/
def Obligations.AssembledBranchReachesItsLabel : Prop :=
  (∀ (p pre post : List Item) (op : OpBranch) (l : List Char) (ws : List Word) (base : Word),
    assemble p = .ok ws → p = pre ++ .instr (.branch op l) :: post →
    ∃ (o : BitVec 27) (before behind : List Item),
      p = before ++ .label l :: behind ∧ Item.label l ∉ before ∧ Item.label l ∉ behind ∧
      (∃ w, ws[instrCount pre]? = some w ∧ decode w = .ok (op.row o)) ∧
      branchTarget (base + BitVec.ofNat 32 (4 * instrCount pre)) o =
        base + BitVec.ofNat 32 (4 * instrCount before)) ∧
  (∀ (target here : Nat) (o : BitVec 27) (base : Word), asmOffset target here = .ok o →
    branchTarget (base + BitVec.ofNat 32 (4 * here)) o = base + BitVec.ofNat 32 (4 * target))

/-- Every word of an assembled program is legal and has its ignored bits 0, and there is one for each instruction
of the program (R76, R84). Derived: decisions D5, D33 (entry 17). -/
def Obligations.AssembledProgramsAreLegal : Prop :=
  ∀ (p : List Item) (ws : List Word), assemble p = .ok ws →
    (∀ w ∈ ws, ∃ i, decode w = .ok i ∧ encode i = w) ∧
    ws.length = (p.filter (fun x => match x with | .instr _ => true | .label _ => false)).length
end

