-- ==== Sys2Proof/Laws/Assembler.lean ====
section
/-! SUPPORT. What the assembler's passes over a program can answer. -/

namespace Sys2Proof.Machine

@[simp] theorem instrCount_nil : instrCount [] = 0 := rfl
@[simp] theorem instrCount_label (n : List Char) (p : List Item) : instrCount (.label n :: p) = instrCount p := rfl
@[simp] theorem instrCount_instr (a : Asm) (p : List Item) : instrCount (.instr a :: p) = instrCount p + 1 := rfl

/-- A label's position is found where the table lists it once. -/
theorem findLabel_ok {table : List (List Char × Nat)} {n : List Char} {k : Nat} (h : findLabel table n = .ok k) :
    ∃ m, table.filter (fun p => p.1 == n) = [(m, k)] := by
  unfold findLabel at h
  split at h
  · rename_i p hp
    cases h
    exact ⟨p.1, hp⟩
  · cases h

/-- A label in a table once is defined at one place, and its position counts the instructions before it. -/
theorem labelTable_once {n m : List Char} {p : List Item} {k j : Nat}
    (h : (labelTable k p).filter (fun q => q.1 == n) = [(m, j)]) :
    ∃ before behind, p = before ++ .label n :: behind ∧ j = k + instrCount before := by
  induction p generalizing k with
  | nil => cases h
  | cons x p ih =>
    cases x with
    | label l =>
      by_cases e : l = n
      · subst e
        simp only [labelTable, List.filter_cons, beq_self_eq_true, if_true, List.cons.injEq, Prod.mk.injEq] at h
        exact ⟨[], p, rfl, h.1.2.symm⟩
      · have hne : ¬ (l == n) = true := by simpa using e
        simp only [labelTable, List.filter_cons, hne] at h
        obtain ⟨before, behind, rfl, h2⟩ := ih h
        exact ⟨.label l :: before, behind, rfl, h2⟩
    | instr a =>
      obtain ⟨before, behind, rfl, h2⟩ := ih (k := k + 1) h
      exact ⟨.instr a :: before, behind, rfl, by rw [h2, instrCount_instr]; omega⟩

/-- The label is in a table exactly where the program defines it. -/
theorem labelTable_none (n : List Char) (p : List Item) (k : Nat) :
    (labelTable k p).filter (fun q => q.1 == n) = [] ↔ Item.label n ∉ p := by
  induction p generalizing k with
  | nil => simp [labelTable]
  | cons x p ih =>
    cases x with
    | label l =>
      by_cases e : l = n
      · subst e
        simp [labelTable]
      · have e' : n ≠ l := fun h => e h.symm
        simp only [labelTable, List.filter_cons, beq_iff_eq, e, if_false, ih, List.mem_cons, Item.label.injEq, e',
          false_or]
    | instr a => simp [labelTable, ih]

end Sys2Proof.Machine
end

