-- ==== Sys2Proof/Laws/Decode.lean ====
section
/-! SUPPORT. The fields of a word in each format, for later proofs to cite instead of unfolding the encoder. -/

namespace Sys2Proof

@[simp] theorem regOfBits_bitsOfReg (r : Reg) : regOfBits (bitsOfReg r) = r := rfl
@[simp] theorem bitsOfReg_regOfBits (b : BitVec 4) : bitsOfReg (regOfBits b) = b := rfl

/-! ## The opcode -/

theorem opField_regWord (op : BitVec 5) (rd rs1 rs2 : Reg) : opField (regWord op rd rs1 rs2) = op := by
  apply BitVec.eq_of_getLsbD_eq
  intro i hi
  simp only [opField, regWord, BitVec.getLsbD_extractLsb', BitVec.getLsbD_append]
  rw [if_neg (by omega), if_neg (by omega), if_neg (by omega), if_neg (by omega), if_neg (by omega),
    decide_eq_true hi, Bool.true_and]
  congr 1
  omega

theorem opField_immWord (op : BitVec 5) (rd rs1 : Reg) (m : BitVec 2) (v : BitVec 16) :
    opField (immWord op rd rs1 m v) = op := by
  apply BitVec.eq_of_getLsbD_eq
  intro i hi
  simp only [opField, immWord, BitVec.getLsbD_extractLsb', BitVec.getLsbD_append]
  rw [if_neg (by omega), if_neg (by omega), if_neg (by omega), if_neg (by omega), if_neg (by omega),
    decide_eq_true hi, Bool.true_and]
  congr 1
  omega

theorem opField_branchWord (op : BitVec 5) (o : BitVec 27) : opField (branchWord op o) = op := by
  apply BitVec.eq_of_getLsbD_eq
  intro i hi
  simp only [opField, branchWord, BitVec.getLsbD_extractLsb', BitVec.getLsbD_append]
  rw [if_neg (by omega), decide_eq_true hi, Bool.true_and]
  congr 1
  omega

/-! ## The fields of the register format -/

theorem immBit_regWord (op : BitVec 5) (rd rs1 rs2 : Reg) : immBit (regWord op rd rs1 rs2) = false := by
  simp only [immBit, regWord, BitVec.getLsbD_append]
  rw [if_neg (by omega), if_neg (by omega), if_neg (by omega), if_neg (by omega), if_pos (by omega)]
  rfl

theorem rdField_regWord (op : BitVec 5) (rd rs1 rs2 : Reg) : rdField (regWord op rd rs1 rs2) = rd := by
  have h : (regWord op rd rs1 rs2).extractLsb' 22 4 = bitsOfReg rd := by
    apply BitVec.eq_of_getLsbD_eq
    intro i hi
    simp only [regWord, BitVec.getLsbD_extractLsb', BitVec.getLsbD_append]
    rw [if_neg (by omega), if_neg (by omega), if_neg (by omega), if_pos (by omega), decide_eq_true hi, Bool.true_and]
    congr 1
    omega
  simp [rdField, h]

theorem rs1Field_regWord (op : BitVec 5) (rd rs1 rs2 : Reg) : rs1Field (regWord op rd rs1 rs2) = rs1 := by
  have h : (regWord op rd rs1 rs2).extractLsb' 18 4 = bitsOfReg rs1 := by
    apply BitVec.eq_of_getLsbD_eq
    intro i hi
    simp only [regWord, BitVec.getLsbD_extractLsb', BitVec.getLsbD_append]
    rw [if_neg (by omega), if_neg (by omega), if_pos (by omega), decide_eq_true hi, Bool.true_and]
    congr 1
    omega
  simp [rs1Field, h]

theorem rs2Field_regWord (op : BitVec 5) (rd rs1 rs2 : Reg) : rs2Field (regWord op rd rs1 rs2) = rs2 := by
  have h : (regWord op rd rs1 rs2).extractLsb' 14 4 = bitsOfReg rs2 := by
    apply BitVec.eq_of_getLsbD_eq
    intro i hi
    simp only [regWord, BitVec.getLsbD_extractLsb', BitVec.getLsbD_append]
    rw [if_neg (by omega), if_pos (by omega), decide_eq_true hi, Bool.true_and]
    congr 1
    omega
  simp [rs2Field, h]

/-! ## The bits of the register format that belong to no field -/

/-- Bits from 14 up are those of `w` (30_encoding.md R76). -/
theorem getLsbD_or_low14 (w : Word) (junk : BitVec 14) {k : Nat} (h : 14 ≤ k) :
    (w ||| junk.setWidth 32).getLsbD k = w.getLsbD k := by
  have h' : junk.getLsbD k = false := BitVec.getLsbD_of_ge junk k h
  simp [h']

theorem extractLsb'_or_low14 (w : Word) (junk : BitVec 14) {k n : Nat} (h : 14 ≤ k) :
    (w ||| junk.setWidth 32).extractLsb' k n = w.extractLsb' k n := by
  apply BitVec.eq_of_getLsbD_eq
  intro i _
  rw [BitVec.getLsbD_extractLsb', BitVec.getLsbD_extractLsb', getLsbD_or_low14 w junk (by omega)]

theorem opField_or_low14 (w : Word) (junk : BitVec 14) : opField (w ||| junk.setWidth 32) = opField w :=
  extractLsb'_or_low14 w junk (by omega)

theorem immBit_or_low14 (w : Word) (junk : BitVec 14) : immBit (w ||| junk.setWidth 32) = immBit w :=
  getLsbD_or_low14 w junk (by omega)

theorem rdField_or_low14 (w : Word) (junk : BitVec 14) : rdField (w ||| junk.setWidth 32) = rdField w :=
  congrArg regOfBits (extractLsb'_or_low14 w junk (by omega))

theorem rs1Field_or_low14 (w : Word) (junk : BitVec 14) : rs1Field (w ||| junk.setWidth 32) = rs1Field w :=
  congrArg regOfBits (extractLsb'_or_low14 w junk (by omega))

theorem rs2Field_or_low14 (w : Word) (junk : BitVec 14) : rs2Field (w ||| junk.setWidth 32) = rs2Field w :=
  congrArg regOfBits (extractLsb'_or_low14 w junk (by omega))

/-! ## The fields of the immediate format -/

theorem immBit_immWord (op : BitVec 5) (rd rs1 : Reg) (m : BitVec 2) (v : BitVec 16) :
    immBit (immWord op rd rs1 m v) = true := by
  simp only [immBit, immWord, BitVec.getLsbD_append]
  rw [if_neg (by omega), if_neg (by omega), if_neg (by omega), if_neg (by omega), if_pos (by omega)]
  rfl

theorem rdField_immWord (op : BitVec 5) (rd rs1 : Reg) (m : BitVec 2) (v : BitVec 16) :
    rdField (immWord op rd rs1 m v) = rd := by
  have h : (immWord op rd rs1 m v).extractLsb' 22 4 = bitsOfReg rd := by
    apply BitVec.eq_of_getLsbD_eq
    intro i hi
    simp only [immWord, BitVec.getLsbD_extractLsb', BitVec.getLsbD_append]
    rw [if_neg (by omega), if_neg (by omega), if_neg (by omega), if_pos (by omega), decide_eq_true hi, Bool.true_and]
    congr 1
    omega
  simp [rdField, h]

theorem rs1Field_immWord (op : BitVec 5) (rd rs1 : Reg) (m : BitVec 2) (v : BitVec 16) :
    rs1Field (immWord op rd rs1 m v) = rs1 := by
  have h : (immWord op rd rs1 m v).extractLsb' 18 4 = bitsOfReg rs1 := by
    apply BitVec.eq_of_getLsbD_eq
    intro i hi
    simp only [immWord, BitVec.getLsbD_extractLsb', BitVec.getLsbD_append]
    rw [if_neg (by omega), if_neg (by omega), if_pos (by omega), decide_eq_true hi, Bool.true_and]
    congr 1
    omega
  simp [rs1Field, h]

theorem modField_immWord (op : BitVec 5) (rd rs1 : Reg) (m : BitVec 2) (v : BitVec 16) :
    modField (immWord op rd rs1 m v) = m := by
  apply BitVec.eq_of_getLsbD_eq
  intro i hi
  simp only [modField, immWord, BitVec.getLsbD_extractLsb', BitVec.getLsbD_append]
  rw [if_neg (by omega), if_pos (by omega), decide_eq_true hi, Bool.true_and]
  congr 1
  omega

theorem imm16Field_immWord (op : BitVec 5) (rd rs1 : Reg) (m : BitVec 2) (v : BitVec 16) :
    imm16Field (immWord op rd rs1 m v) = v := by
  apply BitVec.eq_of_getLsbD_eq
  intro i hi
  simp only [imm16Field, immWord, BitVec.getLsbD_extractLsb', BitVec.getLsbD_append]
  rw [if_pos (by omega), decide_eq_true hi, Bool.true_and]
  congr 1
  omega

/-! ## The field of the branch format -/

theorem offsetField_branchWord (op : BitVec 5) (o : BitVec 27) : offsetField (branchWord op o) = o := by
  apply BitVec.eq_of_getLsbD_eq
  intro i hi
  simp only [offsetField, branchWord, BitVec.getLsbD_extractLsb', BitVec.getLsbD_append]
  rw [if_pos (by omega), decide_eq_true hi, Bool.true_and]
  congr 1
  omega

/-! ## Words as bytes -/

/-- A word laid out as bytes is read back (20_memory.md R45). -/
theorem decodeBytes_bytesOfWord (w : Word) (rest : List Byte) :
    decodeBytes (bytesOfWord w ++ rest) = some (decode w, rest) := by
  have h : wordOfBytes (w.extractLsb' 0 8) (w.extractLsb' 8 8) (w.extractLsb' 16 8) (w.extractLsb' 24 8) = w := by
    apply BitVec.eq_of_getLsbD_eq
    intro i hi
    simp only [wordOfBytes, BitVec.getLsbD_append, BitVec.getLsbD_extractLsb']
    repeat' split
    all_goals
      rw [decide_eq_true (by omega), Bool.true_and]
      congr 1
      omega
  simp [decodeBytes, bytesOfWord, h]

end Sys2Proof
end

