-- ==== Sys2Proof/Laws/Memory.lean ====
section
/-! SUPPORT. The laws of the data memory: a read after a write, and the canonical form kept. -/

namespace Sys2Proof.Machine

/-! ## Cells -/

theorem lookupCell_insertCell_same (l : List Host.Cell) (a : Nat) (b : Byte) :
    lookupCell (insertCell l a b) a = some b := by
  induction l with
  | nil => simp [insertCell, lookupCell]
  | cons c rest ih =>
    obtain ⟨k, v⟩ := c
    simp only [insertCell]
    split
    · simp [lookupCell]
    · split
      · simp [lookupCell]
      · rename_i h1 h2
        simpa [lookupCell, Ne.symm h2] using ih

theorem lookupCell_insertCell_other (l : List Host.Cell) {a c : Nat} (b : Byte) (h : c ≠ a) :
    lookupCell (insertCell l a b) c = lookupCell l c := by
  induction l with
  | nil => simp [insertCell, lookupCell, Ne.symm h]
  | cons p rest ih =>
    obtain ⟨k, v⟩ := p
    simp only [insertCell]
    split
    · simp [lookupCell, Ne.symm h]
    · split
      · rename_i h1 h2
        subst h2
        simp [lookupCell, Ne.symm h]
      · simp [lookupCell, ih]

/-- The addresses after an insertion are the ones before it and the new one. -/
theorem mem_insertCell (l : List Host.Cell) (a : Nat) (b : Byte) (c : Host.Cell) (h : c ∈ insertCell l a b) :
    c.1 = a ∨ c ∈ l := by
  induction l with
  | nil => simp_all [insertCell]
  | cons p rest ih =>
    obtain ⟨k, v⟩ := p
    simp only [insertCell] at h
    split at h
    · rcases List.mem_cons.1 h with h | h
      · exact .inl (by simp [h])
      · exact .inr h
    · split at h
      · rcases List.mem_cons.1 h with h | h
        · exact .inl (by simp [h])
        · exact .inr (List.mem_cons_of_mem _ h)
      · rcases List.mem_cons.1 h with h | h
        · exact .inr (by simp [h])
        · exact (ih h).imp id (List.mem_cons_of_mem _)

/-- An insertion keeps the addresses strictly rising. -/
theorem insertCell_pairwise (l : List Host.Cell) (a : Nat) (b : Byte)
    (h : l.Pairwise (fun c d => c.1 < d.1)) : (insertCell l a b).Pairwise (fun c d => c.1 < d.1) := by
  induction l with
  | nil => simp [insertCell]
  | cons p rest ih =>
    obtain ⟨k, v⟩ := p
    obtain ⟨hk, hr⟩ := List.pairwise_cons.1 h
    simp only [insertCell]
    split
    · rename_i hlt
      refine List.pairwise_cons.2 ⟨fun c hc => ?_, h⟩
      rcases List.mem_cons.1 hc with rfl | hc
      · exact hlt
      · exact lt_trans hlt (hk c hc)
    · split
      · rename_i h1 h2
        subst h2
        exact List.pairwise_cons.2 ⟨hk, hr⟩
      · rename_i h1 h2
        refine List.pairwise_cons.2 ⟨fun c hc => ?_, ih hr⟩
        rcases mem_insertCell rest a b c hc with hc | hc
        · simp only; omega
        · exact hk c hc

/-! ## Bytes -/

@[simp] theorem Memory.readByte_writeByte_same (m : Memory) (a : Nat) (b : Byte) :
    (m.writeByte a b).readByte a = some b := lookupCell_insertCell_same ..

theorem Memory.readByte_writeByte_other (m : Memory) {a c : Nat} (b : Byte) (h : c ≠ a) :
    (m.writeByte a b).readByte c = m.readByte c := lookupCell_insertCell_other _ _ h

/-- What one byte write does to a read of any byte. -/
theorem Memory.readByte_writeByte (m : Memory) (a c : Nat) (b : Byte) :
    (m.writeByte a b).readByte c = if c = a then some b else m.readByte c := by
  split
  · next h => rw [h, Memory.readByte_writeByte_same]
  · next h => exact Memory.readByte_writeByte_other _ _ h

/-- The canonical form, as a proposition. -/
theorem Memory.wf_iff (m : Memory) : m.wf = true ↔
    m.cells.Pairwise (fun c d => c.1 < d.1) ∧ ∀ c ∈ m.cells, c.1 < 2 ^ 32 := by
  simp [Memory.wf]

/-- Writing a byte at a 32-bit address keeps the canonical form. -/
theorem Memory.wf_writeByte {m : Memory} {a : Nat} (b : Byte) (ha : a < 2 ^ 32) (h : m.wf = true) :
    (m.writeByte a b).wf = true := by
  rw [Memory.wf_iff] at h ⊢
  refine ⟨insertCell_pairwise _ _ _ h.1, fun c hc => ?_⟩
  rcases mem_insertCell _ _ _ _ hc with hc | hc
  · omega
  · exact h.2 c hc

/-! ## Words -/

/-- Writing a word below the top of the address space keeps the canonical form. -/
theorem Memory.wf_writeWord {m : Memory} {a : Nat} (v : Word) (ha : a + 3 < 2 ^ 32) (h : m.wf = true) :
    (m.writeWord a v).wf = true :=
  Memory.wf_writeByte _ (by omega) (Memory.wf_writeByte _ (by omega)
    (Memory.wf_writeByte _ (by omega) (Memory.wf_writeByte _ (by omega) h)))

/-- The memory of State.reset has the canonical form. -/
theorem State.reset_mem_wf : State.reset.mem.wf = true := by decide

/-- What a word write does to a read of any byte: the four bytes in little-endian order, and no other
(20_memory.md R45). -/
theorem Memory.readByte_writeWord (m : Memory) (a c : Nat) (v : Word) :
    (m.writeWord a v).readByte c =
      if c = a + 3 then some (v.extractLsb' 24 8)
      else if c = a + 2 then some (v.extractLsb' 16 8)
      else if c = a + 1 then some (v.extractLsb' 8 8)
      else if c = a then some (v.extractLsb' 0 8)
      else m.readByte c := by
  simp only [Memory.writeWord, Memory.readByte_writeByte]

/-- The four bytes of a word put together again are the word. -/
theorem word_of_bytes (v : Word) :
    (v.extractLsb' 24 8 ++ v.extractLsb' 16 8 ++ v.extractLsb' 8 8 ++ v.extractLsb' 0 8 : BitVec 32) = v := by
  apply BitVec.eq_of_getLsbD_eq
  intro i hi
  simp only [BitVec.getLsbD_append, BitVec.getLsbD_extractLsb']
  repeat' split
  all_goals
    rw [decide_eq_true (by omega), Bool.true_and]
    congr 1
    omega

theorem Memory.readWord_writeWord_same (m : Memory) (a : Nat) (v : Word) :
    (m.writeWord a v).readWord a = some v := by
  simp [Memory.readWord, Memory.readByte_writeWord, word_of_bytes]

/-- A word write leaves every word that does not overlap it alone. -/
theorem Memory.readWord_writeWord_other (m : Memory) {a c : Nat} (v : Word) (h : c + 3 < a ∨ a + 3 < c) :
    (m.writeWord a v).readWord c = m.readWord c := by
  have hb : ∀ k, k < 4 → (m.writeWord a v).readByte (c + k) = m.readByte (c + k) := by
    intro k hk
    rw [Memory.readByte_writeWord, if_neg (by omega), if_neg (by omega), if_neg (by omega), if_neg (by omega)]
  have h0 := hb 0 (by omega)
  have h1 := hb 1 (by omega)
  have h2 := hb 2 (by omega)
  have h3 := hb 3 (by omega)
  simp only [Nat.add_zero] at h0
  simp [Memory.readWord, h0, h1, h2, h3]

end Sys2Proof.Machine
end

