-- ==== Sys2Proof/Laws/State.lean ====
section
/-! SUPPORT. One lemma a field for every update of the state, so that no later proof unfolds a record update. -/

namespace Sys2Proof.Machine

/-! ## writeReg -/

@[simp] theorem State.writeReg_regs (s : State) (r : Reg) (v : Word) :
    (s.writeReg r v).regs = s.regs.set r v := rfl
@[simp] theorem State.writeReg_regsWritten (s : State) (r : Reg) (v : Word) :
    (s.writeReg r v).regsWritten = s.regsWritten.set r true := rfl
@[simp] theorem State.writeReg_pc (s : State) (r : Reg) (v : Word) : (s.writeReg r v).pc = s.pc := rfl
@[simp] theorem State.writeReg_flags (s : State) (r : Reg) (v : Word) : (s.writeReg r v).flags = s.flags := rfl
@[simp] theorem State.writeReg_flagsWritten (s : State) (r : Reg) (v : Word) :
    (s.writeReg r v).flagsWritten = s.flagsWritten := rfl
@[simp] theorem State.writeReg_mem (s : State) (r : Reg) (v : Word) : (s.writeReg r v).mem = s.mem := rfl
@[simp] theorem State.writeReg_dataMap (s : State) (r : Reg) (v : Word) :
    (s.writeReg r v).dataMap = s.dataMap := rfl
@[simp] theorem State.writeReg_textBase (s : State) (r : Reg) (v : Word) :
    (s.writeReg r v).textBase = s.textBase := rfl
@[simp] theorem State.writeReg_text (s : State) (r : Reg) (v : Word) : (s.writeReg r v).text = s.text := rfl
@[simp] theorem State.writeReg_endPc (s : State) (r : Reg) (v : Word) : (s.writeReg r v).endPc = s.endPc := rfl
@[simp] theorem State.writeReg_config (s : State) (r : Reg) (v : Word) : (s.writeReg r v).config = s.config := rfl

/-! ## writeFlags -/

@[simp] theorem State.writeFlags_regs (s : State) (f : Flags) : (s.writeFlags f).regs = s.regs := rfl
@[simp] theorem State.writeFlags_regsWritten (s : State) (f : Flags) :
    (s.writeFlags f).regsWritten = s.regsWritten := rfl
@[simp] theorem State.writeFlags_pc (s : State) (f : Flags) : (s.writeFlags f).pc = s.pc := rfl
@[simp] theorem State.writeFlags_flags (s : State) (f : Flags) : (s.writeFlags f).flags = f := rfl
@[simp] theorem State.writeFlags_flagsWritten (s : State) (f : Flags) : (s.writeFlags f).flagsWritten = true := rfl
@[simp] theorem State.writeFlags_mem (s : State) (f : Flags) : (s.writeFlags f).mem = s.mem := rfl
@[simp] theorem State.writeFlags_dataMap (s : State) (f : Flags) : (s.writeFlags f).dataMap = s.dataMap := rfl
@[simp] theorem State.writeFlags_textBase (s : State) (f : Flags) : (s.writeFlags f).textBase = s.textBase := rfl
@[simp] theorem State.writeFlags_text (s : State) (f : Flags) : (s.writeFlags f).text = s.text := rfl
@[simp] theorem State.writeFlags_endPc (s : State) (f : Flags) : (s.writeFlags f).endPc = s.endPc := rfl
@[simp] theorem State.writeFlags_config (s : State) (f : Flags) : (s.writeFlags f).config = s.config := rfl

/-! ## setMem -/

@[simp] theorem State.setMem_regs (s : State) (m : Memory) : (s.setMem m).regs = s.regs := rfl
@[simp] theorem State.setMem_regsWritten (s : State) (m : Memory) : (s.setMem m).regsWritten = s.regsWritten := rfl
@[simp] theorem State.setMem_pc (s : State) (m : Memory) : (s.setMem m).pc = s.pc := rfl
@[simp] theorem State.setMem_flags (s : State) (m : Memory) : (s.setMem m).flags = s.flags := rfl
@[simp] theorem State.setMem_flagsWritten (s : State) (m : Memory) : (s.setMem m).flagsWritten = s.flagsWritten := rfl
@[simp] theorem State.setMem_mem (s : State) (m : Memory) : (s.setMem m).mem = m := rfl
@[simp] theorem State.setMem_dataMap (s : State) (m : Memory) : (s.setMem m).dataMap = s.dataMap := rfl
@[simp] theorem State.setMem_textBase (s : State) (m : Memory) : (s.setMem m).textBase = s.textBase := rfl
@[simp] theorem State.setMem_text (s : State) (m : Memory) : (s.setMem m).text = s.text := rfl
@[simp] theorem State.setMem_endPc (s : State) (m : Memory) : (s.setMem m).endPc = s.endPc := rfl
@[simp] theorem State.setMem_config (s : State) (m : Memory) : (s.setMem m).config = s.config := rfl

/-! ## setPc and advance -/

@[simp] theorem State.setPc_regs (s : State) (t : Word) : (s.setPc t).regs = s.regs := rfl
@[simp] theorem State.setPc_regsWritten (s : State) (t : Word) : (s.setPc t).regsWritten = s.regsWritten := rfl
@[simp] theorem State.setPc_pc (s : State) (t : Word) : (s.setPc t).pc = t := rfl
@[simp] theorem State.setPc_flags (s : State) (t : Word) : (s.setPc t).flags = s.flags := rfl
@[simp] theorem State.setPc_flagsWritten (s : State) (t : Word) : (s.setPc t).flagsWritten = s.flagsWritten := rfl
@[simp] theorem State.setPc_mem (s : State) (t : Word) : (s.setPc t).mem = s.mem := rfl
@[simp] theorem State.setPc_dataMap (s : State) (t : Word) : (s.setPc t).dataMap = s.dataMap := rfl
@[simp] theorem State.setPc_textBase (s : State) (t : Word) : (s.setPc t).textBase = s.textBase := rfl
@[simp] theorem State.setPc_text (s : State) (t : Word) : (s.setPc t).text = s.text := rfl
@[simp] theorem State.setPc_endPc (s : State) (t : Word) : (s.setPc t).endPc = s.endPc := rfl
@[simp] theorem State.setPc_config (s : State) (t : Word) : (s.setPc t).config = s.config := rfl

@[simp] theorem State.advance_regs (s : State) : s.advance.regs = s.regs := rfl
@[simp] theorem State.advance_regsWritten (s : State) : s.advance.regsWritten = s.regsWritten := rfl
@[simp] theorem State.advance_pc (s : State) : s.advance.pc = s.pc + 4#32 := rfl
@[simp] theorem State.advance_flags (s : State) : s.advance.flags = s.flags := rfl
@[simp] theorem State.advance_flagsWritten (s : State) : s.advance.flagsWritten = s.flagsWritten := rfl
@[simp] theorem State.advance_mem (s : State) : s.advance.mem = s.mem := rfl
@[simp] theorem State.advance_dataMap (s : State) : s.advance.dataMap = s.dataMap := rfl
@[simp] theorem State.advance_textBase (s : State) : s.advance.textBase = s.textBase := rfl
@[simp] theorem State.advance_text (s : State) : s.advance.text = s.text := rfl
@[simp] theorem State.advance_endPc (s : State) : s.advance.endPc = s.endPc := rfl
@[simp] theorem State.advance_config (s : State) : s.advance.config = s.config := rfl

/-! ## putReg -/

@[simp] theorem State.putReg_regs (s : State) (r : Reg) (v : Word) (w : Bool) :
    (s.putReg r v w).regs = s.regs.set r v := rfl
@[simp] theorem State.putReg_regsWritten (s : State) (r : Reg) (v : Word) (w : Bool) :
    (s.putReg r v w).regsWritten = s.regsWritten.set r w := rfl
@[simp] theorem State.putReg_pc (s : State) (r : Reg) (v : Word) (w : Bool) : (s.putReg r v w).pc = s.pc := rfl
@[simp] theorem State.putReg_flags (s : State) (r : Reg) (v : Word) (w : Bool) :
    (s.putReg r v w).flags = s.flags := rfl
@[simp] theorem State.putReg_flagsWritten (s : State) (r : Reg) (v : Word) (w : Bool) :
    (s.putReg r v w).flagsWritten = s.flagsWritten := rfl
@[simp] theorem State.putReg_mem (s : State) (r : Reg) (v : Word) (w : Bool) : (s.putReg r v w).mem = s.mem := rfl
@[simp] theorem State.putReg_dataMap (s : State) (r : Reg) (v : Word) (w : Bool) :
    (s.putReg r v w).dataMap = s.dataMap := rfl
@[simp] theorem State.putReg_textBase (s : State) (r : Reg) (v : Word) (w : Bool) :
    (s.putReg r v w).textBase = s.textBase := rfl
@[simp] theorem State.putReg_text (s : State) (r : Reg) (v : Word) (w : Bool) :
    (s.putReg r v w).text = s.text := rfl
@[simp] theorem State.putReg_endPc (s : State) (r : Reg) (v : Word) (w : Bool) :
    (s.putReg r v w).endPc = s.endPc := rfl
@[simp] theorem State.putReg_config (s : State) (r : Reg) (v : Word) (w : Bool) :
    (s.putReg r v w).config = s.config := rfl

/-! ## What depends on the run's parameters alone -/

/-- The text range depends on the text alone. -/
theorem State.inText_congr {s t : State} (hb : t.textBase = s.textBase) (ht : t.text = s.text) (a : Word) :
    t.inText a = s.inText a := by simp [State.inText, hb, ht]

/-- The admitted words depend on the address map and the text alone. -/
theorem State.admitted_congr {s t : State} (hd : t.dataMap = s.dataMap) (hb : t.textBase = s.textBase)
    (ht : t.text = s.text) (a : Word) : t.admitted a = s.admitted a := by
  simp [State.admitted, hd, State.inText_congr hb ht]

end Sys2Proof.Machine
end

