-- ==== Sys2Proof/Laws/Ops.lean ====
section
/-! SUPPORT. For each shared operation, what it does when it answers, and when it faults: once, for later proofs to
cite. -/

namespace Sys2Proof.Machine

/-! ## Model faults -/

@[simp] theorem raise_ne_ok {α : Type} (f : Fault) (x : α) : ¬ (raise f = Except.ok x) := nofun

@[simp] theorem raise_eq_error {α : Type} (f g : Fault) : (raise f : Except Fault α) = .error g ↔ g = f := by
  simp [raise, @eq_comm _ g]

@[simp] theorem outcome_ok (t : State) : outcome (.ok t) = .next t := rfl
@[simp] theorem outcome_error (f : Fault) : outcome (.error f) = .fault f := rfl

theorem outcome_next {r : Except Fault State} {t : State} : outcome r = .next t ↔ r = .ok t := by
  cases r <;> simp [outcome]

theorem outcome_fault {r : Except Fault State} {f : Fault} : outcome r = .fault f ↔ r = .error f := by
  cases r <;> simp [outcome]

theorem outcome_not_refused (r : Except Fault State) (q : Refusal) : outcome r ≠ .refused q := by
  cases r <;> simp [outcome]

/-- A chain of operations answers where each of its parts does. -/
theorem bind_ok {α β : Type} {x : Except Fault α} {f : α → Except Fault β} {b : β} :
    (x >>= f) = .ok b ↔ ∃ a, x = .ok a ∧ f a = .ok b := by
  cases x <;> simp [bind, Except.bind]

/-- A chain of operations faults where its first part does, or where the rest does after it. -/
theorem bind_error {α β : Type} {x : Except Fault α} {f : α → Except Fault β} {e : Fault} :
    (x >>= f) = .error e ↔ x = .error e ∨ ∃ a, x = .ok a ∧ f a = .error e := by
  cases x <;> simp [bind, Except.bind]

@[simp] theorem ok_bind {α β : Type} (a : α) (f : α → Except Fault β) : ((.ok a : Except Fault α) >>= f) = f a := rfl

/-! ## Registers and flags -/

theorem State.readReg_ok {s : State} {r : Reg} {v : Word} :
    s.readReg r = .ok v ↔ s.regsWritten[r] = true ∧ s.regs[r] = v := by
  unfold State.readReg
  split <;> simp_all

theorem State.readReg_error {s : State} {r : Reg} {f : Fault} :
    s.readReg r = .error f ↔ s.regsWritten[r] = false ∧ f = .uninitialisedRead (.reg r) := by
  unfold State.readReg
  split <;> simp_all

theorem State.readFlags_ok {s : State} {f : Flags} :
    s.readFlags = .ok f ↔ s.flagsWritten = true ∧ s.flags = f := by
  unfold State.readFlags
  split <;> simp_all

theorem State.readFlags_error {s : State} {f : Fault} :
    s.readFlags = .error f ↔ s.flagsWritten = false ∧ f = .uninitialisedRead .flags := by
  unfold State.readFlags
  split <;> simp_all

/-- No register is hardwired: what is written is read back (10_state.md R22). -/
@[simp] theorem State.readReg_writeReg_same (s : State) (r : Reg) (v : Word) :
    (s.writeReg r v).readReg r = .ok v := by simp [State.readReg]

theorem State.readReg_writeReg_other (s : State) {r q : Reg} (v : Word) (h : q ≠ r) :
    (s.writeReg r v).readReg q = s.readReg q := by
  have h' : (r : Nat) ≠ q := fun e => h (Fin.ext e.symm)
  simp [State.readReg, h']

/-- Reading registers does not see the `pc`. -/
@[simp] theorem State.readReg_setPc (s : State) (t : Word) (r : Reg) : (s.setPc t).readReg r = s.readReg r := rfl
@[simp] theorem State.readReg_advance (s : State) (r : Reg) : s.advance.readReg r = s.readReg r := rfl
@[simp] theorem State.readReg_setMem (s : State) (m : Memory) (r : Reg) :
    (s.setMem m).readReg r = s.readReg r := rfl
@[simp] theorem State.readReg_writeFlags (s : State) (f : Flags) (r : Reg) :
    (s.writeFlags f).readReg r = s.readReg r := rfl

/-! ## The three primitives -/

/-- `MemRead` answers exactly at an aligned, admitted, written word (20_memory.md R46). -/
theorem State.memRead_ok {s : State} {a v : Word} :
    s.memRead a = .ok v ↔ a.toNat % 4 = 0 ∧ s.admitted a = true ∧ s.mem.readWord a.toNat = some v := by
  unfold State.memRead
  split
  · simp_all
  · split
    · simp_all
    · split <;> simp_all

/-- `MemRead` faults in three ways, tested in this order (20_memory.md R46). -/
theorem State.memRead_error {s : State} {a : Word} {f : Fault} :
    s.memRead a = .error f ↔
      (a.toNat % 4 ≠ 0 ∧ f = .misalignedAccess a) ∨
      (a.toNat % 4 = 0 ∧ s.admitted a = false ∧ f = .accessFault a) ∨
      (a.toNat % 4 = 0 ∧ s.admitted a = true ∧ s.mem.readWord a.toNat = none ∧
        f = .uninitialisedRead (.mem a)) := by
  unfold State.memRead
  split
  · simp_all
  · split
    · simp_all
    · split <;> simp_all

/-- `MemWrite` answers exactly at an aligned, admitted word, and changes the data memory alone (20_memory.md R47). -/
theorem State.memWrite_ok {s t : State} {a v : Word} :
    s.memWrite a v = .ok t ↔
      a.toNat % 4 = 0 ∧ s.admitted a = true ∧ t = s.setMem (s.mem.writeWord a.toNat v) := by
  unfold State.memWrite
  split
  · simp_all
  · split
    · simp_all
    · simp_all
      exact eq_comm

/-- `MemWrite` faults in two ways, tested in this order (20_memory.md R47). -/
theorem State.memWrite_error {s : State} {a v : Word} {f : Fault} :
    s.memWrite a v = .error f ↔
      (a.toNat % 4 ≠ 0 ∧ f = .misalignedAccess a) ∨
      (a.toNat % 4 = 0 ∧ s.admitted a = false ∧ f = .accessFault a) := by
  unfold State.memWrite
  split
  · simp_all
  · split <;> simp_all

/-- The text range holds exactly the addresses of its words (20_memory.md R41). -/
theorem State.inText_iff (s : State) (a : Word) :
    s.inText a = true ↔ s.textBase.toNat ≤ a.toNat ∧ a.toNat < s.textBase.toNat + 4 * s.text.length := by
  simp [State.inText]

/-- `Fetch` answers exactly at an aligned text address, with the word there (20_memory.md R48). -/
theorem State.fetch_ok {s : State} {w : Word} :
    s.fetch = .ok w ↔ s.pc.toNat % 4 = 0 ∧ s.inText s.pc = true ∧
      s.text[(s.pc.toNat - s.textBase.toNat) / 4]? = some w := by
  unfold State.fetch
  split
  · simp_all
  · split
    · simp_all
    · split <;> simp_all

/-- `Fetch` faults in two ways, tested in this order (20_memory.md R48). -/
theorem State.fetch_error {s : State} {f : Fault} :
    s.fetch = .error f ↔ (s.pc.toNat % 4 ≠ 0 ∧ f = .misalignedFetch s.pc) ∨
      (s.pc.toNat % 4 = 0 ∧ s.inText s.pc = false ∧ f = .fetchFault s.pc) := by
  unfold State.fetch
  split
  · simp_all
  · split
    · simp_all
    · rename_i h1 h2
      have hin : s.inText s.pc = true := by simpa using h2
      obtain ⟨hlo, hhi⟩ := (State.inText_iff s s.pc).1 hin
      have hk : (s.pc.toNat - s.textBase.toNat) / 4 < s.text.length := by omega
      simp_all

/-! ## Operands -/

/-- The immediate operand answers where the modifier has a meaning (30_encoding.md R68). -/
theorem immOperand_ok {i : Instr} {m : BitVec 2} {v : BitVec 16} {w : Word} :
    immOperand i m v = .ok w ↔ immx m v = some w := by
  unfold immOperand
  split <;> simp_all

theorem immOperand_error {i : Instr} {m : BitVec 2} {v : BitVec 16} {f : Fault} :
    immOperand i m v = .error f ↔ immx m v = none ∧ f = .illegalInstruction (encode i) := by
  unfold immOperand
  split <;> simp_all

/-- The immediate has no value exactly for the reserved modifier (30_encoding.md R78). -/
theorem immx_eq_none {m : BitVec 2} {v : BitVec 16} : immx m v = none ↔ m = 3#2 := by
  have hm : m = 0#2 ∨ m = 1#2 ∨ m = 2#2 ∨ m = 3#2 := by
    revert m
    decide
  rcases hm with rfl | rfl | rfl | rfl <;> simp [immx]

/-- A three-operand register form answers where both registers are written and its operation answers. -/
theorem aluReg_ok {op : Word → Word → Except Fault Word} {rd rs1 rs2 : Reg} {s t : State} :
    aluReg op rd rs1 rs2 s = .ok t ↔ ∃ a b v, s.readReg rs1 = .ok a ∧ s.readReg rs2 = .ok b ∧ op a b = .ok v ∧
      t = (s.writeReg rd v).advance := by
  simp [aluReg, bind_ok, pure, Except.pure, @eq_comm _ t]

/-- A three-operand immediate form answers where its immediate has a value, its register is written and its
operation answers. -/
theorem aluImm_ok {i : Instr} {op : Word → Word → Except Fault Word} {rd rs1 : Reg} {m : BitVec 2} {w : BitVec 16}
    {s t : State} :
    aluImm i op rd rs1 m w s = .ok t ↔ ∃ a b v, immx m w = some b ∧ s.readReg rs1 = .ok a ∧ op a b = .ok v ∧
      t = (s.writeReg rd v).advance := by
  simp only [aluImm, bind_ok, immOperand_ok, pure, Except.pure, Except.ok.injEq]
  constructor
  · rintro ⟨b, hb, a, ha, v, hv, rfl⟩
    exact ⟨a, b, v, hb, ha, hv, rfl⟩
  · rintro ⟨a, b, v, hb, ha, hv, rfl⟩
    exact ⟨b, hb, a, ha, v, hv, rfl⟩

/-- A two-operand register form answers where its register is written. -/
theorem unaryReg_ok {op : Word → Word} {rd rs2 : Reg} {s t : State} :
    unaryReg op rd rs2 s = .ok t ↔ ∃ b, s.readReg rs2 = .ok b ∧ t = (s.writeReg rd (op b)).advance := by
  simp [unaryReg, bind_ok, pure, Except.pure, @eq_comm _ t]

/-- A two-operand immediate form answers where its immediate has a value. -/
theorem unaryImm_ok {i : Instr} {op : Word → Word} {rd : Reg} {m : BitVec 2} {w : BitVec 16} {s t : State} :
    unaryImm i op rd m w s = .ok t ↔ ∃ b, immx m w = some b ∧ t = (s.writeReg rd (op b)).advance := by
  simp [unaryImm, bind_ok, immOperand_ok, pure, Except.pure, @eq_comm _ t]

/-- Division answers off the two fault cases (40_arithmetic.md R104, R105). -/
theorem dividing_ok {f : Int → Int → Int} {a b v : Word} :
    dividing f a b = .ok v ↔ b.toInt ≠ 0 ∧ ¬ (a.toInt = -2 ^ 31 ∧ b.toInt = -1) ∧
      v = BitVec.ofInt 32 (f a.toInt b.toInt) := by
  unfold dividing
  split
  · simp_all
  · split
    · simp_all
    · simp_all [@eq_comm _ v]

/-- Division faults in two ways, which exclude each other (40_arithmetic.md R104, R105). -/
theorem dividing_error {f : Int → Int → Int} {a b : Word} {e : Fault} :
    dividing f a b = .error e ↔ (b.toInt = 0 ∧ e = .arithmeticFault .divideByZero) ∨
      (a.toInt = -2 ^ 31 ∧ b.toInt = -1 ∧ e = .arithmeticFault .divideOverflow) := by
  unfold dividing
  split
  · simp_all
  · split
    · simp_all
    · simp_all

/-- A shift by 0 to 31 is exact under every configuration (43_shift.md R140). -/
theorem shifting_in_range {c : Config} {sh : Word → Nat → Word} {far : Word → Word} {a b : Word}
    (h : b.toNat ≤ 31) : shifting c sh far a b = .ok (sh a b.toNat) := by
  simp [shifting, h]

/-- A shift by more than 31 is what `SHIFT_OOR` says (43_shift.md R144). -/
theorem shifting_out_of_range {c : Config} {sh : Word → Nat → Word} {far : Word → Word} {a b : Word}
    (h : 31 < b.toNat) : shifting c sh far a b =
      match c.shiftOor with
      | .fault => .error (.shiftAmountFault b.toNat)
      | .mod32 => .ok (sh a (b.toNat % 32))
      | .saturate => .ok (far a) := by
  unfold shifting
  rw [if_neg (by omega)]
  rfl

/-! ## Comparing -/

@[simp] theorem State.compare_regs (s : State) (a b : Word) : (s.compare a b).regs = s.regs := rfl
@[simp] theorem State.compare_regsWritten (s : State) (a b : Word) :
    (s.compare a b).regsWritten = s.regsWritten := rfl
@[simp] theorem State.compare_pc (s : State) (a b : Word) : (s.compare a b).pc = s.pc + 4#32 := rfl
@[simp] theorem State.compare_flags (s : State) (a b : Word) : (s.compare a b).flags = compareFlags a b := rfl
@[simp] theorem State.compare_flagsWritten (s : State) (a b : Word) : (s.compare a b).flagsWritten = true := rfl
@[simp] theorem State.compare_mem (s : State) (a b : Word) : (s.compare a b).mem = s.mem := rfl

/-- "`E` and `GT` are never both 1" (40_arithmetic.md R106). -/
theorem compareFlags_consistent (a b : Word) : (compareFlags a b).consistent = true := by
  simp only [compareFlags, Flags.consistent, Bool.not_eq_true', Bool.and_eq_false_iff, decide_eq_false_iff_not]
  omega

end Sys2Proof.Machine
end

