-- ==== Sys2Proof/Laws/Launch.lean ====
section
/-! SUPPORT. What the two parts of a launch can do: giving registers their values, and data words their contents. -/

namespace Sys2Proof.Machine

/-! ## `launchRegs` -/

/-- It changes registers and their marks, and no other field. -/
theorem launchRegs_frame (rs : List (Reg × Word)) (s : State) :
    launchRegs rs s =
      { s with regs := (launchRegs rs s).regs, regsWritten := (launchRegs rs s).regsWritten } := by
  induction rs generalizing s with
  | nil => rfl
  | cons p rs ih => exact ih (s.writeReg p.1 p.2)

/-- A register that is not listed reads as before. -/
theorem launchRegs_readReg_other (rs : List (Reg × Word)) (s : State) (r : Reg) (h : r ∉ rs.map Prod.fst) :
    (launchRegs rs s).readReg r = s.readReg r := by
  induction rs generalizing s with
  | nil => rfl
  | cons p rs ih =>
    simp only [List.map_cons, List.mem_cons, not_or] at h
    exact (ih (s.writeReg p.1 p.2) h.2).trans (State.readReg_writeReg_other s p.2 h.1)

/-- A register that is listed once reads as the value listed. -/
theorem launchRegs_readReg (rs : List (Reg × Word)) (s : State) (hn : (rs.map Prod.fst).Nodup) :
    ∀ p ∈ rs, (launchRegs rs s).readReg p.1 = .ok p.2 := by
  induction rs generalizing s with
  | nil => simp
  | cons q rs ih =>
    simp only [List.map_cons, List.nodup_cons] at hn
    intro p hp
    rcases List.mem_cons.1 hp with rfl | hp
    · exact (launchRegs_readReg_other rs (s.writeReg p.1 p.2) p.1 hn.1).trans (State.readReg_writeReg_same _ _ _)
    · exact ih (s.writeReg q.1 q.2) hn.2 p hp

/-! ## The contents of the data words -/

/-- A byte outside the words written reads as before. -/
theorem writeWords_readByte_other (ws : List (Word × Word)) (m : Memory) (c : Nat)
    (h : ∀ p ∈ ws, c < p.1.toNat ∨ p.1.toNat + 4 ≤ c) :
    (ws.foldl (fun m p => m.writeWord p.1.toNat p.2) m).readByte c = m.readByte c := by
  induction ws generalizing m with
  | nil => rfl
  | cons p ws ih =>
    have hp := h p (by simp)
    rw [List.foldl_cons, ih _ (fun q hq => h q (by simp [hq])), Memory.readByte_writeWord]
    split_ifs <;> first | rfl | omega

/-- Writing aligned words keeps the canonical form. -/
theorem writeWords_wf (ws : List (Word × Word)) (m : Memory) (ha : ∀ p ∈ ws, p.1.toNat % 4 = 0) (h : m.wf = true) :
    (ws.foldl (fun m p => m.writeWord p.1.toNat p.2) m).wf = true := by
  induction ws generalizing m with
  | nil => exact h
  | cons q ws ih =>
    have hq := ha q (by simp)
    have hlt := q.1.isLt
    exact ih _ (fun p hp => ha p (by simp [hp])) (Memory.wf_writeWord _ (by omega) h)

/-- The memory of a launch lists nothing outside its contents. -/
theorem launchData_readByte_other (ws : List (Word × Word)) (c : Nat)
    (h : ∀ p ∈ ws, c < p.1.toNat ∨ p.1.toNat + 4 ≤ c) : (launchData ws).readByte c = none :=
  writeWords_readByte_other ws _ c h

theorem launchData_wf (ws : List (Word × Word)) (ha : ∀ p ∈ ws, p.1.toNat % 4 = 0) : (launchData ws).wf = true :=
  writeWords_wf ws _ ha rfl

/-- The words of an aligned list with no address twice read back, each whole. -/
theorem writeWords_readWord (ws : List (Word × Word)) (m : Memory) (ha : ∀ p ∈ ws, p.1.toNat % 4 = 0)
    (hn : (ws.map Prod.fst).Nodup) :
    ∀ p ∈ ws, (ws.foldl (fun m p => m.writeWord p.1.toNat p.2) m).readWord p.1.toNat = some p.2 := by
  induction ws generalizing m with
  | nil => simp
  | cons q ws ih =>
    simp only [List.map_cons, List.nodup_cons] at hn
    intro p hp
    rcases List.mem_cons.1 hp with rfl | hp
    · have same : ∀ k, k < 4 → ((ws.foldl (fun m p => m.writeWord p.1.toNat p.2)
          (m.writeWord p.1.toNat p.2)).readByte (p.1.toNat + k) = (m.writeWord p.1.toNat p.2).readByte (p.1.toNat + k)) := by
        intro k hk
        apply writeWords_readByte_other
        intro r hr
        have hr4 := ha r (by simp [hr])
        have hp4 := ha p (by simp)
        have hne : r.1.toNat ≠ p.1.toNat := fun e =>
          hn.1 (BitVec.eq_of_toNat_eq e ▸ List.mem_map_of_mem hr)
        omega
      have written := Memory.readWord_writeWord_same m p.1.toNat p.2
      rw [List.foldl_cons]
      simp only [Memory.readWord] at written ⊢
      have h0 := same 0 (by omega)
      rw [Nat.add_zero] at h0
      rw [h0, same 1 (by omega), same 2 (by omega), same 3 (by omega)]
      exact written
    · exact ih _ (fun p hp => ha p (by simp [hp])) hn.2 p hp

theorem launchData_readWord (ws : List (Word × Word)) (ha : ∀ p ∈ ws, p.1.toNat % 4 = 0)
    (hn : (ws.map Prod.fst).Nodup) : ∀ p ∈ ws, (launchData ws).readWord p.1.toNat = some p.2 :=
  writeWords_readWord ws _ ha hn

end Sys2Proof.Machine
end

