-- ==== Sys2Proof/Laws/PerInstr.lean ====
section
/-! SUPPORT. Statements for all instructions, one lemma a constructor. -/

namespace Sys2Proof.Laws

/-- The opcode field of an instruction's word holds the instruction's code (30_encoding.md R64). -/
def EncodedOpcode.Statement (i : Instr) : Prop := opField (encode i) = i.opcode

theorem EncodedOpcode.addReg (rd rs1 rs2 : Reg) : EncodedOpcode.Statement (.addReg rd rs1 rs2) :=
  opField_regWord ..
theorem EncodedOpcode.addImm (rd rs1 : Reg) (m : BitVec 2) (v : BitVec 16) :
    EncodedOpcode.Statement (.addImm rd rs1 m v) :=
  opField_immWord ..
theorem EncodedOpcode.subReg (rd rs1 rs2 : Reg) : EncodedOpcode.Statement (.subReg rd rs1 rs2) :=
  opField_regWord ..
theorem EncodedOpcode.subImm (rd rs1 : Reg) (m : BitVec 2) (v : BitVec 16) :
    EncodedOpcode.Statement (.subImm rd rs1 m v) :=
  opField_immWord ..
theorem EncodedOpcode.mulReg (rd rs1 rs2 : Reg) : EncodedOpcode.Statement (.mulReg rd rs1 rs2) :=
  opField_regWord ..
theorem EncodedOpcode.mulImm (rd rs1 : Reg) (m : BitVec 2) (v : BitVec 16) :
    EncodedOpcode.Statement (.mulImm rd rs1 m v) :=
  opField_immWord ..
theorem EncodedOpcode.divReg (rd rs1 rs2 : Reg) : EncodedOpcode.Statement (.divReg rd rs1 rs2) :=
  opField_regWord ..
theorem EncodedOpcode.divImm (rd rs1 : Reg) (m : BitVec 2) (v : BitVec 16) :
    EncodedOpcode.Statement (.divImm rd rs1 m v) :=
  opField_immWord ..
theorem EncodedOpcode.modReg (rd rs1 rs2 : Reg) : EncodedOpcode.Statement (.modReg rd rs1 rs2) :=
  opField_regWord ..
theorem EncodedOpcode.modImm (rd rs1 : Reg) (m : BitVec 2) (v : BitVec 16) :
    EncodedOpcode.Statement (.modImm rd rs1 m v) :=
  opField_immWord ..
theorem EncodedOpcode.cmpReg (rs1 rs2 : Reg) : EncodedOpcode.Statement (.cmpReg rs1 rs2) :=
  opField_regWord ..
theorem EncodedOpcode.cmpImm (rs1 : Reg) (m : BitVec 2) (v : BitVec 16) : EncodedOpcode.Statement (.cmpImm rs1 m v) :=
  opField_immWord ..
theorem EncodedOpcode.andReg (rd rs1 rs2 : Reg) : EncodedOpcode.Statement (.andReg rd rs1 rs2) :=
  opField_regWord ..
theorem EncodedOpcode.andImm (rd rs1 : Reg) (m : BitVec 2) (v : BitVec 16) :
    EncodedOpcode.Statement (.andImm rd rs1 m v) :=
  opField_immWord ..
theorem EncodedOpcode.orReg (rd rs1 rs2 : Reg) : EncodedOpcode.Statement (.orReg rd rs1 rs2) :=
  opField_regWord ..
theorem EncodedOpcode.orImm (rd rs1 : Reg) (m : BitVec 2) (v : BitVec 16) :
    EncodedOpcode.Statement (.orImm rd rs1 m v) :=
  opField_immWord ..
theorem EncodedOpcode.notReg (rd rs2 : Reg) : EncodedOpcode.Statement (.notReg rd rs2) :=
  opField_regWord ..
theorem EncodedOpcode.notImm (rd : Reg) (m : BitVec 2) (v : BitVec 16) : EncodedOpcode.Statement (.notImm rd m v) :=
  opField_immWord ..
theorem EncodedOpcode.movReg (rd rs2 : Reg) : EncodedOpcode.Statement (.movReg rd rs2) :=
  opField_regWord ..
theorem EncodedOpcode.movImm (rd : Reg) (m : BitVec 2) (v : BitVec 16) : EncodedOpcode.Statement (.movImm rd m v) :=
  opField_immWord ..
theorem EncodedOpcode.lslReg (rd rs1 rs2 : Reg) : EncodedOpcode.Statement (.lslReg rd rs1 rs2) :=
  opField_regWord ..
theorem EncodedOpcode.lslImm (rd rs1 : Reg) (m : BitVec 2) (v : BitVec 16) :
    EncodedOpcode.Statement (.lslImm rd rs1 m v) :=
  opField_immWord ..
theorem EncodedOpcode.lsrReg (rd rs1 rs2 : Reg) : EncodedOpcode.Statement (.lsrReg rd rs1 rs2) :=
  opField_regWord ..
theorem EncodedOpcode.lsrImm (rd rs1 : Reg) (m : BitVec 2) (v : BitVec 16) :
    EncodedOpcode.Statement (.lsrImm rd rs1 m v) :=
  opField_immWord ..
theorem EncodedOpcode.asrReg (rd rs1 rs2 : Reg) : EncodedOpcode.Statement (.asrReg rd rs1 rs2) :=
  opField_regWord ..
theorem EncodedOpcode.asrImm (rd rs1 : Reg) (m : BitVec 2) (v : BitVec 16) :
    EncodedOpcode.Statement (.asrImm rd rs1 m v) :=
  opField_immWord ..
theorem EncodedOpcode.nop : EncodedOpcode.Statement .nop :=
  opField_branchWord ..
theorem EncodedOpcode.ld (rd rs1 : Reg) (m : BitVec 2) (v : BitVec 16) : EncodedOpcode.Statement (.ld rd rs1 m v) :=
  opField_immWord ..
theorem EncodedOpcode.st (rd rs1 : Reg) (m : BitVec 2) (v : BitVec 16) : EncodedOpcode.Statement (.st rd rs1 m v) :=
  opField_immWord ..
theorem EncodedOpcode.beq (offset : BitVec 27) : EncodedOpcode.Statement (.beq offset) :=
  opField_branchWord ..
theorem EncodedOpcode.bgt (offset : BitVec 27) : EncodedOpcode.Statement (.bgt offset) :=
  opField_branchWord ..
theorem EncodedOpcode.b (offset : BitVec 27) : EncodedOpcode.Statement (.b offset) :=
  opField_branchWord ..
theorem EncodedOpcode.call (offset : BitVec 27) : EncodedOpcode.Statement (.call offset) :=
  opField_branchWord ..
theorem EncodedOpcode.ret : EncodedOpcode.Statement .ret :=
  opField_branchWord ..

end Sys2Proof.Laws
end

