-- ==== Sys2Proof/Laws/Run.lean ====
section
/-! SUPPORT. How a run goes on from its first step. -/

namespace Sys2Proof.Machine

theorem runFor_zero (s : State) : runFor 0 s = .next s := rfl

theorem core_run_succ (M : Host.Core) (n : Nat) (s : M.State) :
    M.run (n + 1) s = match M.step s with
      | .next t => M.run n t
      | .fault f => .fault f
      | .refused q => .refused q := rfl

theorem runFor_succ_next {s t : State} (n : Nat) (h : step s = .next t) : runFor (n + 1) s = runFor n t := by
  have h' : core.step s = .next t := h
  exact (core_run_succ core n s).trans (by rw [h']; rfl)

theorem runFor_succ_fault {s : State} {f : Fault} (n : Nat) (h : step s = .fault f) : runFor (n + 1) s = .fault f := by
  have h' : core.step s = .fault f := h
  exact (core_run_succ core n s).trans (by rw [h']; rfl)

theorem runFor_succ_refused {s : State} {q : Refusal} (n : Nat) (h : step s = .refused q) :
    runFor (n + 1) s = .refused q := by
  have h' : core.step s = .refused q := h
  exact (core_run_succ core n s).trans (by rw [h']; rfl)

end Sys2Proof.Machine
end

