-- ==== Sys2Proof/Laws/Step.lean ====
section
/-! SUPPORT. What a step can do, once: each of its outcomes, and nothing else. -/

namespace Sys2Proof.Machine

/-- A step has a next state exactly where the run has not ended, the word at `pc` is fetched and decoded, and the
instruction has that next state (70_reset_and_hazards.md R204). -/
theorem step_next {s t : State} : step s = .next t ↔
    s.pc ≠ s.endPc ∧ ∃ w i, s.fetch = .ok w ∧ decode w = .ok i ∧ exec i s = .next t := by
  unfold step
  split
  · simp_all
  · split
    · simp_all
    · rename_i w hw
      split <;> simp_all

/-- A step faults in the fetch, in the decoding, or in the instruction (60_exceptions.md R187). -/
theorem step_fault {s : State} {f : Fault} : step s = .fault f ↔
    s.pc ≠ s.endPc ∧ (s.fetch = .error f ∨ ∃ w, s.fetch = .ok w ∧
      ((∃ e, decode w = .error e) ∧ f = .illegalInstruction w ∨ ∃ i, decode w = .ok i ∧ exec i s = .fault f)) := by
  unfold step
  split
  · simp_all
  · split
    · simp_all
    · rename_i w hw
      split
      · rename_i e he
        constructor
        · intro h
          cases h
          exact ⟨‹_›, .inr ⟨w, hw, .inl ⟨⟨e, he⟩, rfl⟩⟩⟩
        · simp_all
      · simp_all

end Sys2Proof.Machine
end

