-- ==== Sys2Proof/Tests/Slice0.lean ====
section
/-! SUPPORT. Tests on fixed values, and for each statement a state and operands that meet its hypotheses.
Expected values are those of spec/95_test_vectors.md: the id of a vector or an example of part 1 stands beside each;
where none stands, the value is worked out by hand from the rule named. -/

namespace Sys2Proof.Tests
open Sys2Proof Sys2Proof.Machine

/-! ## Helpers -/

/-- A state whose text is the word `w` at `pc` 0x10, with the given registers and data words, data admitted from
0x1000 to 0x1FFC and `END_PC` 0x80. -/
def at16 (w : Word) (regs : List (Reg × Word)) (contents : List (Word × Word) := []) (flags : Option Flags := none)
    (oor : ShiftOor := .fault) : State :=
  Launch.start
    { textBase := 0x10#32, text := [w], dataMap := [{ base := 0x1000, words := 1024 }], contents := contents,
      regs := regs, endPc := 0x80#32, flags := flags, config := { shiftOor := oor } }

/-- What a next state holds, if there is one. -/
def after {α : Type} (f : State → α) : Host.Outcome State Fault Refusal → Option α
  | .next t => some (f t)
  | .fault _ | .refused _ => none

/-- The fault of an outcome, if it is one. -/
def faultOf : Host.Outcome State Fault Refusal → Option Fault
  | .fault f => some f
  | .next _ | .refused _ => none

/-- What register `r` holds after one step, where it is written. -/
def stepReg (r : Reg) (s : State) : Option (Option Word) :=
  after (fun t => if t.regsWritten[r] then some t.regs[r] else none) (step s)

/-- The pc after one step. -/
def stepPc (s : State) : Option Word := after State.pc (step s)

/-- The flags after one step, where they are written. -/
def stepFlags (s : State) : Option (Option Flags) :=
  after (fun t => if t.flagsWritten then some t.flags else none) (step s)

/-- The data word at `a` after one step. -/
def stepMem (a : Nat) (s : State) : Option (Option Word) := after (fun t => t.mem.readWord a) (step s)

/-! ## Well-formedness: the one check, and a term that it refuses -/

theorem test_wellFormed_refuses_reserved_modifier : (Instr.addImm 1 2 0b11 10).wellFormed = false := by decide
theorem test_wellFormed_refuses_reserved_modifier_of_st : (Instr.st 1 2 0b11 12).wellFormed = false := by decide
theorem test_wellFormed_accepts_h : (Instr.movImm 0 0b10 0xFEAB).wellFormed = true := by decide

/-! ## Decoding: a word for each row, its bits written out by 30_encoding.md R61 and R64

The fields are op, I, rd, rs1, rs2 and 14 ignored bits; or op, I, rd, rs1, mod and imm16; or op and offset. -/

theorem test_decode_addReg : decode 0b00000_0_0001_0010_0011_00000000000000#32 = .ok (.addReg 1 2 3) := by decide
theorem test_decode_addImm : decode 0b00000_1_0001_0010_00_0000000000001010#32 = .ok (.addImm 1 2 0 10) := by decide
theorem test_decode_subReg : decode 0b00001_0_0001_0010_0011_00000000000000#32 = .ok (.subReg 1 2 3) := by decide
theorem test_decode_subImm : decode 0b00001_1_1110_1110_00_0000000000000100#32 = .ok (.subImm 14 14 0 4) := by decide
theorem test_decode_mulReg : decode 0b00010_0_0001_0010_0011_00000000000000#32 = .ok (.mulReg 1 2 3) := by decide
theorem test_decode_mulImm :
    decode 0b00010_1_0001_0010_00_1111111111111101#32 = .ok (.mulImm 1 2 0 0xFFFD) := by decide
theorem test_decode_divReg : decode 0b00011_0_0001_0010_0011_00000000000000#32 = .ok (.divReg 1 2 3) := by decide
theorem test_decode_divImm :
    decode 0b00011_1_0001_0010_01_1111111111111110#32 = .ok (.divImm 1 2 1 0xFFFE) := by decide
theorem test_decode_modReg : decode 0b00100_0_0001_0010_0011_00000000000000#32 = .ok (.modReg 1 2 3) := by decide
theorem test_decode_modImm : decode 0b00100_1_0001_0010_00_0000000000001010#32 = .ok (.modImm 1 2 0 10) := by decide
theorem test_decode_cmpReg : decode 0b00101_0_1111_0001_0010_00000000000000#32 = .ok (.cmpReg 1 2) := by decide
theorem test_decode_cmpImm : decode 0b00101_1_0000_0001_00_0000000000000101#32 = .ok (.cmpImm 1 0 5) := by decide
theorem test_decode_andReg : decode 0b00110_0_0001_0010_0011_00000000000000#32 = .ok (.andReg 1 2 3) := by decide
theorem test_decode_andImm :
    decode 0b00110_1_0001_0010_10_1111111111111111#32 = .ok (.andImm 1 2 2 0xFFFF) := by decide
theorem test_decode_orReg : decode 0b00111_0_0001_0010_0011_00000000000000#32 = .ok (.orReg 1 2 3) := by decide
theorem test_decode_orImm :
    decode 0b00111_1_0001_0010_01_1000000000000000#32 = .ok (.orImm 1 2 1 0x8000) := by decide
theorem test_decode_notReg : decode 0b01000_0_0001_0111_0010_00000000000000#32 = .ok (.notReg 1 2) := by decide
theorem test_decode_notImm :
    decode 0b01000_1_0001_0000_01_1111111111111111#32 = .ok (.notImm 1 1 0xFFFF) := by decide
theorem test_decode_movReg : decode 0b01001_0_1111_0000_0011_00000000000000#32 = .ok (.movReg 15 3) := by decide
theorem test_decode_movImm :
    decode 0b01001_1_0000_0000_10_1111111010101011#32 = .ok (.movImm 0 2 0xFEAB) := by decide
theorem test_decode_lslReg : decode 0b01010_0_0011_0001_0010_00000000000000#32 = .ok (.lslReg 3 1 2) := by decide
theorem test_decode_lslImm : decode 0b01010_1_0011_0001_00_0000000000000100#32 = .ok (.lslImm 3 1 0 4) := by decide
theorem test_decode_lsrReg : decode 0b01011_0_0011_0001_0010_00000000000000#32 = .ok (.lsrReg 3 1 2) := by decide
theorem test_decode_lsrImm : decode 0b01011_1_0001_0001_00_0000000000010000#32 = .ok (.lsrImm 1 1 0 16) := by decide
theorem test_decode_asrReg : decode 0b01100_0_0011_0001_0010_00000000000000#32 = .ok (.asrReg 3 1 2) := by decide
theorem test_decode_asrImm : decode 0b01100_1_0011_0001_00_0000000000000100#32 = .ok (.asrImm 3 1 0 4) := by decide
theorem test_decode_nop : decode 0b01101_111111111111111111111111111#32 = .ok .nop := by decide
theorem test_decode_ld : decode 0b01110_1_0001_0010_00_0000000000001100#32 = .ok (.ld 1 2 0 12) := by decide
theorem test_decode_st : decode 0b01111_1_0001_0010_00_0000000000001100#32 = .ok (.st 1 2 0 12) := by decide
theorem test_decode_beq : decode 0b10000_000000000000000000000000101#32 = .ok (.beq 5) := by decide
theorem test_decode_bgt :
    decode 0b10001_111111111111111111111111100#32 = .ok (.bgt (BitVec.ofInt 27 (-4))) := by decide
theorem test_decode_b : decode 0b10010_100000000000000000000000000#32 = .ok (.b (BitVec.ofInt 27 (-2 ^ 26))) := by decide
theorem test_decode_call : decode 0b10011_000000000000000000000010000#32 = .ok (.call 16) := by decide
theorem test_decode_ret : decode 0b10100_111111111111111111111111111#32 = .ok .ret := by decide
/-- 30_encoding.md R77, R78, R79. -/
theorem test_decode_rejects :
    decode 0b10101_000000000000000000000000000#32 = .error .unassignedOpcode ∧
    decode 0b00000_1_0001_0000_11_0000000000001010#32 = .error .reservedModifier ∧
    decode 0b01110_0_0001_0010_0010_00000000000000#32 = .error .registerFormMemory := by decide
/-- The bytes of a word, least significant first (20_memory.md R45). -/
theorem test_decodeBytes :
    decodeBytes [0x0C#8, 0x00#8, 0x48#8, 0x74#8, 0xFF#8] = some (.ok (.ld 1 2 0 12), [0xFF#8]) := by decide
theorem test_decodeTableWord : decodeTableWord 32 0x7448000C = some (.ld 1 2 0 12) := by decide

/-! ## One step of each instruction -/

/-- A4 -/
theorem test_add_reg_wraps :
    stepReg 1 (at16 0x0048C000#32 [(2, 0xFFFFFFFF#32), (3, 1#32)]) = some (some 0#32) := by decide
/-- A7 -/
theorem test_add_imm_h : stepReg 1 (at16 0x044A0001#32 [(2, 0xFFFF#32)]) = some (some 0x1FFFF#32) := by decide
/-- A13 -/
theorem test_sub_reg : stepReg 1 (at16 0x0848C000#32 [(2, 3#32), (3, 5#32)]) = some (some 0xFFFFFFFE#32) := by decide
/-- A17 -/
theorem test_sub_imm_push : stepReg 14 (at16 0x0FB80004#32 [(14, 0x2000#32)]) = some (some 0x1FFC#32) := by decide
/-- A20 -/
theorem test_mul_reg :
    stepReg 1 (at16 0x1048C000#32 [(2, 0xFFFFFFFF#32), (3, 0xFFFFFFFF#32)]) = some (some 1#32) := by decide
/-- A21 -/
theorem test_mul_imm : stepReg 1 (at16 0x1448FFFD#32 [(2, 5#32)]) = some (some 0xFFFFFFF1#32) := by decide
/-- A24 -/
theorem test_div_reg_rounds_to_zero :
    stepReg 1 (at16 0x1848C000#32 [(2, 0xFFFFFFF9#32), (3, 2#32)]) = some (some 0xFFFFFFFD#32) := by decide
/-- A31 -/
theorem test_div_imm_u : stepReg 1 (at16 0x1C49FFFE#32 [(2, 0x1FFFC#32)]) = some (some 2#32) := by decide
/-- A32, A34 -/
theorem test_div_faults :
    faultOf (step (at16 0x1848C000#32 [(2, 7#32), (3, 0#32)])) = some (.arithmeticFault .divideByZero) ∧
    faultOf (step (at16 0x1848C000#32 [(2, 0x80000000#32), (3, 0xFFFFFFFF#32)])) =
      some (.arithmeticFault .divideOverflow) := by decide
/-- A36 -/
theorem test_mod_reg_sign_of_dividend :
    stepReg 1 (at16 0x2048C000#32 [(2, 0xFFFFFFF9#32), (3, 2#32)]) = some (some 0xFFFFFFFF#32) := by decide
/-- A40 -/
theorem test_mod_imm : stepReg 1 (at16 0x2448000A#32 [(2, 0x4D2#32)]) = some (some 4#32) := by decide
/-- A47 -/
theorem test_cmp_reg_signed :
    stepFlags (at16 0x28048000#32 [(1, 0x7FFFFFFF#32), (2, 0x80000000#32)]) =
      some (some { e := false, gt := true }) := by decide
/-- A50 -/
theorem test_cmp_imm_rewrites_both :
    stepFlags (at16 0x2C040005#32 [(1, 9#32)] [] (some { e := true, gt := false })) =
      some (some { e := false, gt := true }) := by decide
/-- L1 -/
theorem test_and_reg :
    stepReg 1 (at16 0x3048C000#32 [(2, 0xFF00FF00#32), (3, 0x0FF00FF0#32)]) = some (some 0x0F000F00#32) := by decide
/-- L5 -/
theorem test_and_imm_h : stepReg 1 (at16 0x344AFFFF#32 [(2, 0x12345678#32)]) = some (some 0x12340000#32) := by decide
/-- L7 -/
theorem test_or_reg :
    stepReg 1 (at16 0x3848C000#32 [(2, 0xFF00FF00#32), (3, 0x0FF00FF0#32)]) = some (some 0xFFF0FFF0#32) := by decide
/-- L8 -/
theorem test_or_imm : stepReg 1 (at16 0x3C488000#32 [(2, 0#32)]) = some (some 0xFFFF8000#32) := by decide
/-- L18 -/
theorem test_not_reg_ignores_rs1 : stepReg 1 (at16 0x405C8000#32 [(2, 0xF#32)]) = some (some 0xFFFFFFF0#32) := by decide
/-- L17 -/
theorem test_not_imm_h : stepReg 1 (at16 0x4442FFFF#32 []) = some (some 0xFFFF#32) := by decide
/-- M10 -/
theorem test_mov_reg_to_ra : stepReg 15 (at16 0x4BC0C000#32 [(3, 0x40#32)]) = some (some 0x40#32) := by decide
/-- M4, X7 -/
theorem test_mov_imm :
    stepReg 1 (at16 0x4C40CDEF#32 []) = some (some 0xFFFFCDEF#32) ∧
    stepReg 0 (at16 0x4C02FEAB#32 []) = some (some 0xFEAB0000#32) := by decide
/-- S1, S22 -/
theorem test_lsl_reg :
    stepReg 3 (at16 0x50C48000#32 [(1, 1#32), (2, 4#32)]) = some (some 0x10#32) ∧
    stepReg 3 (at16 0x50C48000#32 [(1, 0x80000001#32), (2, 0x21#32)] [] none .mod32) = some (some 2#32) := by decide
/-- S4, S20 -/
theorem test_lsl_imm :
    stepReg 3 (at16 0x54C4001F#32 [(1, 3#32)]) = some (some 0x80000000#32) ∧
    faultOf (step (at16 0x54C40020#32 [(1, 1#32)])) = some (.shiftAmountFault 32) := by decide
/-- S7, S25 -/
theorem test_lsr_reg :
    stepReg 3 (at16 0x58C48000#32 [(1, 0x80000000#32), (2, 0x1F#32)]) = some (some 1#32) ∧
    stepReg 3 (at16 0x58C48000#32 [(1, 0x80000001#32), (2, 0x21#32)] [] none .saturate) = some (some 0#32) := by decide
/-- S6 -/
theorem test_lsr_imm : stepReg 1 (at16 0x5C440010#32 [(1, 0xCDEF0000#32)]) = some (some 0xCDEF#32) := by decide
/-- S26, S27 -/
theorem test_asr_reg :
    stepReg 3 (at16 0x60C48000#32 [(1, 0x80000001#32), (2, 0x21#32)] [] none .mod32) = some (some 0xC0000000#32) ∧
    stepReg 3 (at16 0x60C48000#32 [(1, 0x80000001#32), (2, 0x21#32)] [] none .saturate) =
      some (some 0xFFFFFFFF#32) := by decide
/-- S15 -/
theorem test_asr_imm_rounds_down : stepReg 3 (at16 0x64C40001#32 [(1, 0xFFFFFFF9#32)]) = some (some 0xFFFFFFFC#32) := by
  decide
/-- M16 -/
theorem test_nop : stepPc (at16 0x6FFFFFFF#32 []) = some 0x14#32 := by decide
/-- D1, D7 -/
theorem test_ld :
    stepReg 1 (at16 0x7448000C#32 [(2, 0x1000#32)] [(0x100C#32, 0xDEADBEEF#32)]) = some (some 0xDEADBEEF#32) ∧
    stepReg 1 (at16 0x74482000#32 [(2, 0xFFFFF000#32)] [(0x1000#32, 0x77#32)]) = some (some 0x77#32) := by decide
/-- D10, D12, D13, D15, D16 -/
theorem test_ld_faults :
    faultOf (step (at16 0x74480001#32 [(2, 0x1000#32)])) = some (.misalignedAccess 0x1001#32) ∧
    faultOf (step (at16 0x74480000#32 [(2, 0x2000#32)])) = some (.accessFault 0x2000#32) ∧
    faultOf (step (at16 0x74480000#32 [(2, 0x10#32)])) = some (.accessFault 0x10#32) ∧
    faultOf (step (at16 0x74480000#32 [(2, 0x1000#32)])) = some (.uninitialisedRead (.mem 0x1000#32)) ∧
    faultOf (step (at16 0x74480000#32 [])) = some (.uninitialisedRead (.reg 2)) := by decide
/-- D2, D6: the word, and the lowest byte of it (20_memory.md R45). -/
theorem test_st :
    stepMem 0x100C (at16 0x7C48000C#32 [(1, 0x12345678#32), (2, 0x1000#32)]) = some (some 0x12345678#32) ∧
    after (fun t => t.mem.readByte 0x100C) (step (at16 0x7C48000C#32 [(1, 0x12345678#32), (2, 0x1000#32)])) =
      some (some 0x78#8) ∧
    stepMem 0x1FFC (at16 0x7C480000#32 [(1, 0#32), (2, 0x1FFC#32)]) = some (some 0#32) := by decide
/-- D18, D19, D14 -/
theorem test_st_faults :
    faultOf (step (at16 0x7C480000#32 [])) = some (.uninitialisedRead (.reg 2)) ∧
    faultOf (step (at16 0x7C480001#32 [(2, 0x1000#32)])) = some (.uninitialisedRead (.reg 1)) ∧
    faultOf (step (at16 0x7C480000#32 [(1, 0x68000000#32), (2, 0x10#32)])) = some (.accessFault 0x10#32) := by decide
/-- B9, B10 -/
theorem test_beq :
    stepPc (at16 0x80000005#32 [] [] (some { e := true, gt := false })) = some 0x24#32 ∧
    stepPc (at16 0x80000005#32 [] [] (some { e := false, gt := true })) = some 0x14#32 := by decide
/-- B13 and B14, from pc 0x10 -/
theorem test_bgt :
    stepPc (at16 0x8FFFFFFC#32 [] [] (some { e := false, gt := true })) = some 0#32 ∧
    stepPc (at16 0x8FFFFFFC#32 [] [] (some { e := true, gt := false })) = some 0x14#32 := by decide
/-- B12 -/
theorem test_beq_unwritten_flags :
    faultOf (step (at16 0x80000005#32 [])) = some (.uninitialisedRead .flags) := by decide
/-- B2; and B7, from pc 0x10 -/
theorem test_b : stepPc (at16 0x97FFFFFE#32 []) = some 8#32 ∧ stepPc (at16 0x94000000#32 []) = some 0xF0000010#32 := by
  decide
/-- C3 -/
theorem test_call :
    stepReg 15 (at16 0x98000001#32 []) = some (some 0x14#32) ∧ stepPc (at16 0x98000001#32 []) = some 0x14#32 := by decide
/-- C7, C8 -/
theorem test_ret :
    faultOf (step (at16 0xA0000000#32 [])) = some (.uninitialisedRead (.reg 15)) ∧
    stepPc (at16 0xA0000000#32 [(15, 0xE#32)]) = some 0xE#32 := by decide

/-! ## Reset, launch, assembly -/

/-- State.reset is the launch that its docstring describes (entries 1, 3 to 6). -/
theorem test_reset_is_a_launch :
    State.reset =
      Launch.start
        { textBase := 0#32, text := [], dataMap := [{ base := 0, words := 2 ^ 30 }],
          regs := (List.finRange 16).map (fun r => (r, 0#32)), endPc := 0#32,
          flags := some { e := false, gt := false } } := by decide

/-- A placed word is the first instruction after reset: `mov r1, 3` (M2). -/
theorem test_place_after_reset : stepReg 1 (State.reset.withFetchWord 32 0x4C400003) = some (some 3#32) := by decide

/-- The launch of the vectors, with the text of X9: `movh r0, 0xFB12`, `addu r0, r0, 0xCDEF`. -/
def sampleLaunch : Launch :=
  { textBase := 0#32, text := [0x4C02FB12#32, 0x0401CDEF#32], dataMap := [{ base := 0x1000, words := 1024 }],
    contents := [(0x1000#32, 7#32), (0x1FFC#32, 9#32)], regs := [(14, 0x2000#32), (15, 8#32)] }

/-- X9 -/
theorem test_two_steps_load_constant :
    after (fun t => (t.regs[(0 : Reg)], decide (t.pc = t.endPc))) (runFor 2 sampleLaunch.start) =
      some (0xFB12CDEF#32, true) := by decide

/-- A launch whose data region meets its text is refused (70_reset_and_hazards.md R202). -/
theorem test_ill_formed_launch :
    ({ sampleLaunch with dataMap := [{ base := 4, words := 1024 }] } : Launch).wellFormed = false := by decide

/-- Part of X8 and X10, with a label, a comment and a branch back (30_encoding.md R82 to R84). -/
theorem test_assemble :
    assembleText ".a: movu r0, 0xFEAB /* low */\n ld r1, 12[r2]\n b .a\n sub sp, sp, 4".toList =
      .ok [0x4C01FEAB#32, 0x7448000C#32, 0x97FFFFFE#32, 0x0FB80004#32] := by decide

/-- The default `END_PC` of a text that ends at 2^32 wraps to 0 (entry 18). -/
theorem test_default_end_pc_wraps :
    let l : Launch := { textBase := 0xFFFFFFFC#32, text := [0x68000000#32], dataMap := [] }
    l.endPc = 0#32 ∧ l.wellFormed = true := by decide

/-- A label defined twice is rejected where a branch names it, and only there (entry 17). -/
theorem test_assemble_label_twice :
    assembleText ".a: nop .a: nop b .a".toList = .error .label ∧
    assembleText ".a: nop .a: nop".toList = .ok [0x68000000#32, 0x68000000#32] := by decide

/-- 30_encoding.md R83, R84. -/
theorem test_assemble_rejects :
    assembleText "addu r1, r2, r3".toList = .error .suffixOnRegister ∧
    assembleText "mov r1, 65536".toList = .error .immediateRange ∧
    assembleText "b .nowhere".toList = .error .label := by decide

/-! ## Witnesses: for each statement, values that meet its hypotheses -/

/-- `r1` 5, `r2` 0x1000, `r3` -1, `r4` the least word, `ra` 0x14; the other registers unwritten; the flags of an
equal comparison; the first and the last data word written; the text is the word `w` at 0x10. -/
def sample (w : Word := 0x68000000#32) : State :=
  at16 w [(1, 5#32), (2, 0x1000#32), (3, 0xFFFFFFFF#32), (4, 0x80000000#32), (15, 0x14#32)]
    [(0x1000#32, 7#32), (0x1FFC#32, 9#32)] (some { e := true, gt := false })

theorem witness_DecodeEncodeRoundTrip :
    (Instr.addImm 15 15 2 0xFFFF).wellFormed = true ∧ (Instr.b 0x4000000).wellFormed = true := by decide

theorem witness_DecodeReadsExactlyTheFields :
    decode 0x2BC4BFFF#32 = .ok (.cmpReg 1 2) ∧ (Instr.cmpReg 1 2).wellFormed = true ∧
    0x2BC4BFFF#32 &&& (Instr.cmpReg 1 2).fieldMask = encode (.cmpReg 1 2) := by decide

/-- The boundary words of the three cases: opcodes 20 and 21 and 31; 14 and 15; 0, 12, 14, 15. -/
theorem witness_IllegalWordsExactly :
    decode 0xA7FFFFFF#32 = .ok .ret ∧ decode 0xA8000000#32 = .error .unassignedOpcode ∧
    decode 0xF8000000#32 = .error .unassignedOpcode ∧
    decode 0x70000000#32 = .error .registerFormMemory ∧ decode 0x78000000#32 = .error .registerFormMemory ∧
    decode 0x04030000#32 = .error .reservedModifier ∧ decode 0x64030000#32 = .error .reservedModifier ∧
    decode 0x74030000#32 = .error .reservedModifier ∧ decode 0x7C030000#32 = .error .reservedModifier := by decide

theorem witness_OpcodeMapOfTwentyOneInstructions :
    decode 0x07FFFFFF#32 = .error .reservedModifier ∧ decode 0x03FFFFFF#32 = .ok (.addReg 15 15 15) ∧
    0b10101#5 ≤ opField 0xA8000000#32 ∧ 0b10101#5 ≤ opField 0xFFFFFFFF#32 := by decide

/-- Both operands of the two forms, and each unwritten one, for the rules of the ALU instructions. -/
theorem witness_ThreeOperandRule :
    (sample.readReg 1 = .ok 5#32 ∧ sample.readReg 3 = .ok 0xFFFFFFFF#32) ∧
    (sample.readReg 1 = .ok 5#32 ∧ immx 2 0xFFFF = some 0xFFFF0000#32) ∧
    sample.regsWritten[(0 : Reg)] = false ∧
    (sample.regsWritten[(1 : Reg)] = true ∧ sample.regsWritten[(0 : Reg)] = false) ∧
    ((2 : BitVec 2) ≠ 3#2 ∧ sample.regsWritten[(0 : Reg)] = false) := by decide

theorem witness_AddSubMulWrap :
    after (fun t => t.readReg 6) (exec (.addReg 6 1 3) sample) = some (.ok 4#32) ∧
    after (fun t => t.readReg 6) (exec (.subImm 6 1 0 6) sample) = some (.ok 0xFFFFFFFF#32) ∧
    after (fun t => t.readReg 6) (exec (.mulReg 6 4 4) sample) = some (.ok 0#32) := by decide

/-- The least word by 1, a register divisor, and -1 as an immediate divisor. -/
theorem witness_DivModAskTheConfiguration :
    (sample.readReg 4 = .ok 0x80000000#32 ∧ sample.readReg 1 = .ok 5#32 ∧ (5#32).toInt ≠ 0 ∧
      ¬ ((0x80000000#32).toInt = -2 ^ 31 ∧ (5#32).toInt = -1)) ∧
    (sample.readReg 1 = .ok 5#32 ∧ immx 0 0xFFFF = some 0xFFFFFFFF#32 ∧ (0xFFFFFFFF#32).toInt ≠ 0 ∧
      ¬ ((5#32).toInt = -2 ^ 31 ∧ (0xFFFFFFFF#32).toInt = -1)) := by decide

theorem witness_DefaultDivisionTruncates :
    sample.config.divFn = .standard ∧ sample.config.modFn = .standard ∧ (1#32).toInt ≠ 0 ∧
    ¬ ((0x80000000#32).toInt = -2 ^ 31 ∧ (1#32).toInt = -1) := by decide

theorem witness_DivModFaultOnZeroAndOverflow :
    (sample.readReg 1 = .ok 5#32 ∧ immx 0 0 = some 0#32 ∧ (0#32).toInt = 0) ∧
    (sample.readReg 4 = .ok 0x80000000#32 ∧ sample.readReg 3 = .ok 0xFFFFFFFF#32 ∧
      (0x80000000#32).toInt = -2 ^ 31 ∧ (0xFFFFFFFF#32).toInt = -1) := by decide

theorem witness_CmpWritesBothFlags :
    (sample.readReg 4 = .ok 0x80000000#32 ∧ sample.readReg 3 = .ok 0xFFFFFFFF#32) ∧
    (sample.readReg 1 = .ok 5#32 ∧ immx 0 5 = some 5#32) := by decide

/-- Both operands of the two forms, each unwritten one, and the first and the last bit. -/
theorem witness_AndOrBitByBit :
    (sample.readReg 1 = .ok 5#32 ∧ sample.readReg 3 = .ok 0xFFFFFFFF#32) ∧
    (sample.readReg 1 = .ok 5#32 ∧ immx 2 0xFFFF = some 0xFFFF0000#32) ∧
    sample.regsWritten[(0 : Reg)] = false ∧
    (sample.regsWritten[(1 : Reg)] = true ∧ sample.regsWritten[(0 : Reg)] = false) ∧
    (2 : BitVec 2) ≠ 3#2 ∧ 0 < 32 ∧ 31 < 32 := by decide

theorem witness_NotInvertsEveryBit :
    sample.readReg 4 = .ok 0x80000000#32 ∧ immx 1 0xFFFF = some 0xFFFF#32 ∧
    sample.regsWritten[(0 : Reg)] = false ∧ (2 : BitVec 2) ≠ 3#2 ∧ 0 < 32 ∧ 31 < 32 := by decide

theorem witness_MovCopiesItsOperand :
    sample.readReg 4 = .ok 0x80000000#32 ∧ immx 0 0x8000 = some 0xFFFF8000#32 ∧
    sample.regsWritten[(0 : Reg)] = false := by decide

theorem witness_NoRegisterIsHardwired :
    (at16 0x68000000#32 [(0, 1#32), (1, 2#32)]).readReg 0 = .ok 1#32 ∧
    (at16 0x68000000#32 [(0, 1#32), (1, 2#32)]).readReg 1 = .ok 2#32 := by decide

/-- Amounts 5 and 31. -/
theorem witness_ShiftsInRange :
    (sample.readReg 4 = .ok 0x80000000#32 ∧ sample.readReg 1 = .ok 5#32 ∧ (5#32).toNat ≤ 31) ∧
    (sample.readReg 4 = .ok 0x80000000#32 ∧ immx 0 31 = some 31#32 ∧ (31#32).toNat ≤ 31) := by decide

/-- Amounts 32 and 2^32 - 1. -/
theorem witness_ShiftsOutOfRange :
    (sample.readReg 4 = .ok 0x80000000#32 ∧ immx 0 32 = some 32#32 ∧ 31 < (32#32).toNat) ∧
    (sample.readReg 4 = .ok 0x80000000#32 ∧ sample.readReg 3 = .ok 0xFFFFFFFF#32 ∧
      31 < (0xFFFFFFFF#32).toNat) := by decide

/-- The first and the last admitted word. -/
theorem witness_LoadReadsTheWord :
    sample.readReg 2 = .ok 0x1000#32 ∧
    (immx 0 0 = some 0#32 ∧ (0x1000#32 + 0#32).toNat % 4 = 0 ∧ sample.admitted (0x1000#32 + 0#32) = true ∧
      sample.mem.readWord (0x1000#32 + 0#32).toNat = some 7#32) ∧
    (immx 0 0xFFC = some 0xFFC#32 ∧ (0x1000#32 + 0xFFC#32).toNat % 4 = 0 ∧
      sample.admitted (0x1000#32 + 0xFFC#32) = true ∧
      sample.mem.readWord (0x1000#32 + 0xFFC#32).toNat = some 9#32) := by decide

theorem witness_StoreWritesTheWord :
    sample.readReg 2 = .ok 0x1000#32 ∧ sample.readReg 1 = .ok 5#32 ∧ immx 0 0xFFC = some 0xFFC#32 ∧
    (0x1000#32 + 0xFFC#32).toNat % 4 = 0 ∧ sample.admitted (0x1000#32 + 0xFFC#32) = true := by decide

theorem witness_StoreThenLoad :
    (∃ t, exec (.st 1 2 0 4) sample = .next t) ∧ sample.readReg 1 = .ok 5#32 := ⟨⟨_, rfl⟩, by decide⟩

theorem witness_MostRecentWriteIsRead :
    (∃ t, sample.memWrite 0x1004#32 1#32 = .ok t) ∧ (0x1004#32).toNat % 4 = 0 ∧ (0x1000#32).toNat % 4 = 0 :=
  ⟨⟨_, rfl⟩, by decide, by decide⟩

/-- Each clause: the misaligned neighbour of the last word, the first word past the data, a word never written; and
a text address. -/
theorem witness_MemoryFaultsInOrder :
    (sample.readReg 2 = .ok 0x1000#32 ∧ sample.regsWritten[(1 : Reg)] = true) ∧
    (immx 0 0xFFD = some 0xFFD#32 ∧ (0x1000#32 + 0xFFD#32).toNat % 4 ≠ 0) ∧
    (immx 0 0x1000 = some 0x1000#32 ∧ (0x1000#32 + 0x1000#32).toNat % 4 = 0 ∧
      sample.admitted (0x1000#32 + 0x1000#32) = false) ∧
    (immx 0 4 = some 4#32 ∧ (0x1000#32 + 4#32).toNat % 4 = 0 ∧ sample.admitted (0x1000#32 + 4#32) = true ∧
      sample.mem.readWord (0x1000#32 + 4#32).toNat = none) ∧
    (sample.inText 0x10#32 = true ∧ sample.inText 0x13#32 = true ∧ sample.inText 0x14#32 = false) := by decide

theorem witness_BranchesFollowTheFlags : sample.flagsWritten = true ∧ sample.flags.e = true := by decide

/-- `ra` written; `ra` unwritten; and `ra` at `END_PC`, misaligned, and outside the text. -/
theorem witness_RetJumpsToRa :
    sample.readReg Reg.ra = .ok 0x14#32 ∧
    (at16 0xA0000000#32 []).regsWritten[Reg.ra] = false ∧
    after (fun t => decide (t.pc = t.endPc)) (exec .ret (at16 0xA0000000#32 [(15, 0x80#32)])) = some true ∧
    after (fun t => (decide (t.pc ≠ t.endPc), decide (t.pc.toNat % 4 ≠ 0)))
      (exec .ret (at16 0xA0000000#32 [(15, 0x81#32)])) = some (true, true) ∧
    after (fun t => (decide (t.pc ≠ t.endPc), decide (t.pc.toNat % 4 = 0), t.inText t.pc)) (exec .ret sample) =
      some (true, true, false) := by decide

theorem witness_CallThenRetReturns :
    ∃ t, exec (.call 3) sample = .next t ∧ (t.setPc 0x40#32).readReg Reg.ra = t.readReg Reg.ra := ⟨_, rfl, rfl⟩

theorem witness_OnlyTransfersLeaveSequence :
    (∃ t, exec (.addReg 6 1 3) sample = .next t) ∧ (Instr.addReg 6 1 3).isTransfer = false := ⟨⟨_, rfl⟩, rfl⟩

/-- A taken branch, and one not taken. -/
theorem witness_NextPcFollowsIsBranchTaken :
    (decode 0x80000005#32 = .ok (.beq 5) ∧ ∃ t, exec (.beq 5) sample = .next t) ∧
    (decode 0x88000005#32 = .ok (.bgt 5) ∧ ∃ t, exec (.bgt 5) sample = .next t) :=
  ⟨⟨by decide, _, rfl⟩, by decide, _, rfl⟩

theorem witness_OnlyRetMisalignsThePc :
    let s := at16 0xA0000000#32 [(15, 0xE#32)]
    s.fetch = .ok 0xA0000000#32 ∧ ∃ t, step s = .next t ∧ t.pc.toNat % 4 ≠ 0 := ⟨by decide, _, rfl, by decide⟩

theorem witness_RegisterFrame :
    (∃ t, exec (.ld 6 2 0 0) sample = .next t) ∧ (Instr.ld 6 2 0 0).dest ≠ some 2 ∧
    (Instr.ld 6 2 0 0).dest = some 6 := ⟨⟨_, rfl⟩, by decide, by decide⟩

theorem witness_FlagsFrame :
    (∃ t, exec (.subReg 6 1 3) sample = .next t) ∧ (Instr.subReg 6 1 3).writesFlags = false := ⟨⟨_, rfl⟩, rfl⟩

/-- A store with the bytes on each side of it; and a form that stores nothing. -/
theorem witness_MemoryFrame :
    ((∃ t, exec (.st 1 2 0 4) sample = .next t) ∧ (Instr.st 1 2 0 4).storeAddress sample = some 0x1004#32 ∧
      (0x1003 < (0x1004#32).toNat ∧ (0x1004#32).toNat + 4 ≤ 0x1008)) ∧
    ((∃ t, exec (.ld 1 2 0 0) sample = .next t) ∧ (Instr.ld 1 2 0 0).storeAddress sample = none) :=
  ⟨⟨⟨_, rfl⟩, by decide, by decide⟩, ⟨_, rfl⟩, by decide⟩

theorem witness_RunParametersFrame : ∃ t, exec (.st 1 2 0 4) sample = .next t := ⟨_, rfl⟩

theorem witness_WrittenStaysWritten :
    (∃ t, step (sample 0x0048C000#32) = .next t) ∧ (sample 0x0048C000#32).regsWritten[(1 : Reg)] = true ∧
    (sample 0x0048C000#32).flagsWritten = true ∧ ((sample 0x0048C000#32).mem.readByte 0x1FFF).isSome = true :=
  ⟨⟨_, rfl⟩, by decide, by decide, by decide⟩

theorem witness_UnreadRegistersMakeNoDifference :
    (1 : Reg) ∉ (Instr.addReg 1 2 3).sources ∧ (4 : Reg) ∉ (Instr.st 1 2 0 0).sources := by decide

theorem witness_FlagsMakeNoDifferenceElsewhere :
    (Instr.cmpReg 1 2).readsFlags = false ∧ (Instr.addReg 1 2 3).readsFlags = false := by decide

/-- Words where the signal is 1 and where it is 0, with an instruction that completes. -/
theorem witness_WriteBackSignal :
    (decode 0x98000003#32 = .ok (.call 3) ∧ isWb 0x98000003#32 = true ∧ ∃ t, exec (.call 3) sample = .next t) ∧
    (decode 0x0048C000#32 = .ok (.addReg 1 2 3) ∧ isWb 0x0048C000#32 = true ∧
      ∃ t, exec (.addReg 1 2 3) sample = .next t) ∧
    (decode 0x28048000#32 = .ok (.cmpReg 1 2) ∧ isWb 0x28048000#32 = false ∧
      ∃ t, exec (.cmpReg 1 2) sample = .next t) :=
  ⟨⟨by decide, by decide, _, rfl⟩, ⟨by decide, by decide, _, rfl⟩, by decide, by decide, _, rfl⟩

theorem witness_SingleOpcodeSignals :
    isBeq 0x80000003#32 = true ∧ isBgt 0x88000003#32 = true ∧ isRet 0xA0000000#32 = true ∧
    isCall 0x98000003#32 = true := by decide

theorem witness_UnconditionalBranchSignal :
    decode 0x90000003#32 = .ok (.b 3) ∧ isUbranch 0x90000003#32 = true ∧
    decode 0x80000003#32 = .ok (.beq 3) ∧ isUbranch 0x80000003#32 = false := by decide

theorem witness_AluSignalOpcodes :
    (aluSignals 0x7C48000C#32).count true = 1 ∧ (aluSignals 0x68000000#32).count true = 0 ∧
    opField 0x68000000#32 = 0b01101#5 := by decide

theorem witness_SignalTableOfEveryInstruction :
    decode 0x7448000C#32 = .ok (.ld 1 2 0 12) ∧ activeSignals 0x7448000C#32 = ["isLd", "isWb", "isAdd"] := by decide

/-- A step with a next state, and one with a fault. -/
theorem witness_SignalsDriveTheSameStep :
    (decode 0x74480000#32 = .ok (.ld 1 2 0 0) ∧ ∃ t, signalExec 0x74480000#32 sample = .ok t) ∧
    (decode 0x7448000C#32 = .ok (.ld 1 2 0 12) ∧ signalExec 0x7448000C#32 sample =
      .error (.uninitialisedRead (.mem 0x100C#32))) :=
  ⟨⟨by decide, _, rfl⟩, by decide, rfl⟩

theorem witness_StepRunsTheDecodedInstruction :
    (sample 0x0048C000#32).pc ≠ (sample 0x0048C000#32).endPc ∧ (sample 0x0048C000#32).fetch = .ok 0x0048C000#32 ∧
    decode 0x0048C000#32 = .ok (.addReg 1 2 3) := by decide

/-- Both sides of each equivalence. -/
theorem witness_FetchFaultsExactly :
    (faultOf (step (sample.setPc 0x12#32)) = some (.misalignedFetch 0x12#32) ∧
      (sample.setPc 0x12#32).pc.toNat % 4 ≠ 0) ∧
    (faultOf (step (sample.setPc 0x14#32)) = some (.fetchFault 0x14#32) ∧ sample.inText 0x14#32 = false) := by decide

theorem witness_IllegalInstructionExactly :
    faultOf (step (sample 0xA8000000#32)) = some (.illegalInstruction 0xA8000000#32) ∧
    (sample 0xA8000000#32).fetch = .ok 0xA8000000#32 ∧ decode 0xA8000000#32 = .error .unassignedOpcode := by decide

/-- The first unwritten source is the second operand; and unwritten flags. -/
theorem witness_UninitialisedReadsExactly :
    ((Instr.addReg 1 2 5).wellFormed = true ∧
      (Instr.addReg 1 2 5).sources.find? (fun q => !sample.regsWritten[q]) = some 5 ∧
      faultOf (exec (.addReg 1 2 5) sample) = some (.uninitialisedRead (.reg 5))) ∧
    ((Instr.beq 3).readsFlags = true ∧ (at16 0x68000000#32 []).flagsWritten = false ∧
      faultOf (exec (.beq 3) (at16 0x68000000#32 [])) = some (.uninitialisedRead .flags)) := by decide

theorem witness_StepEndsOnlyAtEndPc :
    (sample.setPc 0x80#32).pc = (sample.setPc 0x80#32).endPc ∧
    step (sample.setPc 0x80#32) = .refused .endedNormally := ⟨by decide, rfl⟩

theorem witness_IllFormedTermsAreIllegal : (Instr.movImm 1 3 3).wellFormed = false := by decide

/-- At a pc inside the text, and at one that is misaligned. -/
theorem witness_PlacedWordRunsNext :
    decode 0x4C400003#32 = .ok (.movImm 1 0 3) ∧
    after (fun t => t.readReg 1) (step (sample.withFetchWord 32 0x4C400003)) = some (.ok 3#32) ∧
    after (fun t => t.readReg 1) (step ((sample.setPc 0x83#32).withFetchWord 32 0x4C400003)) = some (.ok 3#32) := by
  decide

theorem witness_ResetValues : (0xFFFFFFFC#32).toNat % 4 = 0 ∧ (0#32).toNat % 4 = 0 := by decide

/-- Each clause: a register given and one not, the last data word and one without contents, and the first address
past the data. -/
theorem witness_LaunchStateValues :
    sampleLaunch.wellFormed = true ∧ ((14 : Reg), 0x2000#32) ∈ sampleLaunch.regs ∧
    (0 : Reg) ∉ sampleLaunch.regs.map Prod.fst ∧ sampleLaunch.flags = none ∧
    (0x1FFC#32, 9#32) ∈ sampleLaunch.contents ∧
    ((∃ r ∈ sampleLaunch.dataMap, inRegion r (0x1004#32).toNat = true) ∧
      0x1004#32 ∉ sampleLaunch.contents.map Prod.fst) ∧
    ((0x2000#32).toNat % 4 = 0 ∧ ∀ r ∈ sampleLaunch.dataMap, inRegion r (0x2000#32).toNat = false) := by decide

/-- The same launch with values for the flags. -/
def flagsLaunch : Launch := { sampleLaunch with flags := some { e := true, gt := false } }

/-- A launch of the spec, and one that gives the flags a value. -/
theorem witness_LaunchEstablishesTheInvariant :
    (sampleLaunch.wellFormed = true ∧ ∀ f, sampleLaunch.flags = some f → f.consistent = true) ∧
    (flagsLaunch.wellFormed = true ∧ ∀ f, flagsLaunch.flags = some f → f.consistent = true) :=
  ⟨⟨by decide, nofun⟩, by decide, fun _ h => by cases h; rfl⟩

/-- A state that has the invariant, from which a store completes. -/
theorem witness_StepKeepsTheInvariant :
    (State.reset.withFetchWord 32 0x7C000010).Inv ∧ ∃ t, step (State.reset.withFetchWord 32 0x7C000010) = .next t :=
  ⟨{ memWf := by decide, admittedOnly := nofun, wholeWords := nofun, flagsOk := fun _ => rfl }, _, rfl⟩

/-- A run that ends normally, one that ends in a fault, and a branch to itself. -/
theorem witness_EveryRunEndsInOneWay :
    (∃ t, EndsNormally sampleLaunch.start t) ∧
    EndsInFault (sample 0xA8000000#32) (.illegalInstruction 0xA8000000#32) ∧
    step (sample 0x90000000#32) = .next (sample 0x90000000#32) :=
  ⟨⟨_, 2, rfl, by decide⟩, ⟨1, rfl⟩, rfl⟩

/-- A program with a branch forward and one back. -/
def branchProgram : List Item :=
  [.instr (.branch .beq ['b']), .label ['a'], .instr .nop, .label ['b'], .instr (.branch .call ['a'])]

/-- Each branch of the program; and the largest offsets that fit. -/
theorem witness_AssembledBranchReachesItsLabel :
    assemble branchProgram = .ok [0x80000002#32, 0x68000000#32, 0x9FFFFFFF#32] ∧
    branchProgram = [] ++ .instr (.branch .beq ['b']) ::
      [.label ['a'], .instr .nop, .label ['b'], .instr (.branch .call ['a'])] ∧
    branchProgram = [.instr (.branch .beq ['b']), .label ['a'], .instr .nop, .label ['b']] ++
      .instr (.branch .call ['a']) :: [] ∧
    asmOffset 67108863 0 = .ok 0x3FFFFFF#27 ∧ asmOffset 0 67108864 = .ok 0x4000000#27 ∧
    asmOffset 67108864 0 = .error .offsetRange ∧ asmOffset 0 67108865 = .error .offsetRange := by decide

theorem witness_AssembledProgramsAreLegal :
    assemble [.label ['a'], .instr (.op2 .mov .u 0 (.imm 0xFEAB)), .instr (.branch .b ['a'])] =
      .ok [0x4C01FEAB#32, 0x97FFFFFF#32] := by decide

end Sys2Proof.Tests
end

section
/-! PROOF. General registers: none is hardwired (10_state.md R22). -/

namespace Sys2Proof.Machine

/-- Reading any register after a write: the value written where it is the same register, the old outcome where it is
another (10_state.md R22, R30). -/
theorem State.readReg_writeReg (s : State) (r q : Reg) (v : Word) :
    (s.writeReg r v).readReg q = if q = r then .ok v else s.readReg q := by
  by_cases h : q = r
  · rw [if_pos h, h]
    exact State.readReg_writeReg_same s r v
  · rw [if_neg h]
    exact State.readReg_writeReg_other s v h

/-- The register form of `add` completes where both operands are written (40_arithmetic.md R101). -/
theorem exec_addReg_next {rd rs1 rs2 : Reg} {s : State} {a b : Word} (ha : s.readReg rs1 = .ok a)
    (hb : s.readReg rs2 = .ok b) : exec (.addReg rd rs1 rs2) s = .next (s.writeReg rd (a + b)).advance :=
  outcome_next.2 (aluReg_ok.2 ⟨a, b, a + b, ha, hb, rfl, rfl⟩)

/-- The immediate form of `mov` completes in every state where the immediate has a value (42_move_nop.md R130). -/
theorem exec_movImm_next {rd : Reg} {m : BitVec 2} {v : BitVec 16} {b : Word} (s : State) (hb : immx m v = some b) :
    exec (.movImm rd m v) s = .next (s.writeReg rd b).advance :=
  outcome_next.2 (unaryImm_ok.2 ⟨b, hb, rfl⟩)

/-- Settles O17: read after write for every register, and the two instructions on `r0` of R22 as cases of `add` and
`mov` for any register. -/
theorem noRegisterIsHardwired : Obligations.NoRegisterIsHardwired := by
  unfold Obligations.NoRegisterIsHardwired
  refine ⟨State.readReg_writeReg, fun s a b ha hb => exec_addReg_next ha hb, fun s => exec_movImm_next s ?_⟩
  show immx 0b01#2 0xFEAB#16 = some 0x0000FEAB#32
  decide

end Sys2Proof.Machine
end

section
/-! PROOF. What a decoded instruction takes from its word: the opcode map (30_encoding.md R64) and the register it
writes (R87). -/

namespace Sys2Proof

/-! ## What each half of the decoder answers -/

/-- The immediate format is decoded exactly where the modifier is not the reserved one (30_encoding.md R78). -/
theorem decodeImmForm_ok {mk : Reg → Reg → BitVec 2 → BitVec 16 → Instr} {w : Word} {i : Instr} :
    decodeImmForm mk w = .ok i ↔
      modField w ≠ 3#2 ∧ i = mk (rdField w) (rs1Field w) (modField w) (imm16Field w) := by
  unfold decodeImmForm
  split <;> simp_all [@eq_comm _ i]

/-- An opcode with two forms is decoded as the form that `I` names (30_encoding.md R70). -/
theorem decodeTwoForms_ok {mkReg : Reg → Reg → Reg → Instr} {mkImm : Reg → Reg → BitVec 2 → BitVec 16 → Instr}
    {w : Word} {i : Instr} :
    decodeTwoForms mkReg mkImm w = .ok i ↔
      (immBit w = false ∧ i = mkReg (rdField w) (rs1Field w) (rs2Field w)) ∨
      (immBit w = true ∧ modField w ≠ 3#2 ∧ i = mkImm (rdField w) (rs1Field w) (modField w) (imm16Field w)) := by
  unfold decodeTwoForms
  split
  · simp_all [decodeImmForm_ok]
  · simp_all [@eq_comm _ i]

/-- `ld` and `st` are decoded in the immediate form only (30_encoding.md R79). -/
theorem decodeMemForm_ok {mk : Reg → Reg → BitVec 2 → BitVec 16 → Instr} {w : Word} {i : Instr} :
    decodeMemForm mk w = .ok i ↔
      immBit w = true ∧ modField w ≠ 3#2 ∧ i = mk (rdField w) (rs1Field w) (modField w) (imm16Field w) := by
  unfold decodeMemForm
  split <;> simp_all [decodeImmForm_ok]

/-- The 11 codes from `10101` up name no instruction (30_encoding.md R77). -/
theorem decode_unassigned {w : Word} (h : 0b10101#5 ≤ opField w) : decode w = .error .unassignedOpcode := by
  have hop : 21 ≤ (opField w).toNat := BitVec.le_def.1 h
  unfold decode
  split
  case h_22 => rfl
  all_goals omega

/-! ## The opcode and the destination of a decoded instruction -/

/-- The fourteen opcodes whose instruction writes a general register (30_encoding.md R87). -/
def writeBackOpcodes : List (BitVec 5) :=
  [0b00000#5, 0b00001#5, 0b00010#5, 0b00011#5, 0b00100#5, 0b00110#5, 0b00111#5, 0b01000#5, 0b01001#5,
    0b01010#5, 0b01011#5, 0b01100#5, 0b01110#5, 0b10011#5]

/-- `i` has the code `op`, and the register it writes is the one that `op` and the `rd` field name: `ra` for `call`,
`rd` for the other opcodes of R87, none for the rest. -/
structure Instr.OfFields (i : Instr) (op : BitVec 5) (rd : Reg) : Prop where
  opcode : i.opcode = op
  dest : i.dest = if op ∈ writeBackOpcodes then some (if op = 0b10011#5 then Reg.ra else rd) else none

theorem Instr.OfFields.of_toNat {i : Instr} {w : Word} {n : Nat} (hop : (opField w).toNat = n)
    (h : i.OfFields (BitVec.ofNat 5 n) (rdField w)) : i.OfFields (opField w) (rdField w) := by
  have hw : BitVec.ofNat 5 n = opField w := by rw [← hop, BitVec.ofNat_toNat, BitVec.setWidth_eq]
  rwa [hw] at h

/-- The decoder takes the opcode and the destination from the `op` and `rd` fields (30_encoding.md R81). -/
theorem decode_ofFields {w : Word} {i : Instr} (h : decode w = .ok i) : i.OfFields (opField w) (rdField w) := by
  unfold decode at h
  split at h
  case h_14 hop | h_17 hop | h_18 hop | h_19 hop | h_20 hop | h_21 hop =>
    cases h
    exact .of_toNat hop ⟨rfl, rfl⟩
  case h_15 hop | h_16 hop =>
    obtain ⟨-, -, rfl⟩ := decodeMemForm_ok.1 h
    exact .of_toNat hop ⟨rfl, rfl⟩
  case h_22 => cases h
  all_goals
    rename_i hop
    obtain ⟨-, rfl⟩ | ⟨-, -, rfl⟩ := decodeTwoForms_ok.1 h <;> exact .of_toNat hop ⟨rfl, rfl⟩

/-! ## The opcode map (30_encoding.md R64) -/

/-- The opcode table of R64. -/
def opcodeTable : List (String × BitVec 5) :=
  [("add", 0b00000#5), ("sub", 0b00001#5), ("mul", 0b00010#5), ("div", 0b00011#5), ("mod", 0b00100#5),
   ("cmp", 0b00101#5), ("and", 0b00110#5), ("or", 0b00111#5), ("not", 0b01000#5), ("mov", 0b01001#5),
   ("lsl", 0b01010#5), ("lsr", 0b01011#5), ("asr", 0b01100#5), ("nop", 0b01101#5), ("ld", 0b01110#5),
   ("st", 0b01111#5), ("beq", 0b10000#5), ("bgt", 0b10001#5), ("b", 0b10010#5), ("call", 0b10011#5),
   ("ret", 0b10100#5)]

theorem mnemonic_opcode_mem_opcodeTable (i : Instr) : (i.mnemonic, i.opcode) ∈ opcodeTable := by
  cases i <;> simp [Instr.mnemonic, Instr.opcode, opcodeTable]

theorem mnemonic_opField_mem_opcodeTable {w : Word} {i : Instr} (h : decode w = .ok i) :
    (i.mnemonic, opField w) ∈ opcodeTable :=
  (decode_ofFields h).opcode ▸ mnemonic_opcode_mem_opcodeTable i

/-- A word for each row of the table: the immediate format with every field 0, which for the codes of R65 is the
immediate form with the default modifier, and for the others a word with an ignored or an
offset bit set. -/
theorem decode_immWord_of_mem_opcodeTable :
    ∀ p ∈ opcodeTable, (decode (immWord p.2 0 0 0 0)).map Instr.mnemonic = .ok p.1 := by
  decide

theorem exists_decode_of_mem_opcodeTable {p : String × BitVec 5} (hp : p ∈ opcodeTable) :
    ∃ w i, decode w = .ok i ∧ (i.mnemonic, opField w) = p := by
  have hm := decode_immWord_of_mem_opcodeTable p hp
  cases hd : decode (immWord p.2 0 0 0 0) with
  | error e =>
    rw [hd] at hm
    cases hm
  | ok i =>
    rw [hd] at hm
    exact ⟨_, i, hd, Prod.ext (Except.ok.inj hm) (opField_immWord ..)⟩

/-- Settles O5: the decoder's answer has the code of its word, every row of the table is attained by a word of its
own code, and the other 11 codes are refused. -/
theorem opcodeMapOfTwentyOneInstructions : Obligations.OpcodeMapOfTwentyOneInstructions := by
  unfold Obligations.OpcodeMapOfTwentyOneInstructions
  exact ⟨fun _ _ h => mnemonic_opField_mem_opcodeTable h, fun _ hp => exists_decode_of_mem_opcodeTable hp,
    fun _ h => decode_unassigned h⟩

end Sys2Proof
end

section
/-! PROOF. What every instruction does to the general registers (10_state.md R25). -/

namespace Sys2Proof.Machine

/-- From `s` to `t` the general register `d` is written and no other changes; with no `d`, none changes. -/
def RegsAfter (d : Option Reg) (s t : State) : Prop :=
  match d with
  | some r => ∃ v, t.regs = s.regs.set r v ∧ t.regsWritten = s.regsWritten.set r true
  | none => t.regs = s.regs ∧ t.regsWritten = s.regsWritten

theorem regsAfter_some {r : Reg} {s t : State} : RegsAfter (some r) s t ↔
    ∃ v, t.regs = s.regs.set r v ∧ t.regsWritten = s.regsWritten.set r true := Iff.rfl

theorem regsAfter_none {s t : State} : RegsAfter none s t ↔ t.regs = s.regs ∧ t.regsWritten = s.regsWritten :=
  Iff.rfl

theorem regsAfter_writeReg_advance (s : State) (r : Reg) (v : Word) :
    RegsAfter (some r) s (s.writeReg r v).advance := ⟨v, rfl, rfl⟩

/-! ## The four shapes of an ALU instruction -/

theorem aluReg_regsAfter {op : Word → Word → Except Fault Word} {rd rs1 rs2 : Reg} {s t : State}
    (h : outcome (aluReg op rd rs1 rs2 s) = .next t) : RegsAfter (some rd) s t := by
  obtain ⟨a, b, v, -, -, -, rfl⟩ := aluReg_ok.1 (outcome_next.1 h)
  exact regsAfter_writeReg_advance s rd v

theorem aluImm_regsAfter {i : Instr} {op : Word → Word → Except Fault Word} {rd rs1 : Reg} {m : BitVec 2}
    {v : BitVec 16} {s t : State} (h : outcome (aluImm i op rd rs1 m v s) = .next t) : RegsAfter (some rd) s t := by
  obtain ⟨a, b, v, -, -, -, rfl⟩ := aluImm_ok.1 (outcome_next.1 h)
  exact regsAfter_writeReg_advance s rd v

theorem unaryReg_regsAfter {op : Word → Word} {rd rs2 : Reg} {s t : State}
    (h : outcome (unaryReg op rd rs2 s) = .next t) : RegsAfter (some rd) s t := by
  obtain ⟨b, -, rfl⟩ := unaryReg_ok.1 (outcome_next.1 h)
  exact regsAfter_writeReg_advance s rd (op b)

theorem unaryImm_regsAfter {i : Instr} {op : Word → Word} {rd : Reg} {m : BitVec 2} {v : BitVec 16} {s t : State}
    (h : outcome (unaryImm i op rd m v s) = .next t) : RegsAfter (some rd) s t := by
  obtain ⟨b, -, rfl⟩ := unaryImm_ok.1 (outcome_next.1 h)
  exact regsAfter_writeReg_advance s rd (op b)

/-! ## The other instructions -/

theorem execLd_regsAfter {rd rs1 : Reg} {m : BitVec 2} {v : BitVec 16} {s t : State}
    (h : execLd rd rs1 m v s = .next t) : RegsAfter (some rd) s t := by
  obtain ⟨_, -, h⟩ := bind_ok.1 (outcome_next.1 h)
  obtain ⟨_, -, h⟩ := bind_ok.1 h
  obtain ⟨x, -, h⟩ := bind_ok.1 h
  cases h
  exact regsAfter_writeReg_advance s rd x

theorem execSt_regsAfter {rd rs1 : Reg} {m : BitVec 2} {v : BitVec 16} {s t : State}
    (h : execSt rd rs1 m v s = .next t) : RegsAfter none s t := by
  obtain ⟨_, -, h⟩ := bind_ok.1 (outcome_next.1 h)
  obtain ⟨_, -, h⟩ := bind_ok.1 h
  obtain ⟨_, -, h⟩ := bind_ok.1 h
  obtain ⟨u, hu, h⟩ := bind_ok.1 h
  obtain ⟨-, -, rfl⟩ := State.memWrite_ok.1 hu
  cases h
  exact ⟨rfl, rfl⟩

theorem execCmpReg_regsAfter {rs1 rs2 : Reg} {s t : State} (h : execCmpReg rs1 rs2 s = .next t) :
    RegsAfter none s t := by
  obtain ⟨a, -, h⟩ := bind_ok.1 (outcome_next.1 h)
  obtain ⟨b, -, h⟩ := bind_ok.1 h
  cases h
  exact ⟨State.compare_regs s a b, State.compare_regsWritten s a b⟩

theorem execCmpImm_regsAfter {rs1 : Reg} {m : BitVec 2} {v : BitVec 16} {s t : State}
    (h : execCmpImm rs1 m v s = .next t) : RegsAfter none s t := by
  obtain ⟨b, -, h⟩ := bind_ok.1 (outcome_next.1 h)
  obtain ⟨a, -, h⟩ := bind_ok.1 h
  cases h
  exact ⟨State.compare_regs s a b, State.compare_regsWritten s a b⟩

theorem branchIf_regsAfter (s : State) (taken : Bool) (o : BitVec 27) : RegsAfter none s (s.branchIf taken o) := by
  cases taken <;> exact ⟨rfl, rfl⟩

theorem execBeq_regsAfter {o : BitVec 27} {s t : State} (h : execBeq o s = .next t) : RegsAfter none s t := by
  obtain ⟨f, -, h⟩ := bind_ok.1 (outcome_next.1 h)
  cases h
  exact branchIf_regsAfter s f.e o

theorem execBgt_regsAfter {o : BitVec 27} {s t : State} (h : execBgt o s = .next t) : RegsAfter none s t := by
  obtain ⟨f, -, h⟩ := bind_ok.1 (outcome_next.1 h)
  cases h
  exact branchIf_regsAfter s f.gt o

theorem execRet_regsAfter {s t : State} (h : execRet s = .next t) : RegsAfter none s t := by
  obtain ⟨_, -, h⟩ := bind_ok.1 (outcome_next.1 h)
  cases h
  exact ⟨rfl, rfl⟩

/-- Every instruction writes its destination and changes no other general register. -/
theorem exec_regsAfter {i : Instr} {s t : State} (h : exec i s = .next t) : RegsAfter i.dest s t := by
  cases i with
  | addReg | subReg | mulReg | divReg | modReg | andReg | orReg | lslReg | lsrReg | asrReg =>
    exact aluReg_regsAfter h
  | addImm | subImm | mulImm | divImm | modImm | andImm | orImm | lslImm | lsrImm | asrImm =>
    exact aluImm_regsAfter h
  | notReg | movReg => exact unaryReg_regsAfter h
  | notImm | movImm => exact unaryImm_regsAfter h
  | ld => exact execLd_regsAfter h
  | st => exact execSt_regsAfter h
  | cmpReg => exact execCmpReg_regsAfter h
  | cmpImm => exact execCmpImm_regsAfter h
  | beq => exact execBeq_regsAfter h
  | bgt => exact execBgt_regsAfter h
  | ret => exact execRet_regsAfter h
  | nop | b =>
    cases h
    exact ⟨rfl, rfl⟩
  | call =>
    cases h
    exact ⟨_, rfl, rfl⟩

end Sys2Proof.Machine
end

section
/-! PROOF. The control signals and their opcodes (30_encoding.md R85, R87, R88, R90). -/

namespace Sys2Proof.Machine

/-! ## The five bits of the opcode (30_encoding.md R62) -/

theorem op5_eq_getLsbD (w : Word) : op5 w = (opField w).getLsbD 4 := by simp [op5, opField]
theorem op4_eq_getLsbD (w : Word) : op4 w = (opField w).getLsbD 3 := by simp [op4, opField]
theorem op3_eq_getLsbD (w : Word) : op3 w = (opField w).getLsbD 2 := by simp [op3, opField]
theorem op2_eq_getLsbD (w : Word) : op2 w = (opField w).getLsbD 1 := by simp [op2, opField]
theorem op1_eq_getLsbD (w : Word) : op1 w = (opField w).getLsbD 0 := by simp [op1, opField]

/-- A word has the opcode `c` exactly where its five opcode bits are those of `c`: so a product of all five bits,
each plain or negated, is 1 for one opcode. -/
theorem opField_eq_iff (w : Word) (c : BitVec 5) : opField w = c ↔
    op5 w = c.getLsbD 4 ∧ op4 w = c.getLsbD 3 ∧ op3 w = c.getLsbD 2 ∧ op2 w = c.getLsbD 1 ∧ op1 w = c.getLsbD 0 := by
  rw [op5_eq_getLsbD, op4_eq_getLsbD, op3_eq_getLsbD, op2_eq_getLsbD, op1_eq_getLsbD]
  constructor
  · rintro rfl
    exact ⟨rfl, rfl, rfl, rfl, rfl⟩
  · rintro ⟨h5, h4, h3, h2, h1⟩
    apply BitVec.eq_of_getLsbD_eq
    intro k hk
    interval_cases k <;> assumption

/-! ## The signals of one opcode -/

theorem isBeq_iff (w : Word) : isBeq w = true ↔ opField w = 0b10000#5 := by
  simp [isBeq, opField_eq_iff, and_assoc]
theorem isBgt_iff (w : Word) : isBgt w = true ↔ opField w = 0b10001#5 := by
  simp [isBgt, opField_eq_iff, and_assoc]
theorem isRet_iff (w : Word) : isRet w = true ↔ opField w = 0b10100#5 := by
  simp [isRet, opField_eq_iff, and_assoc]
theorem isCall_iff (w : Word) : isCall w = true ↔ opField w = 0b10011#5 := by
  simp [isCall, opField_eq_iff, and_assoc]
theorem isSub_iff (w : Word) : isSub w = true ↔ opField w = 0b00001#5 := by
  simp [isSub, opField_eq_iff, and_assoc]
theorem isCmp_iff (w : Word) : isCmp w = true ↔ opField w = 0b00101#5 := by
  simp [isCmp, opField_eq_iff, and_assoc]
theorem isMul_iff (w : Word) : isMul w = true ↔ opField w = 0b00010#5 := by
  simp [isMul, opField_eq_iff, and_assoc]
theorem isDiv_iff (w : Word) : isDiv w = true ↔ opField w = 0b00011#5 := by
  simp [isDiv, opField_eq_iff, and_assoc]
theorem isMod_iff (w : Word) : isMod w = true ↔ opField w = 0b00100#5 := by
  simp [isMod, opField_eq_iff, and_assoc]
theorem isLsl_iff (w : Word) : isLsl w = true ↔ opField w = 0b01010#5 := by
  simp [isLsl, opField_eq_iff, and_assoc]
theorem isLsr_iff (w : Word) : isLsr w = true ↔ opField w = 0b01011#5 := by
  simp [isLsr, opField_eq_iff, and_assoc]
theorem isAsr_iff (w : Word) : isAsr w = true ↔ opField w = 0b01100#5 := by
  simp [isAsr, opField_eq_iff, and_assoc]
theorem isOr_iff (w : Word) : isOr w = true ↔ opField w = 0b00111#5 := by
  simp [isOr, opField_eq_iff, and_assoc]
theorem isAnd_iff (w : Word) : isAnd w = true ↔ opField w = 0b00110#5 := by
  simp [isAnd, opField_eq_iff, and_assoc]
theorem isNot_iff (w : Word) : isNot w = true ↔ opField w = 0b01000#5 := by
  simp [isNot, opField_eq_iff, and_assoc]
theorem isMov_iff (w : Word) : isMov w = true ↔ opField w = 0b01001#5 := by
  simp [isMov, opField_eq_iff, and_assoc]

/-! ## The signals of several opcodes: their truth tables over the 32 opcodes -/

theorem isAdd_iff (w : Word) : isAdd w = true ↔ opField w ∈ [0b00000#5, 0b01110#5, 0b01111#5] := by
  rw [isAdd, op5_eq_getLsbD, op4_eq_getLsbD, op3_eq_getLsbD, op2_eq_getLsbD, op1_eq_getLsbD]
  generalize opField w = op
  revert op
  decide

theorem isUbranch_iff (w : Word) : isUbranch w = true ↔ opField w ∈ [0b10010#5, 0b10011#5, 0b10100#5] := by
  rw [isUbranch, op5_eq_getLsbD, op4_eq_getLsbD, op3_eq_getLsbD, op2_eq_getLsbD, op1_eq_getLsbD]
  generalize opField w = op
  revert op
  decide

theorem isWb_iff (w : Word) : isWb w = true ↔ opField w ∈ writeBackOpcodes := by
  rw [isWb, op5_eq_getLsbD, op4_eq_getLsbD, op3_eq_getLsbD, op2_eq_getLsbD, op1_eq_getLsbD]
  generalize opField w = op
  revert op
  decide

/-- The expression of `isCall` is a term of the sum `isWb` (30_encoding.md R85, R87). -/
theorem isWb_of_isCall {w : Word} (h : isCall w = true) : isWb w = true :=
  Bool.or_eq_true_iff.2 (.inr h)

/-- Settles O39: each of the four signals is a product of all five opcode bits. -/
theorem singleOpcodeSignals : Obligations.SingleOpcodeSignals := by
  unfold Obligations.SingleOpcodeSignals
  exact fun w => ⟨isBeq_iff w, isBgt_iff w, isRet_iff w, isCall_iff w, isWb_of_isCall⟩

/-! ## `isWb` and the register written -/

/-- The destination of a decoded instruction, told by the signals (30_encoding.md R87). -/
theorem dest_of_decode {w : Word} {i : Instr} (h : decode w = .ok i) :
    i.dest = if isWb w then some (if isCall w then Reg.ra else rdField w) else none := by
  simp only [(decode_ofFields h).dest, isWb_iff, isCall_iff]

/-- Settles O40: the opcodes by the truth table of `isWb`, the register by the destination that the decoder takes
from the word and by what every instruction does to the registers. -/
theorem writeBackSignal : Obligations.WriteBackSignal := by
  unfold Obligations.WriteBackSignal
  refine ⟨isWb_iff, fun w i s t hd he => ?_⟩
  have hregs : RegsAfter (if isWb w then some (if isCall w then Reg.ra else rdField w) else none) s t :=
    dest_of_decode hd ▸ exec_regsAfter he
  constructor
  · intro hwb
    rw [if_pos hwb] at hregs
    exact ⟨_, rfl, regsAfter_some.1 hregs⟩
  · intro hwb
    rw [if_neg (Bool.eq_false_iff.1 hwb)] at hregs
    exact regsAfter_none.1 hregs

/-! ## `isUbranch` and the mnemonic -/

/-- In the opcode table the three mnemonics stand beside the three opcodes of R88. -/
theorem unconditional_mnemonic_iff_opcode : ∀ p ∈ opcodeTable,
    p.1 ∈ ["b", "call", "ret"] ↔ p.2 ∈ [0b10010#5, 0b10011#5, 0b10100#5] := by
  decide

/-- Settles O41: the opcodes by the truth table of `isUbranch`, the mnemonics by the opcode table. -/
theorem unconditionalBranchSignal : Obligations.UnconditionalBranchSignal := by
  unfold Obligations.UnconditionalBranchSignal
  exact ⟨isUbranch_iff, fun w _ h => (isUbranch_iff w).trans
    (unconditional_mnemonic_iff_opcode _ (mnemonic_opField_mem_opcodeTable h)).symm⟩

/-! ## The ALU signals -/

/-- The opcodes of each ALU signal, in the order of `aluSignals` (30_encoding.md R90). -/
def aluOpcodes : List (List (BitVec 5)) :=
  [[0b00000#5, 0b01110#5, 0b01111#5], [0b00001#5], [0b00101#5], [0b00010#5], [0b00011#5], [0b00100#5], [0b01010#5],
    [0b01011#5], [0b01100#5], [0b00111#5], [0b00110#5], [0b01000#5], [0b01001#5]]

theorem aluSignals_eq_map_aluOpcodes (w : Word) :
    aluSignals w = aluOpcodes.map (fun codes => decide (opField w ∈ codes)) := by
  simp only [aluSignals, aluOpcodes, List.map_cons, List.map_nil, List.mem_singleton, ← isAdd_iff, ← isSub_iff,
    ← isCmp_iff, ← isMul_iff, ← isDiv_iff, ← isMod_iff, ← isLsl_iff, ← isLsr_iff, ← isAsr_iff, ← isOr_iff,
    ← isAnd_iff, ← isNot_iff, ← isMov_iff, Bool.decide_eq_true]

/-- No opcode belongs to two ALU signals (30_encoding.md R90). -/
theorem count_aluOpcodes_le_one : ∀ op : BitVec 5,
    (aluOpcodes.map (fun codes => decide (op ∈ codes))).count true ≤ 1 := by
  decide

/-- nop, beq, bgt, b, call and ret belong to no ALU signal (30_encoding.md R90). -/
theorem count_aluOpcodes_eq_zero :
    ∀ op ∈ [0b01101#5, 0b10000#5, 0b10001#5, 0b10010#5, 0b10011#5, 0b10100#5],
      (aluOpcodes.map (fun codes => decide (op ∈ codes))).count true = 0 := by
  decide

/-- Settles O42: each signal by its opcodes, and the two counts by the list of those opcodes. -/
theorem aluSignalOpcodes : Obligations.AluSignalOpcodes := by
  unfold Obligations.AluSignalOpcodes
  intro w
  refine ⟨isAdd_iff w, isSub_iff w, isCmp_iff w, isMul_iff w, isDiv_iff w, isMod_iff w, isLsl_iff w, isLsr_iff w,
    isAsr_iff w, isOr_iff w, isAnd_iff w, isNot_iff w, isMov_iff w, ?_, ?_⟩
  · rw [aluSignals_eq_map_aluOpcodes]
    exact count_aluOpcodes_le_one (opField w)
  · rw [aluSignals_eq_map_aluOpcodes]
    exact count_aluOpcodes_eq_zero (opField w)

end Sys2Proof.Machine
end

section
/-! PROOF. The words of the two formats, decoded by an opcode that has both (30_encoding.md R70, R76, R78). -/

namespace Sys2Proof

/-- The register form is decoded whatever the 14 bits below its fields (30_encoding.md R76). -/
theorem decodeTwoForms_regWord (mkReg : Reg → Reg → Reg → Instr) (mkImm : Reg → Reg → BitVec 2 → BitVec 16 → Instr)
    (op : BitVec 5) (rd rs1 rs2 : Reg) (junk : BitVec 14) :
    decodeTwoForms mkReg mkImm (regWord op rd rs1 rs2 ||| junk.setWidth 32) = .ok (mkReg rd rs1 rs2) := by
  refine decodeTwoForms_ok.2 (.inl ⟨?_, ?_⟩)
  · rw [immBit_or_low14, immBit_regWord]
  · rw [rdField_or_low14, rs1Field_or_low14, rs2Field_or_low14, rdField_regWord, rs1Field_regWord, rs2Field_regWord]

theorem decodeTwoForms_immWord (mkReg : Reg → Reg → Reg → Instr) (mkImm : Reg → Reg → BitVec 2 → BitVec 16 → Instr)
    (op : BitVec 5) (rd rs1 : Reg) {m : BitVec 2} (v : BitVec 16) (hm : m ≠ 3#2) :
    decodeTwoForms mkReg mkImm (immWord op rd rs1 m v) = .ok (mkImm rd rs1 m v) := by
  refine decodeTwoForms_ok.2 (.inr ⟨immBit_immWord .., ?_, ?_⟩)
  · rwa [modField_immWord]
  · rw [rdField_immWord, rs1Field_immWord, modField_immWord, imm16Field_immWord]

theorem decodeTwoForms_immWord_reserved (mkReg : Reg → Reg → Reg → Instr)
    (mkImm : Reg → Reg → BitVec 2 → BitVec 16 → Instr) (op : BitVec 5) (rd rs1 : Reg) (v : BitVec 16) :
    decodeTwoForms mkReg mkImm (immWord op rd rs1 3#2 v) = .error .reservedModifier := by
  rw [decodeTwoForms, if_pos (immBit_immWord ..), decodeImmForm, if_pos (modField_immWord ..)]

/-- The opcode of `mov` has both forms, and neither takes the `rs1` field (42_move_nop.md R130). -/
theorem decode_of_opField_mov {w : Word} (h : opField w = 0b01001#5) :
    decode w = decodeTwoForms (fun rd _ rs2 => .movReg rd rs2) (fun rd _ m v => .movImm rd m v) w := by
  rw [decode, h]
  rfl

end Sys2Proof
end

section
/-! PROOF. `mov` copies its operand (42_move_nop.md R130). -/

namespace Sys2Proof.Machine

/-- A two-operand register form faults where reading its register does. -/
theorem unaryReg_error {op : Word → Word} {rd rs2 : Reg} {s : State} {f : Fault} :
    unaryReg op rd rs2 s = .error f ↔ s.readReg rs2 = .error f := by
  simp [unaryReg, bind_error, pure, Except.pure]

/-- Writing to a register the value it reads as changes nothing, its written mark included: it was written. -/
theorem State.writeReg_of_readReg {s : State} {r : Reg} {a : Word} (h : s.readReg r = .ok a) : s.writeReg r a = s := by
  obtain ⟨hwritten, rfl⟩ := State.readReg_ok.1 h
  have hregs : s.regs.set r s.regs[r] = s.regs := Vector.set_getElem_self _
  have hmarks : s.regsWritten.set r true = s.regsWritten := by
    rw [← hwritten]
    exact Vector.set_getElem_self _
  rw [State.writeReg, hregs, hmarks]

theorem exec_movReg_next {rd rs2 : Reg} {s : State} {b : Word} (hb : s.readReg rs2 = .ok b) :
    exec (.movReg rd rs2) s = .next (s.writeReg rd b).advance :=
  outcome_next.2 (unaryReg_ok.2 ⟨b, hb, rfl⟩)

theorem exec_movReg_fault (rd : Reg) {rs2 : Reg} {s : State} (h : s.regsWritten[rs2] = false) :
    exec (.movReg rd rs2) s = .fault (.uninitialisedRead (.reg rs2)) :=
  outcome_fault.2 (unaryReg_error.2 (State.readReg_error.2 ⟨h, rfl⟩))

/-- A `mov` of a written register to itself changes the `pc` alone (42_move_nop.md R130, corner cases). -/
theorem exec_movReg_self {r : Reg} {s : State} {a : Word} (h : s.readReg r = .ok a) :
    exec (.movReg r r) s = .next s.advance := by
  rw [exec_movReg_next h, State.writeReg_of_readReg h]

theorem mov_twoOperandRule : TwoOperandRule 0b01001#5 .movReg .movImm (fun b => b) where
  regEncoding rd x rs2 junk := by
    have hop : opField (regWord 0b01001#5 rd x rs2 ||| junk.setWidth 32) = 0b01001#5 := by
      rw [opField_or_low14, opField_regWord]
    rw [decode_of_opField_mov hop, decodeTwoForms_regWord]
  immEncoding rd x m v hm := by
    rw [decode_of_opField_mov (opField_immWord ..), decodeTwoForms_immWord _ _ _ _ _ _ hm]
  regEffect _ _ _ _ hb := exec_movReg_next hb
  immEffect _ _ _ s _ hb := exec_movImm_next s hb
  regFault rd _ _ h := exec_movReg_fault rd h
  illegal rd x v := by
    rw [decode_of_opField_mov (opField_immWord ..), decodeTwoForms_immWord_reserved]

/-- Settles O15: the rule of a two-operand instruction, a register moved to itself, and the two words that R130 works
out, which the decoder evaluates. -/
theorem movCopiesItsOperand : Obligations.MovCopiesItsOperand := by
  unfold Obligations.MovCopiesItsOperand
  exact ⟨mov_twoOperandRule, fun _ _ _ h => exec_movReg_self h, by decide, by decide, by decide⟩

end Sys2Proof.Machine
end

section
/-! PROOF. A word and the instruction it stands for: the decoder reads the fields of the instruction's format, and
the encoder writes them (30_encoding.md R61, R76, R81). -/

namespace Sys2Proof

/-! ## A masked word, field by field -/

theorem extractLsb'_and (w mask : Word) (k n : Nat) :
    (w &&& mask).extractLsb' k n = w.extractLsb' k n &&& mask.extractLsb' k n := by
  apply BitVec.eq_of_getLsbD_eq
  intro i hi
  simp [hi]

/-- A field that the mask keeps is the word's. -/
theorem extractLsb'_and_kept {w mask : Word} {k n : Nat} (h : mask.extractLsb' k n = BitVec.allOnes n) :
    (w &&& mask).extractLsb' k n = w.extractLsb' k n := by
  rw [extractLsb'_and, h, BitVec.and_allOnes]

/-- A field that the mask drops is 0. -/
theorem extractLsb'_and_dropped {w mask : Word} {k n : Nat} (h : mask.extractLsb' k n = 0#n) :
    (w &&& mask).extractLsb' k n = 0#n := by
  rw [extractLsb'_and, h, BitVec.and_zero]

theorem immBit_and_kept {w mask : Word} (h : immBit mask = true) : immBit (w &&& mask) = immBit w := by
  have hmask : mask.getLsbD 26 = true := h
  simp [immBit, hmask]

section
variable {w mask : Word}

theorem rdField_and_kept (h : mask.extractLsb' 22 4 = BitVec.allOnes 4) : rdField (w &&& mask) = rdField w :=
  congrArg regOfBits (extractLsb'_and_kept h)
theorem rdField_and_dropped (h : mask.extractLsb' 22 4 = 0#4) : rdField (w &&& mask) = 0 :=
  congrArg regOfBits (extractLsb'_and_dropped h)
theorem rs1Field_and_kept (h : mask.extractLsb' 18 4 = BitVec.allOnes 4) : rs1Field (w &&& mask) = rs1Field w :=
  congrArg regOfBits (extractLsb'_and_kept h)
theorem rs1Field_and_dropped (h : mask.extractLsb' 18 4 = 0#4) : rs1Field (w &&& mask) = 0 :=
  congrArg regOfBits (extractLsb'_and_dropped h)

end

/-! ## Words that agree in the fields of a format -/

theorem getLsbD_eq_of_field {w w' : Word} {k n i : Nat} (h : w.extractLsb' k n = w'.extractLsb' k n) (hk : k ≤ i)
    (hi : i < k + n) : w.getLsbD i = w'.getLsbD i := by
  have hbit := congrArg (fun f => f.getLsbD (i - k)) h
  have hsum : k + (i - k) = i := by omega
  simpa [hsum, show i - k < n by omega] using hbit

/-- Words that agree in fields (position, width) which cover all 32 bits are equal. -/
theorem eq_of_fields {w w' : Word} (fields : List (Nat × Nat))
    (hcover : ∀ i < 32, ∃ f ∈ fields, f.1 ≤ i ∧ i < f.1 + f.2)
    (h : ∀ f ∈ fields, w.extractLsb' f.1 f.2 = w'.extractLsb' f.1 f.2) : w = w' := by
  apply BitVec.eq_of_getLsbD_eq
  intro i hi
  obtain ⟨f, hf, hlo, hhi⟩ := hcover i hi
  exact getLsbD_eq_of_field (h f hf) hlo hhi

theorem extractLsb'_26_eq {w w' : Word} (h : immBit w = immBit w') : w.extractLsb' 26 1 = w'.extractLsb' 26 1 := by
  apply BitVec.eq_of_getLsbD_eq
  intro i hi
  obtain rfl : i = 0 := by omega
  simpa [immBit] using h

theorem eq_of_regFields {w w' : Word} (hop : opField w = opField w') (hI : immBit w = immBit w')
    (hrd : rdField w = rdField w') (hrs1 : rs1Field w = rs1Field w') (hrs2 : rs2Field w = rs2Field w')
    (hlow : w.extractLsb' 0 14 = w'.extractLsb' 0 14) : w = w' := by
  refine eq_of_fields [(27, 5), (26, 1), (22, 4), (18, 4), (14, 4), (0, 14)] (by decide) ?_
  simp only [List.forall_mem_cons]
  exact ⟨hop, extractLsb'_26_eq hI, congrArg bitsOfReg hrd, congrArg bitsOfReg hrs1, congrArg bitsOfReg hrs2, hlow,
    List.forall_mem_nil _⟩

theorem eq_of_immFields {w w' : Word} (hop : opField w = opField w') (hI : immBit w = immBit w')
    (hrd : rdField w = rdField w') (hrs1 : rs1Field w = rs1Field w') (hmod : modField w = modField w')
    (himm : imm16Field w = imm16Field w') : w = w' := by
  refine eq_of_fields [(27, 5), (26, 1), (22, 4), (18, 4), (16, 2), (0, 16)] (by decide) ?_
  simp only [List.forall_mem_cons]
  exact ⟨hop, extractLsb'_26_eq hI, congrArg bitsOfReg hrd, congrArg bitsOfReg hrs1, hmod, himm,
    List.forall_mem_nil _⟩

theorem eq_of_branchFields {w w' : Word} (hop : opField w = opField w') (ho : offsetField w = offsetField w') :
    w = w' := by
  refine eq_of_fields [(27, 5), (0, 27)] (by decide) ?_
  simp only [List.forall_mem_cons]
  exact ⟨hop, ho, List.forall_mem_nil _⟩

theorem extractLsb'_low14_regWord (op : BitVec 5) (rd rs1 rs2 : Reg) :
    (regWord op rd rs1 rs2).extractLsb' 0 14 = 0#14 := by
  apply BitVec.eq_of_getLsbD_eq
  intro i hi
  simp only [regWord, BitVec.getLsbD_extractLsb', BitVec.getLsbD_append]
  rw [if_pos (by omega)]
  simp

/-! ## The words of a format, masked -/

/-- What a mask that keeps the opcode and the `I` bit leaves of a word is the register word of the fields left. -/
theorem and_eq_regWord_iff {w mask : Word} {op : BitVec 5} {rd rs1 rs2 : Reg}
    (hop : opField mask = BitVec.allOnes 5) (hI : immBit mask = true)
    (hrs2 : mask.extractLsb' 14 4 = BitVec.allOnes 4) (hlow : mask.extractLsb' 0 14 = 0#14) :
    w &&& mask = regWord op rd rs1 rs2 ↔ opField w = op ∧ immBit w = false ∧ rdField (w &&& mask) = rd ∧
      rs1Field (w &&& mask) = rs1 ∧ rs2Field w = rs2 := by
  have hop' : opField (w &&& mask) = opField w := extractLsb'_and_kept hop
  have hrs2' : rs2Field (w &&& mask) = rs2Field w := congrArg regOfBits (extractLsb'_and_kept hrs2)
  rw [← hop', ← immBit_and_kept hI, ← hrs2']
  constructor
  · intro h
    rw [h]
    exact ⟨opField_regWord .., immBit_regWord .., rdField_regWord .., rs1Field_regWord .., rs2Field_regWord ..⟩
  · rintro ⟨rfl, himm, rfl, rfl, rfl⟩
    refine eq_of_regFields (opField_regWord ..).symm ?_ (rdField_regWord ..).symm (rs1Field_regWord ..).symm
      (rs2Field_regWord ..).symm ?_
    · rw [himm, immBit_regWord]
    · rw [extractLsb'_and_dropped hlow, extractLsb'_low14_regWord]

/-- As `and_eq_regWord_iff`, for the immediate format. -/
theorem and_eq_immWord_iff {w mask : Word} {op : BitVec 5} {rd rs1 : Reg} {m : BitVec 2} {v : BitVec 16}
    (hop : opField mask = BitVec.allOnes 5) (hI : immBit mask = true) (hmod : modField mask = BitVec.allOnes 2)
    (himm : imm16Field mask = BitVec.allOnes 16) :
    w &&& mask = immWord op rd rs1 m v ↔ opField w = op ∧ immBit w = true ∧ rdField (w &&& mask) = rd ∧
      rs1Field (w &&& mask) = rs1 ∧ modField w = m ∧ imm16Field w = v := by
  have hop' : opField (w &&& mask) = opField w := extractLsb'_and_kept hop
  have hmod' : modField (w &&& mask) = modField w := extractLsb'_and_kept hmod
  have himm' : imm16Field (w &&& mask) = imm16Field w := extractLsb'_and_kept himm
  rw [← hop', ← immBit_and_kept hI, ← hmod', ← himm']
  constructor
  · intro h
    rw [h]
    exact ⟨opField_immWord .., immBit_immWord .., rdField_immWord .., rs1Field_immWord .., modField_immWord ..,
      imm16Field_immWord ..⟩
  · rintro ⟨rfl, hbit, rfl, rfl, rfl, rfl⟩
    refine eq_of_immFields (opField_immWord ..).symm ?_ (rdField_immWord ..).symm (rs1Field_immWord ..).symm
      (modField_immWord ..).symm (imm16Field_immWord ..).symm
    rw [hbit, immBit_immWord]

/-- The mask of the three-operand register form drops the 14 low bits alone. -/
theorem and_threeRegMask_iff {w : Word} {op : BitVec 5} {rd rs1 rs2 : Reg} :
    w &&& 0xFFFFC000#32 = regWord op rd rs1 rs2 ↔
      opField w = op ∧ immBit w = false ∧ rdField w = rd ∧ rs1Field w = rs1 ∧ rs2Field w = rs2 := by
  rw [and_eq_regWord_iff (by decide) (by decide) (by decide) (by decide), rdField_and_kept (by decide),
    rs1Field_and_kept (by decide)]

/-- The mask of `cmp` in register form drops `rd` too (30_encoding.md R72). -/
theorem and_cmpRegMask_iff {w : Word} {op : BitVec 5} {rs1 rs2 : Reg} :
    w &&& 0xFC3FC000#32 = regWord op 0 rs1 rs2 ↔
      opField w = op ∧ immBit w = false ∧ rs1Field w = rs1 ∧ rs2Field w = rs2 := by
  have hrd : rdField (w &&& 0xFC3FC000#32) = 0 := rdField_and_dropped (by decide)
  rw [and_eq_regWord_iff (by decide) (by decide) (by decide) (by decide), rs1Field_and_kept (by decide)]
  simp only [hrd, true_and]

/-- The mask of `not` and `mov` in register form drops `rs1` too (30_encoding.md R73). -/
theorem and_unaryRegMask_iff {w : Word} {op : BitVec 5} {rd rs2 : Reg} :
    w &&& 0xFFC3C000#32 = regWord op rd 0 rs2 ↔
      opField w = op ∧ immBit w = false ∧ rdField w = rd ∧ rs2Field w = rs2 := by
  have hrs1 : rs1Field (w &&& 0xFFC3C000#32) = 0 := rs1Field_and_dropped (by decide)
  rw [and_eq_regWord_iff (by decide) (by decide) (by decide) (by decide), rdField_and_kept (by decide)]
  simp only [hrs1, true_and]

/-- The immediate form of three operands has no ignored bit. -/
theorem and_threeImmMask_iff {w : Word} {op : BitVec 5} {rd rs1 : Reg} {m : BitVec 2} {v : BitVec 16} :
    w &&& 0xFFFFFFFF#32 = immWord op rd rs1 m v ↔ opField w = op ∧ immBit w = true ∧ rdField w = rd ∧
      rs1Field w = rs1 ∧ modField w = m ∧ imm16Field w = v := by
  rw [and_eq_immWord_iff (by decide) (by decide) (by decide) (by decide), rdField_and_kept (by decide),
    rs1Field_and_kept (by decide)]

theorem and_cmpImmMask_iff {w : Word} {op : BitVec 5} {rs1 : Reg} {m : BitVec 2} {v : BitVec 16} :
    w &&& 0xFC3FFFFF#32 = immWord op 0 rs1 m v ↔
      opField w = op ∧ immBit w = true ∧ rs1Field w = rs1 ∧ modField w = m ∧ imm16Field w = v := by
  have hrd : rdField (w &&& 0xFC3FFFFF#32) = 0 := rdField_and_dropped (by decide)
  rw [and_eq_immWord_iff (by decide) (by decide) (by decide) (by decide), rs1Field_and_kept (by decide)]
  simp only [hrd, true_and]

theorem and_unaryImmMask_iff {w : Word} {op : BitVec 5} {rd : Reg} {m : BitVec 2} {v : BitVec 16} :
    w &&& 0xFFC3FFFF#32 = immWord op rd 0 m v ↔
      opField w = op ∧ immBit w = true ∧ rdField w = rd ∧ modField w = m ∧ imm16Field w = v := by
  have hrs1 : rs1Field (w &&& 0xFFC3FFFF#32) = 0 := rs1Field_and_dropped (by decide)
  rw [and_eq_immWord_iff (by decide) (by decide) (by decide) (by decide), rdField_and_kept (by decide)]
  simp only [hrs1, true_and]

/-- A branch has no ignored bit. -/
theorem and_branchMask_iff {w : Word} {op : BitVec 5} {o : BitVec 27} :
    w &&& 0xFFFFFFFF#32 = branchWord op o ↔ opField w = op ∧ offsetField w = o := by
  have hw : w &&& 0xFFFFFFFF#32 = w := BitVec.and_allOnes
  rw [hw]
  constructor
  · rintro rfl
    exact ⟨opField_branchWord .., offsetField_branchWord ..⟩
  · rintro ⟨rfl, rfl⟩
    exact eq_of_branchFields (opField_branchWord ..).symm (offsetField_branchWord ..).symm

/-- Of a nullary word the mask keeps the opcode alone (30_encoding.md R63). -/
theorem and_nullaryMask_iff {w : Word} {op : BitVec 5} :
    w &&& 0xF8000000#32 = branchWord op 0 ↔ opField w = op := by
  have hop : opField (w &&& 0xF8000000#32) = opField w := extractLsb'_and_kept (by decide)
  have ho : offsetField (w &&& 0xF8000000#32) = 0 := extractLsb'_and_dropped (by decide)
  constructor
  · intro h
    rw [← hop, h, opField_branchWord]
  · rintro rfl
    refine eq_of_branchFields ?_ ?_
    · rw [hop, opField_branchWord]
    · rw [ho, offsetField_branchWord]

/-! ## The fields that an instruction takes from its word -/

/-- The opcode of `w` is the code of `i`, the form of `i` is the one that `I` names, and each operand of `i` stands
in its field of `w` (30_encoding.md R61, R66). -/
def Instr.ReadFrom (i : Instr) (w : Word) : Prop :=
  opField w = i.opcode ∧
  match i with
  | .addReg rd rs1 rs2 | .subReg rd rs1 rs2 | .mulReg rd rs1 rs2 | .divReg rd rs1 rs2 | .modReg rd rs1 rs2
  | .andReg rd rs1 rs2 | .orReg rd rs1 rs2 | .lslReg rd rs1 rs2 | .lsrReg rd rs1 rs2 | .asrReg rd rs1 rs2 =>
    immBit w = false ∧ rdField w = rd ∧ rs1Field w = rs1 ∧ rs2Field w = rs2
  | .cmpReg rs1 rs2 => immBit w = false ∧ rs1Field w = rs1 ∧ rs2Field w = rs2
  | .notReg rd rs2 | .movReg rd rs2 => immBit w = false ∧ rdField w = rd ∧ rs2Field w = rs2
  | .addImm rd rs1 m v | .subImm rd rs1 m v | .mulImm rd rs1 m v | .divImm rd rs1 m v | .modImm rd rs1 m v
  | .andImm rd rs1 m v | .orImm rd rs1 m v | .lslImm rd rs1 m v | .lsrImm rd rs1 m v | .asrImm rd rs1 m v
  | .ld rd rs1 m v | .st rd rs1 m v =>
    immBit w = true ∧ rdField w = rd ∧ rs1Field w = rs1 ∧ modField w = m ∧ imm16Field w = v
  | .cmpImm rs1 m v => immBit w = true ∧ rs1Field w = rs1 ∧ modField w = m ∧ imm16Field w = v
  | .notImm rd m v | .movImm rd m v => immBit w = true ∧ rdField w = rd ∧ modField w = m ∧ imm16Field w = v
  | .beq o | .bgt o | .b o | .call o => offsetField w = o
  | .nop | .ret => True

/-- The field bits of a word are those of `i` exactly where `i` is read from its fields (30_encoding.md R76). -/
theorem and_fieldMask_eq_encode_iff (w : Word) (i : Instr) : w &&& i.fieldMask = encode i ↔ i.ReadFrom w := by
  cases i with
  | addReg | subReg | mulReg | divReg | modReg | andReg | orReg | lslReg | lsrReg | asrReg =>
    exact and_threeRegMask_iff
  | addImm | subImm | mulImm | divImm | modImm | andImm | orImm | lslImm | lsrImm | asrImm | ld | st =>
    exact and_threeImmMask_iff
  | cmpReg => exact and_cmpRegMask_iff
  | cmpImm => exact and_cmpImmMask_iff
  | notReg | movReg => exact and_unaryRegMask_iff
  | notImm | movImm => exact and_unaryImmMask_iff
  | beq | bgt | b | call => exact and_branchMask_iff
  | nop | ret => exact and_nullaryMask_iff.trans (and_true _).symm.to_iff

/-- An instruction is read from its own word. -/
theorem readFrom_encode (i : Instr) : i.ReadFrom (encode i) := by
  cases i with
  | addReg | subReg | mulReg | divReg | modReg | andReg | orReg | lslReg | lsrReg | asrReg =>
    exact ⟨opField_regWord .., immBit_regWord .., rdField_regWord .., rs1Field_regWord .., rs2Field_regWord ..⟩
  | addImm | subImm | mulImm | divImm | modImm | andImm | orImm | lslImm | lsrImm | asrImm | ld | st =>
    exact ⟨opField_immWord .., immBit_immWord .., rdField_immWord .., rs1Field_immWord .., modField_immWord ..,
      imm16Field_immWord ..⟩
  | cmpReg => exact ⟨opField_regWord .., immBit_regWord .., rs1Field_regWord .., rs2Field_regWord ..⟩
  | cmpImm =>
    exact ⟨opField_immWord .., immBit_immWord .., rs1Field_immWord .., modField_immWord .., imm16Field_immWord ..⟩
  | notReg | movReg => exact ⟨opField_regWord .., immBit_regWord .., rdField_regWord .., rs2Field_regWord ..⟩
  | notImm | movImm =>
    exact ⟨opField_immWord .., immBit_immWord .., rdField_immWord .., modField_immWord .., imm16Field_immWord ..⟩
  | beq | bgt | b | call => exact ⟨opField_branchWord .., offsetField_branchWord ..⟩
  | nop | ret => exact ⟨opField_branchWord .., trivial⟩

/-! ## The decoder -/

/-- What the decoder answers is well formed and read from the word's fields (30_encoding.md R81). -/
theorem readFrom_of_decode {w : Word} {i : Instr} (h : decode w = .ok i) : i.wellFormed = true ∧ i.ReadFrom w := by
  have hop := (decode_ofFields h).opcode.symm
  unfold decode at h
  split at h
  case h_14 | h_21 =>
    cases h
    exact ⟨rfl, hop, trivial⟩
  case h_17 | h_18 | h_19 | h_20 =>
    cases h
    exact ⟨rfl, hop, rfl⟩
  case h_15 | h_16 =>
    obtain ⟨hI, hm, rfl⟩ := decodeMemForm_ok.1 h
    exact ⟨bne_iff_ne.2 hm, hop, hI, rfl, rfl, rfl, rfl⟩
  case h_6 =>
    obtain ⟨hI, rfl⟩ | ⟨hI, hm, rfl⟩ := decodeTwoForms_ok.1 h
    · exact ⟨rfl, hop, hI, rfl, rfl⟩
    · exact ⟨bne_iff_ne.2 hm, hop, hI, rfl, rfl, rfl⟩
  case h_9 | h_10 =>
    obtain ⟨hI, rfl⟩ | ⟨hI, hm, rfl⟩ := decodeTwoForms_ok.1 h
    · exact ⟨rfl, hop, hI, rfl, rfl⟩
    · exact ⟨bne_iff_ne.2 hm, hop, hI, rfl, rfl, rfl⟩
  case h_22 => cases h
  all_goals
    obtain ⟨hI, rfl⟩ | ⟨hI, hm, rfl⟩ := decodeTwoForms_ok.1 h
    · exact ⟨rfl, hop, hI, rfl, rfl, rfl⟩
    · exact ⟨bne_iff_ne.2 hm, hop, hI, rfl, rfl, rfl, rfl⟩

/-- A well-formed instruction is decoded from every word that has it in its fields. -/
theorem decode_of_readFrom {w : Word} {i : Instr} (hwf : i.wellFormed = true) (h : i.ReadFrom w) :
    decode w = .ok i := by
  obtain ⟨hop, h⟩ := h
  unfold decode
  rw [hop]
  cases i with
  | addReg | subReg | mulReg | divReg | modReg | andReg | orReg | lslReg | lsrReg | asrReg =>
    obtain ⟨hI, rfl, rfl, rfl⟩ := h
    exact decodeTwoForms_ok.2 (.inl ⟨hI, rfl⟩)
  | cmpReg | notReg | movReg =>
    obtain ⟨hI, rfl, rfl⟩ := h
    exact decodeTwoForms_ok.2 (.inl ⟨hI, rfl⟩)
  | addImm | subImm | mulImm | divImm | modImm | andImm | orImm | lslImm | lsrImm | asrImm =>
    obtain ⟨hI, rfl, rfl, rfl, rfl⟩ := h
    exact decodeTwoForms_ok.2 (.inr ⟨hI, bne_iff_ne.1 hwf, rfl⟩)
  | cmpImm | notImm | movImm =>
    obtain ⟨hI, rfl, rfl, rfl⟩ := h
    exact decodeTwoForms_ok.2 (.inr ⟨hI, bne_iff_ne.1 hwf, rfl⟩)
  | ld | st =>
    obtain ⟨hI, rfl, rfl, rfl, rfl⟩ := h
    exact decodeMemForm_ok.2 ⟨hI, bne_iff_ne.1 hwf, rfl⟩
  | beq | bgt | b | call =>
    cases h
    rfl
  | nop | ret => rfl

theorem decode_ok_iff {w : Word} {i : Instr} : decode w = .ok i ↔ i.wellFormed = true ∧ i.ReadFrom w :=
  ⟨readFrom_of_decode, fun h => decode_of_readFrom h.1 h.2⟩

/-- Settles O1: a well-formed instruction stands in the fields of its own word. -/
theorem decodeEncodeRoundTrip : Obligations.DecodeEncodeRoundTrip := by
  unfold Obligations.DecodeEncodeRoundTrip
  exact fun i hwf => decode_of_readFrom hwf (readFrom_encode i)

/-- Settles O2: the decoder and the field mask both say that the instruction stands in the word's fields. -/
theorem decodeReadsExactlyTheFields : Obligations.DecodeReadsExactlyTheFields := by
  unfold Obligations.DecodeReadsExactlyTheFields
  intro w i
  rw [decode_ok_iff, and_fieldMask_eq_encode_iff]

end Sys2Proof
end

section
/-! PROOF. Where each shape of instruction answers and where it faults, beside the laws of `aluReg`, `aluImm`,
`unaryReg` and `unaryImm` (30_encoding.md R70; 60_exceptions.md R187). -/

namespace Sys2Proof.Machine

/-- The reserved modifier has no immediate: any instruction with it is illegal (30_encoding.md R78). -/
theorem immOperand_reserved (i : Instr) (v : BitVec 16) :
    immOperand i 3#2 v = .error (.illegalInstruction (encode i)) :=
  immOperand_error.2 ⟨immx_eq_none.2 rfl, rfl⟩

section
variable {i : Instr} {op : Word → Word → Except Fault Word} {rd rs1 rs2 : Reg} {m : BitVec 2} {v : BitVec 16}
  {s t : State} {f : Fault}

/-- A three-operand register form faults in reading `rs1`, then in reading `rs2`, then in its operation. -/
theorem aluReg_error : aluReg op rd rs1 rs2 s = .error f ↔
    s.readReg rs1 = .error f ∨ ∃ a, s.readReg rs1 = .ok a ∧
      (s.readReg rs2 = .error f ∨ ∃ b, s.readReg rs2 = .ok b ∧ op a b = .error f) := by
  simp [aluReg, bind_error, pure, Except.pure]

/-- A three-operand immediate form faults in its immediate, then in reading `rs1`, then in its operation. -/
theorem aluImm_error : aluImm i op rd rs1 m v s = .error f ↔
    immOperand i m v = .error f ∨ ∃ b, immx m v = some b ∧
      (s.readReg rs1 = .error f ∨ ∃ a, s.readReg rs1 = .ok a ∧ op a b = .error f) := by
  simp [aluImm, bind_error, immOperand_ok, pure, Except.pure]

theorem execCmpReg_next : execCmpReg rs1 rs2 s = .next t ↔
    ∃ a b, s.readReg rs1 = .ok a ∧ s.readReg rs2 = .ok b ∧ t = s.compare a b := by
  simp [execCmpReg, outcome_next, bind_ok, pure, Except.pure, @eq_comm _ t]

theorem execCmpImm_next : execCmpImm rs1 m v s = .next t ↔
    ∃ b a, immx m v = some b ∧ s.readReg rs1 = .ok a ∧ t = s.compare a b := by
  simp [execCmpImm, outcome_next, bind_ok, immOperand_ok, pure, Except.pure, @eq_comm _ t]

theorem execLd_next : execLd rd rs1 m v s = .next t ↔ ∃ disp base x, immx m v = some disp ∧
    s.readReg rs1 = .ok base ∧ s.memRead (base + disp) = .ok x ∧ t = (s.writeReg rd x).advance := by
  simp [execLd, outcome_next, bind_ok, immOperand_ok, effectiveAddress, pure, Except.pure, @eq_comm _ t]

/-- `ld` faults in its immediate, then in reading `rs1`, then in the load (44_load_store.md R151). -/
theorem execLd_fault : execLd rd rs1 m v s = .fault f ↔
    immOperand (.ld rd rs1 m v) m v = .error f ∨ ∃ disp, immx m v = some disp ∧
      (s.readReg rs1 = .error f ∨ ∃ base, s.readReg rs1 = .ok base ∧ s.memRead (base + disp) = .error f) := by
  simp [execLd, outcome_fault, bind_error, immOperand_ok, effectiveAddress, pure, Except.pure]

theorem execSt_next : execSt rd rs1 m v s = .next t ↔ ∃ disp base x u, immx m v = some disp ∧
    s.readReg rs1 = .ok base ∧ s.readReg rd = .ok x ∧ s.memWrite (base + disp) x = .ok u ∧ t = u.advance := by
  simp [execSt, outcome_next, bind_ok, immOperand_ok, effectiveAddress, pure, Except.pure, @eq_comm _ t]

/-- `st` faults in its immediate, then in reading `rs1`, then `rd`, then in the store (44_load_store.md R152). -/
theorem execSt_fault : execSt rd rs1 m v s = .fault f ↔
    immOperand (.st rd rs1 m v) m v = .error f ∨ ∃ disp, immx m v = some disp ∧
      (s.readReg rs1 = .error f ∨ ∃ base, s.readReg rs1 = .ok base ∧
        (s.readReg rd = .error f ∨ ∃ x, s.readReg rd = .ok x ∧ s.memWrite (base + disp) x = .error f)) := by
  simp [execSt, outcome_fault, bind_error, immOperand_ok, effectiveAddress, pure, Except.pure]

theorem execBeq_next {o : BitVec 27} : execBeq o s = .next t ↔
    s.flagsWritten = true ∧ t = s.branchIf s.flags.e o := by
  simp [execBeq, outcome_next, bind_ok, State.readFlags_ok, pure, Except.pure, @eq_comm _ t]

theorem execBgt_next {o : BitVec 27} : execBgt o s = .next t ↔
    s.flagsWritten = true ∧ t = s.branchIf s.flags.gt o := by
  simp [execBgt, outcome_next, bind_ok, State.readFlags_ok, pure, Except.pure, @eq_comm _ t]

theorem execBeq_fault {o : BitVec 27} : execBeq o s = .fault f ↔ s.readFlags = .error f := by
  simp [execBeq, outcome_fault, bind_error, pure, Except.pure]

theorem execBgt_fault {o : BitVec 27} : execBgt o s = .fault f ↔ s.readFlags = .error f := by
  simp [execBgt, outcome_fault, bind_error, pure, Except.pure]

theorem execRet_next : execRet s = .next t ↔ ∃ a, s.readReg Reg.ra = .ok a ∧ t = s.setPc a := by
  simp [execRet, outcome_next, bind_ok, pure, Except.pure, @eq_comm _ t]

theorem execRet_fault : execRet s = .fault f ↔ s.readReg Reg.ra = .error f := by
  simp [execRet, outcome_fault, bind_error, pure, Except.pure]

end

end Sys2Proof.Machine
end

section
/-! PROOF. The words that stand for no instruction (60_exceptions.md R183), the terms that no word stands for
(30_encoding.md R78), and the immediates (R68). -/

namespace Sys2Proof

theorem exists_decodeTwoForms_error {mkReg : Reg → Reg → Reg → Instr}
    {mkImm : Reg → Reg → BitVec 2 → BitVec 16 → Instr} {w : Word} :
    (∃ e, decodeTwoForms mkReg mkImm w = .error e) ↔ immBit w = true ∧ modField w = 3#2 := by
  unfold decodeTwoForms decodeImmForm
  split_ifs <;> simp_all

theorem exists_decodeMemForm_error {mk : Reg → Reg → BitVec 2 → BitVec 16 → Instr} {w : Word} :
    (∃ e, decodeMemForm mk w = .error e) ↔ immBit w = false ∨ immBit w = true ∧ modField w = 3#2 := by
  unfold decodeMemForm decodeImmForm
  split_ifs <;> simp_all

/-- Settles O3: the decoder's arms, each refusing in the way of its forms. -/
theorem illegalWordsExactly : Obligations.IllegalWordsExactly := by
  unfold Obligations.IllegalWordsExactly
  intro w
  unfold decode
  split
  case h_14 hop | h_17 hop | h_18 hop | h_19 hop | h_20 hop | h_21 hop => simp [hop]
  case h_15 hop | h_16 hop => simp [exists_decodeMemForm_error, hop]
  case h_22 =>
    simp only [imp_false] at *
    have hop : 21 ≤ (opField w).toNat := by omega
    simp [hop]
  all_goals
    rename_i hop
    simp [exists_decodeTwoForms_error, hop]

/-- Settles O4: the decoder evaluates each word. -/
theorem workedExampleWordsDecode : Obligations.WorkedExampleWordsDecode := by
  unfold Obligations.WorkedExampleWordsDecode
  decide

theorem decodeMemForm_immWord_reserved (mk : Reg → Reg → BitVec 2 → BitVec 16 → Instr) (op : BitVec 5)
    (rd rs1 : Reg) (v : BitVec 16) : decodeMemForm mk (immWord op rd rs1 3#2 v) = .error .reservedModifier := by
  rw [decodeMemForm, if_pos (immBit_immWord ..), decodeImmForm, if_pos (modField_immWord ..)]

end Sys2Proof

namespace Sys2Proof.Machine

/-- Settles O6: sign extension, zero extension and the shift to the upper half keep the value they are named for. -/
theorem immediateModifiers : Obligations.ImmediateModifiers := by
  unfold Obligations.ImmediateModifiers
  refine ⟨fun v => ⟨⟨_, rfl, ?_⟩, ⟨_, rfl, ?_⟩, ⟨_, rfl, ?_⟩, fun i => immOperand_reserved i v⟩, by decide, by decide,
    by decide⟩
  · exact BitVec.toInt_signExtend_of_le (by decide)
  · exact BitVec.toNat_setWidth_of_le (by decide)
  · rw [BitVec.toNat_append]
    simp [Nat.shiftLeft_eq]

/-- A term with the reserved modifier: the decoder refuses its word, and its meaning, which takes the immediate
before anything else, is the fault of that word. -/
theorem illegal_of_not_wellFormed {i : Instr} (hwf : i.wellFormed = false) (s : State) :
    decode (encode i) = .error .reservedModifier ∧ exec i s = .fault (.illegalInstruction (encode i)) := by
  have hop : opField (encode i) = i.opcode := (readFrom_encode i).1
  unfold decode
  rw [hop]
  cases i with
  | addImm rd rs1 m v | subImm rd rs1 m v | mulImm rd rs1 m v | divImm rd rs1 m v | modImm rd rs1 m v
  | andImm rd rs1 m v | orImm rd rs1 m v | lslImm rd rs1 m v | lsrImm rd rs1 m v | asrImm rd rs1 m v
  | cmpImm rs1 m v | notImm rd m v | movImm rd m v =>
    obtain rfl : m = 3#2 := bne_eq_false_iff_eq.1 hwf
    exact ⟨decodeTwoForms_immWord_reserved .., rfl⟩
  | ld rd rs1 m v | st rd rs1 m v =>
    obtain rfl : m = 3#2 := bne_eq_false_iff_eq.1 hwf
    exact ⟨decodeMemForm_immWord_reserved .., rfl⟩
  | _ => cases hwf

/-- Settles O50. -/
theorem illFormedTermsAreIllegal : Obligations.IllFormedTermsAreIllegal := by
  unfold Obligations.IllFormedTermsAreIllegal
  exact fun i s hwf => illegal_of_not_wellFormed hwf s

/-! ## The signal table (30_encoding.md R92) -/

/-- The signals are functions of the opcode alone. -/
theorem activeSignals_congr {w w' : Word} (h : opField w = opField w') : activeSignals w = activeSignals w' := by
  have h5 : op5 w = op5 w' := by rw [op5_eq_getLsbD, op5_eq_getLsbD, h]
  have h4 : op4 w = op4 w' := by rw [op4_eq_getLsbD, op4_eq_getLsbD, h]
  have h3 : op3 w = op3 w' := by rw [op3_eq_getLsbD, op3_eq_getLsbD, h]
  have h2 : op2 w = op2 w' := by rw [op2_eq_getLsbD, op2_eq_getLsbD, h]
  have h1 : op1 w = op1 w' := by rw [op1_eq_getLsbD, op1_eq_getLsbD, h]
  simp only [activeSignals, aluSignals, isSt, isLd, isBeq, isBgt, isRet, isWb, isUbranch, isCall, isAdd, isSub, isCmp,
    isMul, isDiv, isMod, isLsl, isLsr, isAsr, isOr, isAnd, isNot, isMov, h5, h4, h3, h2, h1]

/-- The table of R92. -/
def signalTable : List (String × List String) :=
  [("add", ["isWb", "isAdd"]), ("sub", ["isWb", "isSub"]), ("mul", ["isWb", "isMul"]),
   ("div", ["isWb", "isDiv"]), ("mod", ["isWb", "isMod"]), ("cmp", ["isCmp"]), ("and", ["isWb", "isAnd"]),
   ("or", ["isWb", "isOr"]), ("not", ["isWb", "isNot"]), ("mov", ["isWb", "isMov"]),
   ("lsl", ["isWb", "isLsl"]), ("lsr", ["isWb", "isLsr"]), ("asr", ["isWb", "isAsr"]), ("nop", []),
   ("ld", ["isLd", "isWb", "isAdd"]), ("st", ["isSt", "isAdd"]), ("beq", ["isBeq"]), ("bgt", ["isBgt"]),
   ("b", ["isUbranch"]), ("call", ["isWb", "isUbranch", "isCall"]), ("ret", ["isRet", "isUbranch"])]

/-- Each row of the opcode table has its row of the signal table. -/
theorem activeSignals_of_opcodeTable :
    ∀ p ∈ opcodeTable, (p.1, activeSignals (branchWord p.2 0)) ∈ signalTable := by
  decide

/-- Settles O43: the decoder takes the mnemonic from the opcode, and the signals depend on it alone, so the rows are
those of the opcode table. -/
theorem signalTableOfEveryInstruction : Obligations.SignalTableOfEveryInstruction := by
  unfold Obligations.SignalTableOfEveryInstruction
  intro w i h
  have hrow := activeSignals_of_opcodeTable _ (mnemonic_opField_mem_opcodeTable h)
  have hop : opField (branchWord (opField w) 0) = opField w := opField_branchWord ..
  rwa [activeSignals_congr hop] at hrow

end Sys2Proof.Machine
end

section
/-! PROOF. The ALU instructions: what an operation's answer becomes, and the values of the operations
(40_arithmetic.md, 41_logical.md, 43_shift.md). -/

namespace Sys2Proof.Machine

/-! ## The four shapes with readable operands -/

/-- What an instruction does with its operation's answer: it goes to `rd`, and a fault is the instruction's
(40_arithmetic.md R100). -/
def State.writeBack (s : State) (rd : Reg) (r : Except Fault Word) : Host.Outcome State Fault Refusal :=
  match r with
  | .ok v => .next (s.writeReg rd v).advance
  | .error f => .fault f

@[simp] theorem State.writeBack_ok (s : State) (rd : Reg) (v : Word) :
    s.writeBack rd (.ok v) = .next (s.writeReg rd v).advance := rfl
@[simp] theorem State.writeBack_error (s : State) (rd : Reg) (f : Fault) : s.writeBack rd (.error f) = .fault f := rfl

section
variable {i : Instr} {op : Word → Word → Except Fault Word} {rd rs1 rs2 : Reg} {m : BitVec 2} {v : BitVec 16}
  {s : State} {a b : Word}

theorem outcome_aluReg (ha : s.readReg rs1 = .ok a) (hb : s.readReg rs2 = .ok b) :
    outcome (aluReg op rd rs1 rs2 s) = s.writeBack rd (op a b) := by
  cases h : op a b with
  | ok x => exact outcome_next.2 (aluReg_ok.2 ⟨a, b, x, ha, hb, h, rfl⟩)
  | error f => exact outcome_fault.2 (aluReg_error.2 (.inr ⟨a, ha, .inr ⟨b, hb, h⟩⟩))

theorem outcome_aluImm (ha : s.readReg rs1 = .ok a) (hb : immx m v = some b) :
    outcome (aluImm i op rd rs1 m v s) = s.writeBack rd (op a b) := by
  cases h : op a b with
  | ok x => exact outcome_next.2 (aluImm_ok.2 ⟨a, b, x, hb, ha, h, rfl⟩)
  | error f => exact outcome_fault.2 (aluImm_error.2 (.inr ⟨b, hb, .inr ⟨a, ha, h⟩⟩))

end

/-! ## The rules of the instructions that compute a function -/

theorem State.readReg_of_unwritten {s : State} {r : Reg} (h : s.regsWritten[r] = false) :
    s.readReg r = .error (.uninitialisedRead (.reg r)) := State.readReg_error.2 ⟨h, rfl⟩

theorem State.readReg_of_written {s : State} {r : Reg} (h : s.regsWritten[r] = true) :
    s.readReg r = .ok s.regs[r] := State.readReg_ok.2 ⟨h, rfl⟩

theorem exists_immx_of_ne {m : BitVec 2} (v : BitVec 16) (h : m ≠ 3#2) : ∃ b, immx m v = some b :=
  Option.ne_none_iff_exists'.1 (fun hn => h (immx_eq_none.1 hn))

/-- An opcode with both forms whose meanings are the two shapes of an operation that always answers has the rule of
three operands. -/
theorem threeOperandRule_of {code : BitVec 5} {mkReg : Reg → Reg → Reg → Instr}
    {mkImm : Reg → Reg → BitVec 2 → BitVec 16 → Instr} {op : Word → Word → Except Fault Word}
    {f : Word → Word → Word}
    (hdecode : ∀ w, opField w = code → decode w = decodeTwoForms mkReg mkImm w)
    (hreg : ∀ rd rs1 rs2 s, exec (mkReg rd rs1 rs2) s = outcome (aluReg op rd rs1 rs2 s))
    (himm : ∀ rd rs1 m v s, exec (mkImm rd rs1 m v) s = outcome (aluImm (mkImm rd rs1 m v) op rd rs1 m v s))
    (hop : ∀ a b, op a b = .ok (f a b)) : ThreeOperandRule code mkReg mkImm f where
  regEncoding rd rs1 rs2 junk := by
    rw [hdecode _ ((opField_or_low14 ..).trans (opField_regWord ..)), decodeTwoForms_regWord]
  immEncoding rd rs1 m v hm := by
    rw [hdecode _ (opField_immWord ..), decodeTwoForms_immWord _ _ _ _ _ _ hm]
  regEffect rd rs1 rs2 s a b ha hb := by rw [hreg, outcome_aluReg ha hb, hop, State.writeBack_ok]
  immEffect rd rs1 m v s a b ha hb := by rw [himm, outcome_aluImm ha hb, hop, State.writeBack_ok]
  regFaultFirst rd rs1 rs2 s h := by
    rw [hreg, outcome_fault, aluReg_error]
    exact .inl (State.readReg_of_unwritten h)
  regFaultSecond rd rs1 rs2 s h1 h2 := by
    rw [hreg, outcome_fault, aluReg_error]
    exact .inr ⟨_, State.readReg_of_written h1, .inl (State.readReg_of_unwritten h2)⟩
  immFault rd rs1 m v s hm h := by
    obtain ⟨b, hb⟩ := exists_immx_of_ne v hm
    rw [himm, outcome_fault, aluImm_error]
    exact .inr ⟨b, hb, .inl (State.readReg_of_unwritten h)⟩
  illegal rd rs1 v := by rw [hdecode _ (opField_immWord ..), decodeTwoForms_immWord_reserved]

/-- As `threeOperandRule_of`, for two operands; the `rs1` field is not read. -/
theorem twoOperandRule_of {code : BitVec 5} {mkReg : Reg → Reg → Instr} {mkImm : Reg → BitVec 2 → BitVec 16 → Instr}
    {f : Word → Word}
    (hdecode : ∀ w, opField w = code →
      decode w = decodeTwoForms (fun rd _ rs2 => mkReg rd rs2) (fun rd _ m v => mkImm rd m v) w)
    (hreg : ∀ rd rs2 s, exec (mkReg rd rs2) s = outcome (unaryReg f rd rs2 s))
    (himm : ∀ rd m v s, exec (mkImm rd m v) s = outcome (unaryImm (mkImm rd m v) f rd m v s)) :
    TwoOperandRule code mkReg mkImm f where
  regEncoding rd x rs2 junk := by
    rw [hdecode _ ((opField_or_low14 ..).trans (opField_regWord ..)), decodeTwoForms_regWord]
  immEncoding rd x m v hm := by
    rw [hdecode _ (opField_immWord ..), decodeTwoForms_immWord _ _ _ _ _ _ hm]
  regEffect rd rs2 s b hb := by
    rw [hreg, outcome_next, unaryReg_ok]
    exact ⟨b, hb, rfl⟩
  immEffect rd m v s b hb := by
    rw [himm, outcome_next, unaryImm_ok]
    exact ⟨b, hb, rfl⟩
  regFault rd rs2 s h := by
    rw [hreg, outcome_fault, unaryReg_error]
    exact State.readReg_of_unwritten h
  illegal rd x v := by rw [hdecode _ (opField_immWord ..), decodeTwoForms_immWord_reserved]

/-! ## add, sub, mul, and, or, not -/

theorem addOp_eq (a b : Word) : addOp a b = .ok (BitVec.ofNat 32 (a.toNat + b.toNat)) :=
  congrArg Except.ok (BitVec.eq_of_toNat_eq (by simp))

theorem ofInt_toNat (a : Word) : BitVec.ofInt 32 a.toNat = a := by
  rw [BitVec.ofInt_natCast, BitVec.ofNat_toNat, BitVec.setWidth_eq]

theorem subOp_eq (a b : Word) : subOp a b = .ok (BitVec.ofInt 32 (a.toNat - b.toNat)) := by
  refine congrArg Except.ok (sub_eq_of_eq_add ?_)
  calc a = BitVec.ofInt 32 ((a.toNat : Int) - b.toNat + b.toNat) := by rw [sub_add_cancel, ofInt_toNat]
    _ = BitVec.ofInt 32 (a.toNat - b.toNat) + b := by rw [BitVec.ofInt_add, ofInt_toNat b]

theorem mulOp_eq (a b : Word) : mulOp a b = .ok (BitVec.ofNat 32 (a.toNat * b.toNat)) :=
  congrArg Except.ok (BitVec.eq_of_toNat_eq (by simp))

/-- Settles O8: the rule of three operands for each, with the operation's value modulo 2^32. -/
theorem addSubMulWrap : Obligations.AddSubMulWrap := by
  unfold Obligations.AddSubMulWrap
  refine ⟨threeOperandRule_of (fun w h => ?_) (fun _ _ _ _ => rfl) (fun _ _ _ _ _ => rfl) addOp_eq,
    threeOperandRule_of (fun w h => ?_) (fun _ _ _ _ => rfl) (fun _ _ _ _ _ => rfl) subOp_eq,
    threeOperandRule_of (fun w h => ?_) (fun _ _ _ _ => rfl) (fun _ _ _ _ _ => rfl) mulOp_eq⟩
  all_goals
    rw [decode, h]
    rfl

theorem and_threeOperandRule : ThreeOperandRule 0b00110#5 .andReg .andImm (fun a b => a &&& b) := by
  refine threeOperandRule_of (fun w h => ?_) (fun _ _ _ _ => rfl) (fun _ _ _ _ _ => rfl) (fun _ _ => rfl)
  rw [decode, h]
  rfl

theorem or_threeOperandRule : ThreeOperandRule 0b00111#5 .orReg .orImm (fun a b => a ||| b) := by
  refine threeOperandRule_of (fun w h => ?_) (fun _ _ _ _ => rfl) (fun _ _ _ _ _ => rfl) (fun _ _ => rfl)
  rw [decode, h]
  rfl

theorem not_twoOperandRule : TwoOperandRule 0b01000#5 .notReg .notImm (fun b => ~~~b) := by
  refine twoOperandRule_of (fun w h => ?_) (fun _ _ _ => rfl) (fun _ _ _ _ => rfl)
  rw [decode, h]
  rfl

/-- `and` with `0xFFFF` keeps the lower half (41_logical.md R121). -/
theorem toNat_and_lowMask (a : Word) : (a &&& 0x0000FFFF#32).toNat = a.toNat % 2 ^ 16 := by
  rw [BitVec.toNat_and]
  exact Nat.and_two_pow_sub_one_eq_mod a.toNat 16

/-- `and` with `0xFFFF0000` clears the lower half. -/
theorem toNat_and_highMask (a : Word) : (a &&& 0xFFFF0000#32).toNat = a.toNat - a.toNat % 2 ^ 16 := by
  have hlo : (a.toNat &&& 0xFFFF0000) % 2 ^ 16 = 0 := by rw [Nat.and_mod_two_pow, Nat.and_zero]
  have hhi : (a.toNat &&& 0xFFFF0000) / 2 ^ 16 = a.toNat / 2 ^ 16 := by
    rw [Nat.and_div_two_pow]
    exact (Nat.and_two_pow_sub_one_eq_mod _ 16).trans (Nat.mod_eq_of_lt (by omega))
  have hand : (a &&& 0xFFFF0000#32).toNat = a.toNat &&& 0xFFFF0000 := BitVec.toNat_and ..
  omega

/-- `or` with a word whose upper half is 0 keeps the upper half (41_logical.md R122). -/
theorem toNat_or_div_of_high_zero (a : Word) {b : Word} (h : b.toNat / 2 ^ 16 = 0) :
    (a ||| b).toNat / 2 ^ 16 = a.toNat / 2 ^ 16 := by
  rw [BitVec.toNat_or, Nat.or_div_two_pow, h, Nat.or_zero]

/-- `or` with a word whose upper half is all ones sets it. -/
theorem toNat_or_div_of_high_ones (a : Word) {b : Word} (h : b.toNat / 2 ^ 16 = 0xFFFF) :
    (a ||| b).toNat / 2 ^ 16 = 0xFFFF := by
  have hge : b.toNat / 2 ^ 16 ≤ a.toNat / 2 ^ 16 ||| b.toNat / 2 ^ 16 := Nat.right_le_or
  have hlt : (a ||| b).toNat < 2 ^ 32 := (a ||| b).isLt
  rw [← Nat.or_div_two_pow, ← BitVec.toNat_or] at hge
  omega

/-- Settles O13: bitwise `and` and `or` are the functions. -/
theorem andOrBitByBit : Obligations.AndOrBitByBit := by
  unfold Obligations.AndOrBitByBit
  refine ⟨fun a b => a &&& b, fun a b => a ||| b, fun _ _ _ _ => BitVec.getLsbD_and ..,
    fun _ _ _ _ => BitVec.getLsbD_or ..,
    and_threeOperandRule, or_threeOperandRule,
    fun a => ⟨BitVec.and_allOnes, toNat_and_lowMask a, toNat_and_highMask a, BitVec.and_zero⟩,
    fun a => ⟨toNat_or_div_of_high_zero a (by decide), toNat_or_div_of_high_ones a (by decide)⟩,
    by decide, by decide, by decide, by decide⟩

/-- Settles O14. -/
theorem notInvertsEveryBit : Obligations.NotInvertsEveryBit := by
  unfold Obligations.NotInvertsEveryBit
  exact ⟨fun b => ~~~b, fun b k hk => by simp [hk], not_twoOperandRule⟩

end Sys2Proof.Machine
end

section
/-! PROOF. Division, comparison, shifts and constants (40_arithmetic.md R104 to R108, 43_shift.md, 42_move_nop.md
R131). -/

namespace Sys2Proof.Machine

/-! ## Division (40_arithmetic.md R104, R105, R108) -/

theorem dividing_of_divisible {f : Int → Int → Int} {a b : Word} (h0 : b.toInt ≠ 0)
    (hover : ¬ (a.toInt = -2 ^ 31 ∧ b.toInt = -1)) : dividing f a b = .ok (BitVec.ofInt 32 (f a.toInt b.toInt)) :=
  dividing_ok.2 ⟨h0, hover, rfl⟩

/-- Settles O9: off the two faults each form writes back what its function answers. -/
theorem divModAskTheConfiguration : Obligations.DivModAskTheConfiguration := by
  unfold Obligations.DivModAskTheConfiguration
  intro rd rs1 s a b ha h0 hover
  have hdiv : s.writeBack rd (divOp s.config a b) = _ :=
    congrArg (s.writeBack rd) (dividing_of_divisible h0 hover)
  have hmod : s.writeBack rd (modOp s.config a b) = _ :=
    congrArg (s.writeBack rd) (dividing_of_divisible h0 hover)
  exact ⟨fun rs2 hb => ⟨(outcome_aluReg ha hb).trans hdiv, (outcome_aluReg ha hb).trans hmod⟩,
    fun m v hb => ⟨(outcome_aluImm ha hb).trans hdiv, (outcome_aluImm ha hb).trans hmod⟩⟩

/-- Settles O11: the two cases are those in which `dividing` faults. -/
theorem divModFaultOnZeroAndOverflow : Obligations.DivModFaultOnZeroAndOverflow := by
  unfold Obligations.DivModFaultOnZeroAndOverflow
  intro rd rs1 s a b k ha hk
  have hfault (f : Int → Int → Int) : dividing f a b = .error (.arithmeticFault k) := by
    rw [dividing_error]
    obtain ⟨rfl, h0⟩ | ⟨rfl, hmin, hneg⟩ := hk
    · exact .inl ⟨h0, rfl⟩
    · exact .inr ⟨hmin, hneg, rfl⟩
  have hdiv : s.writeBack rd (divOp s.config a b) = _ := congrArg (s.writeBack rd) (hfault _)
  have hmod : s.writeBack rd (modOp s.config a b) = _ := congrArg (s.writeBack rd) (hfault _)
  exact ⟨fun rs2 hb => ⟨(outcome_aluReg ha hb).trans hdiv, (outcome_aluReg ha hb).trans hmod⟩,
    fun m v hb => ⟨(outcome_aluImm ha hb).trans hdiv, (outcome_aluImm ha hb).trans hmod⟩⟩

/-- The default `DIV_FN` is division rounded toward zero (40_arithmetic.md R108). -/
theorem divFn_standard {c : Config} (h : c.divFn = .standard) (a b : Int) : divFn c a b = a.tdiv b := by
  have hfn : divFn c a b = a.sign * b.sign * ((a.natAbs / b.natAbs : Nat) : Int) := by
    unfold divFn
    rw [h]
  have habs : (a.tdiv b).natAbs = a.natAbs / b.natAbs := Int.natAbs_tdiv a b
  rw [hfn, ← Int.sign_mul_natAbs (a.tdiv b), Int.sign_tdiv, habs]
  split
  · next hlt => rw [Nat.div_eq_of_lt hlt, Nat.cast_zero, mul_zero, mul_zero]
  · rfl

/-- The default `MOD_FN` beside the default `DIV_FN` is the remainder with the sign of the dividend. -/
theorem modFn_standard {c : Config} (hd : c.divFn = .standard) (hm : c.modFn = .standard) (a b : Int) :
    modFn c a b = a.tmod b := by
  have hfn : modFn c a b = a - b * divFn c a b := by
    unfold modFn
    rw [hm]
  rw [hfn, divFn_standard hd, Int.tmod_def]

theorem toInt_bounds (a : Word) : -2 ^ 31 ≤ a.toInt ∧ a.toInt < 2 ^ 31 :=
  ⟨BitVec.le_toInt a, BitVec.toInt_lt⟩

/-- The quotient of two 32-bit values fits 32 bits, except that of `-2^31` by `-1`. -/
theorem tdiv_fits {a b : Word} (h0 : b.toInt ≠ 0) (hover : ¬ (a.toInt = -2 ^ 31 ∧ b.toInt = -1)) :
    -2 ^ 31 ≤ a.toInt.tdiv b.toInt ∧ a.toInt.tdiv b.toInt < 2 ^ 31 := by
  have ha := toInt_bounds a
  by_cases hneg : b.toInt = -1
  · rw [hneg, Int.tdiv_neg, Int.tdiv_one]
    omega
  by_cases hone : b.toInt = 1
  · rw [hone, Int.tdiv_one]
    exact ha
  · have habs : (a.toInt.tdiv b.toInt).natAbs = a.toInt.natAbs / b.toInt.natAbs := Int.natAbs_tdiv ..
    have hhalf : a.toInt.natAbs / b.toInt.natAbs ≤ 2 ^ 30 := Nat.div_le_of_le_mul (by omega)
    omega

/-- The remainder is smaller than the divisor in magnitude. -/
theorem natAbs_tmod_lt (a : Int) {b : Int} (h0 : b ≠ 0) : (a.tmod b).natAbs < b.natAbs := by
  rw [Int.natAbs_tmod]
  exact Nat.mod_lt _ (Int.natAbs_pos.2 h0)

/-- Settles O10. -/
theorem defaultDivisionTruncates : Obligations.DefaultDivisionTruncates := by
  unfold Obligations.DefaultDivisionTruncates
  intro c a b hd hm h0 hover
  have hr := natAbs_tmod_lt a.toInt h0
  have hb := toInt_bounds b
  obtain ⟨hqlo, hqhi⟩ := tdiv_fits h0 hover
  have hq : (BitVec.ofInt 32 (divFn c a.toInt b.toInt)).toInt = a.toInt.tdiv b.toInt := by
    rw [divFn_standard hd, BitVec.toInt_ofInt_eq_self (by decide) hqlo hqhi]
  have hrem : (BitVec.ofInt 32 (modFn c a.toInt b.toInt)).toInt = a.toInt.tmod b.toInt := by
    rw [modFn_standard hd hm, BitVec.toInt_ofInt_eq_self (by decide) (by omega) (by omega)]
  refine ⟨hq, hrem, ?_, ?_⟩
  · rw [hq, hrem, Int.mul_tdiv_add_tmod]
  · rwa [hrem]

/-! ## Comparison (40_arithmetic.md R106) -/

theorem compareFlags_eq (a b : Word) : compareFlags a b = { e := a == b, gt := b.slt a } := by
  have he : decide (a.toInt = b.toInt) = (a == b) := 
    Bool.eq_iff_iff.2 (by simp [BitVec.toInt_inj])
  rw [compareFlags, he]
  rfl

theorem State.compare_eq (s : State) (a b : Word) :
    s.compare a b = (s.writeFlags { e := a == b, gt := b.slt a }).advance := by
  rw [State.compare, compareFlags_eq]

theorem decode_of_opField_cmp {w : Word} (h : opField w = 0b00101#5) :
    decode w = decodeTwoForms (fun _ rs1 rs2 => .cmpReg rs1 rs2) (fun _ rs1 m v => .cmpImm rs1 m v) w := by
  rw [decode, h]
  rfl

/-- Settles O12: the two forms compare their operands, and the decoder does not take the `rd` field. -/
theorem cmpWritesBothFlags : Obligations.CmpWritesBothFlags := by
  unfold Obligations.CmpWritesBothFlags
  refine ⟨fun rs1 rs2 s a b ha hb => ?_, fun rs1 m v s a b ha hb => ?_, fun a b => ?_, fun x rs1 rs2 junk => ?_,
    fun x rs1 m v hm => ?_⟩
  · exact execCmpReg_next.2 ⟨a, b, ha, hb, (State.compare_eq s a b).symm⟩
  · exact execCmpImm_next.2 ⟨b, a, hb, ha, (State.compare_eq s a b).symm⟩
  · rintro ⟨he, hgt⟩
    have hcons := compareFlags_consistent a b
    rw [compareFlags_eq, Flags.consistent, he, hgt] at hcons
    cases hcons
  · rw [decode_of_opField_cmp ((opField_or_low14 ..).trans (opField_regWord ..)), decodeTwoForms_regWord]
  · rw [decode_of_opField_cmp (opField_immWord ..), decodeTwoForms_immWord _ _ _ _ _ _ hm]

/-! ## Shifts (43_shift.md) -/

theorem shiftLeft_eq_ofNat (a : Word) (n : Nat) : a <<< n = BitVec.ofNat 32 (a.toNat * 2 ^ n) :=
  BitVec.eq_of_toNat_eq (by rw [BitVec.toNat_shiftLeft, Nat.shiftLeft_eq, BitVec.toNat_ofNat])

theorem ushiftRight_eq_ofNat (a : Word) (n : Nat) : a >>> n = BitVec.ofNat 32 (a.toNat / 2 ^ n) := by
  rw [← Nat.shiftRight_eq_div_pow, ← BitVec.toNat_ushiftRight, BitVec.ofNat_toNat, BitVec.setWidth_eq]

theorem sshiftRight_eq_ofInt (a : Word) (n : Nat) : a.sshiftRight n = BitVec.ofInt 32 (a.toInt / 2 ^ n) := by
  rw [BitVec.sshiftRight, Int.shiftRight_eq_div_pow]
  norm_cast

section
variable {c : Config} {a b : Word}

theorem lslOp_in_range (h : b.toNat ≤ 31) : lslOp c a b = .ok (BitVec.ofNat 32 (a.toNat * 2 ^ b.toNat)) :=
  (shifting_in_range h).trans (congrArg Except.ok (shiftLeft_eq_ofNat a _))
theorem lsrOp_in_range (h : b.toNat ≤ 31) : lsrOp c a b = .ok (BitVec.ofNat 32 (a.toNat / 2 ^ b.toNat)) :=
  (shifting_in_range h).trans (congrArg Except.ok (ushiftRight_eq_ofNat a _))
theorem asrOp_in_range (h : b.toNat ≤ 31) : asrOp c a b = .ok (BitVec.ofInt 32 (a.toInt / 2 ^ b.toNat)) :=
  (shifting_in_range h).trans (congrArg Except.ok (sshiftRight_eq_ofInt a _))

end

/-- Settles O18: each operation in range, in the two shapes. -/
theorem shiftsInRange : Obligations.ShiftsInRange := by
  unfold Obligations.ShiftsInRange
  intro rd rs1 s a b ha hn
  have hlsl : s.writeBack rd (lslOp s.config a b) = _ := congrArg (s.writeBack rd) (lslOp_in_range hn)
  have hlsr : s.writeBack rd (lsrOp s.config a b) = _ := congrArg (s.writeBack rd) (lsrOp_in_range hn)
  have hasr : s.writeBack rd (asrOp s.config a b) = _ := congrArg (s.writeBack rd) (asrOp_in_range hn)
  exact ⟨fun rs2 hb => ⟨(outcome_aluReg ha hb).trans hlsl, (outcome_aluReg ha hb).trans hlsr,
      (outcome_aluReg ha hb).trans hasr⟩,
    fun m v hb => ⟨(outcome_aluImm ha hb).trans hlsl, (outcome_aluImm ha hb).trans hlsr,
      (outcome_aluImm ha hb).trans hasr⟩⟩

/-- What an instruction that shifts by `n` above 31 comes to, where its shift by `n mod 32` is `mod32` and by `n`
`saturate` (43_shift.md R144). -/
def State.shiftBeyond (s : State) (rd : Reg) (n : Nat) (mod32 saturate : Word) : Host.Outcome State Fault Refusal :=
  match s.config.shiftOor with
  | .fault => .fault (.shiftAmountFault n)
  | .mod32 => .next (s.writeReg rd mod32).advance
  | .saturate => .next (s.writeReg rd saturate).advance

theorem writeBack_shifting_beyond {s : State} {rd : Reg} {sh : Word → Nat → Word} {far : Word → Word} {a b x y : Word}
    (hn : 31 < b.toNat) (hsh : sh a (b.toNat % 32) = x) (hfar : far a = y) :
    s.writeBack rd (shifting s.config sh far a b) = s.shiftBeyond rd b.toNat x y := by
  subst hsh hfar
  rw [shifting_out_of_range hn, State.shiftBeyond]
  cases s.config.shiftOor <;> rfl

/-- Settles O19: each operation out of range, in the two shapes. -/
theorem shiftsOutOfRange : Obligations.ShiftsOutOfRange := by
  unfold Obligations.ShiftsOutOfRange
  intro rd rs1 s a b ha hn
  have hlsl : s.writeBack rd (lslOp s.config a b) = _ := writeBack_shifting_beyond hn (shiftLeft_eq_ofNat a _) rfl
  have hlsr : s.writeBack rd (lsrOp s.config a b) = _ := writeBack_shifting_beyond hn (ushiftRight_eq_ofNat a _) rfl
  have hmsb : (if a.msb then 0xFFFFFFFF#32 else 0#32) = if a.toInt < 0 then 0xFFFFFFFF#32 else 0#32 := by
    rw [BitVec.msb_eq_toInt]
    simp only [decide_eq_true_eq]
  have hasr : s.writeBack rd (asrOp s.config a b) = _ := writeBack_shifting_beyond hn (sshiftRight_eq_ofInt a _) hmsb
  exact ⟨fun rs2 hb => ⟨(outcome_aluReg ha hb).trans hlsl, (outcome_aluReg ha hb).trans hlsr,
      (outcome_aluReg ha hb).trans hasr⟩,
    fun m v hb => ⟨(outcome_aluImm ha hb).trans hlsl, (outcome_aluImm ha hb).trans hlsr,
      (outcome_aluImm ha hb).trans hasr⟩⟩

/-! ## Constants (42_move_nop.md R131) -/

/-- A word's halves, put together by `or`. -/
theorem upper_or_lower (hi lo : BitVec 16) : (hi ++ 0#16 : Word) ||| lo.zeroExtend 32 = hi ++ lo := by
  apply BitVec.eq_of_getLsbD_eq
  intro k hk
  rw [BitVec.getLsbD_or, BitVec.getLsbD_append, BitVec.getLsbD_append, BitVec.getLsbD_setWidth, decide_eq_true hk]
  split
  · simp
  · next h => simp [BitVec.getLsbD_of_ge lo k (by omega)]

/-- The halves have no bit in common, so `add` puts them together as `or` does. -/
theorem upper_add_lower (hi lo : BitVec 16) : (hi ++ 0#16 : Word) + lo.zeroExtend 32 = hi ++ lo := by
  rw [BitVec.add_eq_or_of_and_eq_zero, upper_or_lower]
  apply BitVec.eq_of_getLsbD_eq
  intro k hk
  rw [BitVec.getLsbD_and, BitVec.getLsbD_append, BitVec.getLsbD_setWidth]
  split
  · simp
  · next h => simp [BitVec.getLsbD_of_ge lo k (by omega)]

/-- Settles O7: the words by the decoder, the rows by the immediate form of `mov`, and the constant in two
instructions by the halves put together. -/
theorem movLoadsConstants : Obligations.MovLoadsConstants := by
  unfold Obligations.MovLoadsConstants
  refine ⟨by decide, fun s => ⟨exec_movImm_next s (by decide), exec_movImm_next s (by decide),
    exec_movImm_next s (by decide), exec_movImm_next s (by decide)⟩, fun rd hi lo s => ?_⟩
  have hrd : (s.writeReg rd (hi ++ 0#16)).advance.readReg rd = .ok (hi ++ 0#16) := by simp
  refine ⟨_, _, _, exec_movImm_next s rfl, outcome_aluImm hrd rfl, ?_, outcome_aluImm hrd rfl, ?_⟩
  · rw [State.readReg_advance, State.readReg_writeReg_same, upper_add_lower]
  · rw [State.readReg_advance, State.readReg_writeReg_same, upper_or_lower]

end Sys2Proof.Machine
end

section
/-! PROOF. Load and store (44_load_store.md; 20_memory.md R45 to R47, R52, R55). -/

namespace Sys2Proof.Machine

/-! ## The primitives -/

@[simp] theorem State.admitted_setMem (s : State) (m : Memory) (a : Word) : (s.setMem m).admitted a = s.admitted a :=
  State.admitted_congr rfl rfl rfl a

@[simp] theorem State.admitted_advance (s : State) (a : Word) : s.advance.admitted a = s.admitted a :=
  State.admitted_congr rfl rfl rfl a

/-- `MemRead` depends on the admitted words and the memory alone. -/
theorem State.memRead_congr {s t : State} {a : Word} (hadm : t.admitted a = s.admitted a)
    (hmem : t.mem.readWord a.toNat = s.mem.readWord a.toNat) : t.memRead a = s.memRead a := by
  rw [State.memRead, State.memRead, hadm, hmem]

theorem State.memRead_setMem_writeWord_same {s : State} {a : Word} (v : Word) (halign : a.toNat % 4 = 0)
    (hadm : s.admitted a = true) : (s.setMem (s.mem.writeWord a.toNat v)).memRead a = .ok v :=
  State.memRead_ok.2 ⟨halign, by simpa using hadm, Memory.readWord_writeWord_same ..⟩

/-- Aligned words do not overlap. -/
theorem State.memRead_setMem_writeWord_other (s : State) {a c : Word} (v : Word) (ha : a.toNat % 4 = 0)
    (hc : c.toNat % 4 = 0) (hne : c ≠ a) : (s.setMem (s.mem.writeWord a.toNat v)).memRead c = s.memRead c := by
  have hnat : c.toNat ≠ a.toNat := fun h => hne (BitVec.eq_of_toNat_eq h)
  exact State.memRead_congr (State.admitted_setMem ..) (Memory.readWord_writeWord_other _ v (by omega))

/-- Settles O23: a write changes the data memory alone, and there one aligned word. -/
theorem mostRecentWriteIsRead : Obligations.MostRecentWriteIsRead := by
  unfold Obligations.MostRecentWriteIsRead
  intro s t a v h c hc
  obtain ⟨ha, hadm, rfl⟩ := State.memWrite_ok.1 h
  split
  · next heq =>
    rw [heq]
    exact State.memRead_setMem_writeWord_same v ha hadm
  · next hne => exact State.memRead_setMem_writeWord_other s v ha hc hne

theorem State.not_admitted_of_inText {s : State} {a : Word} (h : s.inText a = true) : s.admitted a = false := by
  simp [State.admitted, h]

/-! ## `ld` and `st` -/

section
variable {rd rs1 : Reg} {m : BitVec 2} {v : BitVec 16} {s : State} {base disp x : Word}

/-- `ld` is its load, once its operands are read (44_load_store.md R151). -/
theorem exec_ld_fault (hbase : s.readReg rs1 = .ok base) (hdisp : immx m v = some disp) {f : Fault}
    (h : s.memRead (base + disp) = .error f) : exec (.ld rd rs1 m v) s = .fault f :=
  execLd_fault.2 (.inr ⟨disp, hdisp, .inr ⟨base, hbase, h⟩⟩)

theorem exec_ld_next (hbase : s.readReg rs1 = .ok base) (hdisp : immx m v = some disp)
    (h : s.memRead (base + disp) = .ok x) : exec (.ld rd rs1 m v) s = .next (s.writeReg rd x).advance :=
  execLd_next.2 ⟨disp, base, x, hdisp, hbase, h, rfl⟩

/-- `st` is its store, once its operands are read (44_load_store.md R152). -/
theorem exec_st_fault (hbase : s.readReg rs1 = .ok base) (hdisp : immx m v = some disp)
    (hwritten : s.regsWritten[rd] = true) {f : Fault} (h : ∀ y, s.memWrite (base + disp) y = .error f) :
    exec (.st rd rs1 m v) s = .fault f :=
  execSt_fault.2 (.inr ⟨disp, hdisp, .inr ⟨base, hbase, .inr ⟨_, State.readReg_of_written hwritten, h _⟩⟩⟩)

theorem exec_st_next (hbase : s.readReg rs1 = .ok base) (hx : s.readReg rd = .ok x) (hdisp : immx m v = some disp)
    (halign : (base + disp).toNat % 4 = 0) (hadm : s.admitted (base + disp) = true) :
    exec (.st rd rs1 m v) s = .next (s.setMem (s.mem.writeWord (base + disp).toNat x)).advance :=
  execSt_next.2 ⟨disp, base, x, _, hdisp, hbase, hx, State.memWrite_ok.2 ⟨halign, hadm, rfl⟩, rfl⟩

end

/-- Settles O20: the load answers at an aligned, admitted, written word. -/
theorem loadReadsTheWord : Obligations.LoadReadsTheWord := by
  unfold Obligations.LoadReadsTheWord
  exact fun rd rs1 m v s base disp x hbase hdisp halign hadm hword =>
    exec_ld_next hbase hdisp (State.memRead_ok.2 ⟨halign, hadm, hword⟩)

/-- The four bytes that a word write puts in memory (20_memory.md R45). -/
theorem Memory.readByte_writeWord_inside (m : Memory) (a : Nat) (v : Word) {k : Nat} (hk : k < 4) :
    (m.writeWord a v).readByte (a + k) = some (v.extractLsb' (8 * k) 8) := by
  rw [Memory.readByte_writeWord]
  interval_cases k <;> simp

theorem Memory.readByte_writeWord_outside (m : Memory) {a c : Nat} (v : Word) (h : c < a ∨ a + 4 ≤ c) :
    (m.writeWord a v).readByte c = m.readByte c := by
  rw [Memory.readByte_writeWord, if_neg (by omega), if_neg (by omega), if_neg (by omega), if_neg (by omega)]

/-- Settles O21: the memory after the store is the old one with the word written. -/
theorem storeWritesTheWord : Obligations.StoreWritesTheWord := by
  unfold Obligations.StoreWritesTheWord
  exact fun rd rs1 m v s base disp x hbase hx hdisp halign hadm =>
    ⟨_, exec_st_next hbase hx hdisp halign hadm, fun _ hk => Memory.readByte_writeWord_inside _ _ _ hk,
      fun _ hc => Memory.readByte_writeWord_outside _ _ hc⟩

/-- Settles O22: the `ld` computes the same address, and reads there what the `st` wrote. -/
theorem storeThenLoad : Obligations.StoreThenLoad := by
  unfold Obligations.StoreThenLoad
  intro rd rs1 q m v s t x h hx
  obtain ⟨disp, base, x', u, hdisp, hbase, hx', hu, rfl⟩ := execSt_next.1 h
  obtain rfl : x' = x := Except.ok.inj (hx'.symm.trans hx)
  obtain ⟨halign, hadm, rfl⟩ := State.memWrite_ok.1 hu
  refine exec_ld_next hbase hdisp ?_
  exact (State.memRead_congr (State.admitted_advance ..) rfl).trans
    (State.memRead_setMem_writeWord_same x' halign hadm)

/-- Settles O24: the primitives' faults are those of the two instructions. -/
theorem memoryFaultsInOrder : Obligations.MemoryFaultsInOrder := by
  unfold Obligations.MemoryFaultsInOrder
  refine ⟨fun rd rs1 m v s base disp hbase hdisp => ⟨fun hmis => ⟨?_, fun hw => ?_⟩,
    fun halign hadm => ⟨?_, fun hw => ?_⟩, fun halign hadm hnone => ?_⟩, fun s a h => State.not_admitted_of_inText h⟩
  · exact exec_ld_fault hbase hdisp (State.memRead_error.2 (.inl ⟨hmis, rfl⟩))
  · exact exec_st_fault hbase hdisp hw (fun _ => State.memWrite_error.2 (.inl ⟨hmis, rfl⟩))
  · exact exec_ld_fault hbase hdisp (State.memRead_error.2 (.inr (.inl ⟨halign, hadm, rfl⟩)))
  · exact exec_st_fault hbase hdisp hw (fun _ => State.memWrite_error.2 (.inr ⟨halign, hadm, rfl⟩))
  · exact exec_ld_fault hbase hdisp (State.memRead_error.2 (.inr (.inr ⟨halign, hadm, hnone, rfl⟩)))

end Sys2Proof.Machine
end

section
/-! PROOF. Control transfer (45_branch.md, 46_call_ret.md) and `nop` (42_move_nop.md R132). -/

namespace Sys2Proof.Machine

/-- The target is `4 * offset` bytes from the branch, modulo 2^32 (30_encoding.md R75). -/
theorem branchTarget_eq_add (pc : Word) (o : BitVec 27) : branchTarget pc o = pc + BitVec.ofInt 32 (4 * o.toInt) := by
  rw [branchTarget, BitVec.ofInt_mul, BitVec.shiftLeft_eq_mul_twoPow, BitVec.mul_comm]
  rfl

theorem branchTarget_eq (pc : Word) (o : BitVec 27) :
    branchTarget pc o = BitVec.ofInt 32 (pc.toNat + 4 * o.toInt) := by
  rw [branchTarget_eq_add, BitVec.ofInt_add, ofInt_toNat]

/-- A conditional branch changes the `pc` alone (45_branch.md R162, R163). -/
theorem State.branchIf_eq (s : State) (taken : Bool) (o : BitVec 27) :
    s.branchIf taken o = { s with pc := if taken then branchTarget s.pc o else s.pc + 4#32 } := by
  cases taken <;> rfl

/-- Settles O16. -/
theorem nopOnlyAdvances : Obligations.NopOnlyAdvances := by
  unfold Obligations.NopOnlyAdvances
  exact ⟨fun _ => rfl, fun _ => decode_of_readFrom rfl ⟨opField_branchWord .., trivial⟩⟩

/-- Settles O25. -/
theorem branchesFollowTheFlags : Obligations.BranchesFollowTheFlags := by
  unfold Obligations.BranchesFollowTheFlags
  intro o s
  simp only [← branchTarget_eq]
  exact ⟨rfl, fun hw => ⟨execBeq_next.2 ⟨hw, (State.branchIf_eq ..).symm⟩,
    execBgt_next.2 ⟨hw, (State.branchIf_eq ..).symm⟩⟩⟩

/-- Settles O26. -/
theorem callSavesTheReturnAddress : Obligations.CallSavesTheReturnAddress := by
  unfold Obligations.CallSavesTheReturnAddress
  intro o s
  rw [← branchTarget_eq]
  rfl

theorem exec_ret_next {s : State} {a : Word} (h : s.readReg Reg.ra = .ok a) :
    exec .ret s = .next { s with pc := a } := execRet_next.2 ⟨a, h, rfl⟩

/-- At `END_PC` a step ends the run (70_reset_and_hazards.md R203). -/
theorem step_of_endPc {s : State} (h : s.pc = s.endPc) : step s = .refused .endedNormally := if_pos h

/-- Settles O27: the jump is by `ret`'s own meaning, and the tests of its target are those of any step. -/
theorem retJumpsToRa : Obligations.RetJumpsToRa := by
  unfold Obligations.RetJumpsToRa
  refine ⟨fun s a h => exec_ret_next h, fun s h => execRet_fault.2 (State.readReg_of_unwritten h), fun s t _ => ?_,
    fun x => decode_of_readFrom rfl ⟨opField_branchWord .., trivial⟩⟩
  exact ⟨step_of_endPc, fun hend hmis => step_fault.2 ⟨hend, .inl (State.fetch_error.2 (.inl ⟨hmis, rfl⟩))⟩,
    fun hend halign hout => step_fault.2 ⟨hend, .inl (State.fetch_error.2 (.inr ⟨halign, hout, rfl⟩))⟩⟩

/-- Settles O28: `call` leaves `pc + 4` in `ra`, which `ret` jumps to. -/
theorem callThenRetReturns : Obligations.CallThenRetReturns := by
  unfold Obligations.CallThenRetReturns
  intro o s t u h hra
  cases h
  exact exec_ret_next (hra.trans (State.readReg_writeReg_same s Reg.ra (s.pc + 4#32)))

end Sys2Proof.Machine
end

section
/-! PROOF. What an instruction can do to the state, once (10_state.md R25, R27): every frame, and the invariant, is a
case analysis of it. -/

namespace Sys2Proof.Machine

/-- The next states that an instruction can have: a register written, the flags written, an aligned admitted word
stored, or nothing but the `pc` changed; and the `pc` is `s.pc + 4` but for a control transfer. -/
inductive Effect (i : Instr) (s : State) : State → Prop
  | write (rd : Reg) (v : Word) : Effect i s (s.writeReg rd v).advance
  | compare (a b : Word) (hflags : i.writesFlags = true) : Effect i s (s.compare a b)
  | store (a v : Word) (haddr : i.storeAddress s = some a) (halign : a.toNat % 4 = 0) (hadm : s.admitted a = true) :
    Effect i s (s.setMem (s.mem.writeWord a.toNat v)).advance
  | advance : Effect i s s.advance
  | branch (o : BitVec 27) (htransfer : i.isTransfer = true) : Effect i s (s.setPc (branchTarget s.pc o))
  | call (v : Word) (o : BitVec 27) (htransfer : i.isTransfer = true) :
    Effect i s ((s.writeReg Reg.ra v).setPc (branchTarget s.pc o))
  | ret (a : Word) (hi : i = .ret) : Effect i s (s.setPc a)

section
variable {i : Instr} {s t : State} {rd rs1 rs2 : Reg} {m : BitVec 2} {v : BitVec 16}

theorem effect_of_aluReg {op : Word → Word → Except Fault Word} (h : outcome (aluReg op rd rs1 rs2 s) = .next t) :
    Effect i s t := by
  obtain ⟨a, b, x, -, -, -, rfl⟩ := aluReg_ok.1 (outcome_next.1 h)
  exact .write rd x

theorem effect_of_aluImm {j : Instr} {op : Word → Word → Except Fault Word}
    (h : outcome (aluImm j op rd rs1 m v s) = .next t) : Effect i s t := by
  obtain ⟨a, b, x, -, -, -, rfl⟩ := aluImm_ok.1 (outcome_next.1 h)
  exact .write rd x

theorem effect_of_unaryReg {op : Word → Word} (h : outcome (unaryReg op rd rs2 s) = .next t) : Effect i s t := by
  obtain ⟨b, -, rfl⟩ := unaryReg_ok.1 (outcome_next.1 h)
  exact .write rd (op b)

theorem effect_of_unaryImm {j : Instr} {op : Word → Word} (h : outcome (unaryImm j op rd m v s) = .next t) :
    Effect i s t := by
  obtain ⟨b, -, rfl⟩ := unaryImm_ok.1 (outcome_next.1 h)
  exact .write rd (op b)

theorem effect_of_execSt (h : execSt rd rs1 m v s = .next t) : Effect (.st rd rs1 m v) s t := by
  obtain ⟨disp, base, x, u, hdisp, hbase, -, hu, rfl⟩ := execSt_next.1 h
  obtain ⟨halign, hadm, rfl⟩ := State.memWrite_ok.1 hu
  refine .store (base + disp) x ?_ halign hadm
  simp only [Instr.storeAddress, hdisp, hbase, effectiveAddress]

theorem effect_of_branchIf (htransfer : i.isTransfer = true) (taken : Bool) (o : BitVec 27) :
    Effect i s (s.branchIf taken o) := by
  cases taken with
  | false => exact .advance
  | true => exact .branch o htransfer

end

/-- Every instruction that completes has one of those effects. -/
theorem exec_effect {i : Instr} {s t : State} (h : exec i s = .next t) : Effect i s t := by
  cases i with
  | addReg | subReg | mulReg | divReg | modReg | andReg | orReg | lslReg | lsrReg | asrReg => exact effect_of_aluReg h
  | addImm | subImm | mulImm | divImm | modImm | andImm | orImm | lslImm | lsrImm | asrImm => exact effect_of_aluImm h
  | notReg | movReg => exact effect_of_unaryReg h
  | notImm | movImm => exact effect_of_unaryImm h
  | cmpReg =>
    obtain ⟨a, b, -, -, rfl⟩ := execCmpReg_next.1 h
    exact .compare a b rfl
  | cmpImm =>
    obtain ⟨b, a, -, -, rfl⟩ := execCmpImm_next.1 h
    exact .compare a b rfl
  | ld rd =>
    obtain ⟨-, -, x, -, -, -, rfl⟩ := execLd_next.1 h
    exact .write rd x
  | st => exact effect_of_execSt h
  | beq o =>
    obtain ⟨-, rfl⟩ := execBeq_next.1 h
    exact effect_of_branchIf rfl _ o
  | bgt o =>
    obtain ⟨-, rfl⟩ := execBgt_next.1 h
    exact effect_of_branchIf rfl _ o
  | nop =>
    cases h
    exact .advance
  | b o =>
    cases h
    exact .branch o rfl
  | call o =>
    cases h
    exact .call _ o rfl
  | ret =>
    obtain ⟨a, -, rfl⟩ := execRet_next.1 h
    exact .ret a rfl

/-! ## The frames (10_state.md R25, R27, R29, R30) -/

/-- Settles O29: the effects that set the `pc` otherwise are those of control transfers. -/
theorem onlyTransfersLeaveSequence : Obligations.OnlyTransfersLeaveSequence := by
  unfold Obligations.OnlyTransfersLeaveSequence
  intro i s t h hseq
  cases exec_effect h with
  | write | compare | store | advance => rfl
  | branch _ htransfer | call _ _ htransfer =>
    rw [htransfer] at hseq
    cases hseq
  | ret _ hi =>
    subst hi
    cases hseq

theorem branchTarget_aligned {pc : Word} (o : BitVec 27) (h : pc.toNat % 4 = 0) :
    (branchTarget pc o).toNat % 4 = 0 := by
  have hshift : (o.signExtend 32 <<< 2).toNat % 4 = 0 := by
    rw [BitVec.toNat_shiftLeft, Nat.shiftLeft_eq]
    omega
  rw [branchTarget, BitVec.toNat_add]
  omega

theorem add_four_aligned {pc : Word} (h : pc.toNat % 4 = 0) : (pc + 4#32).toNat % 4 = 0 := by
  rw [BitVec.toNat_add, BitVec.toNat_ofNat]
  omega

/-- From an aligned `pc` every effect but that of `ret` leaves an aligned one. -/
theorem Effect.pc_aligned {i : Instr} {s t : State} (he : Effect i s t) (hi : i ≠ .ret) (h : s.pc.toNat % 4 = 0) :
    t.pc.toNat % 4 = 0 := by
  cases he with
  | write | compare | store | advance => exact add_four_aligned h
  | branch o | call _ o => exact branchTarget_aligned o h
  | ret _ hret => exact absurd hret hi

/-- Settles O31: a fetch is made at an aligned `pc` only. -/
theorem onlyRetMisalignsThePc : Obligations.OnlyRetMisalignsThePc := by
  unfold Obligations.OnlyRetMisalignsThePc
  intro s t w hstep hfetch hmis
  obtain ⟨-, w', i, hw', hi, hexec⟩ := step_next.1 hstep
  obtain rfl : w = w' := Except.ok.inj (hfetch.symm.trans hw')
  have halign := (State.fetch_ok.1 hfetch).1
  by_cases hret : i = .ret
  · rwa [hret] at hi
  · exact absurd ((exec_effect hexec).pc_aligned hret halign) hmis

theorem sameReg_of_ne {s t : State} {d r : Reg} (h : RegsAfter (some d) s t) (hne : d ≠ r) : sameReg s t r := by
  obtain ⟨v, hregs, hwritten⟩ := regsAfter_some.1 h
  have hne' : (d : Nat) ≠ r := fun e => hne (Fin.ext e)
  simp [sameReg, hregs, hwritten, hne']

theorem written_of_regsAfter {s t : State} {r : Reg} (h : RegsAfter (some r) s t) : t.regsWritten[r] = true := by
  obtain ⟨v, -, hwritten⟩ := regsAfter_some.1 h
  simp [hwritten]

/-- Settles O32. -/
theorem registerFrame : Obligations.RegisterFrame := by
  unfold Obligations.RegisterFrame
  intro i s t h
  have hregs := exec_regsAfter h
  cases hdest : i.dest with
  | none =>
    rw [hdest] at hregs
    obtain ⟨hsame, hmarks⟩ := regsAfter_none.1 hregs
    exact ⟨fun r _ => ⟨by rw [hsame], by rw [hmarks]⟩, nofun⟩
  | some d =>
    rw [hdest] at hregs
    refine ⟨fun r hne => sameReg_of_ne hregs (fun e => hne (congrArg some e)), fun r hr => ?_⟩
    exact written_of_regsAfter (Option.some.inj hr ▸ hregs)

/-- Settles O33. -/
theorem flagsFrame : Obligations.FlagsFrame := by
  unfold Obligations.FlagsFrame
  intro i s t h hflags
  cases exec_effect h with
  | write | store | advance | branch | call | ret => exact ⟨rfl, rfl⟩
  | compare _ _ hwrites =>
    rw [hwrites] at hflags
    cases hflags

/-- Settles O34: of the effects only the store changes the memory, and that at the four bytes of its word. -/
theorem memoryFrame : Obligations.MemoryFrame := by
  unfold Obligations.MemoryFrame
  intro i s t h c hc
  cases exec_effect h with
  | write | compare | advance | branch | call | ret => rfl
  | store a v haddr => exact Memory.readByte_writeWord_outside _ v (hc a haddr)

theorem Effect.sameRun {i : Instr} {s t : State} (he : Effect i s t) : sameRun s t := by
  cases he <;> exact ⟨rfl, rfl, rfl, rfl, rfl⟩

/-- Settles O35. -/
theorem runParametersFrame : Obligations.RunParametersFrame := by
  unfold Obligations.RunParametersFrame
  exact fun i s t h => (exec_effect h).sameRun

theorem Memory.isSome_readByte_writeWord (m : Memory) (a c : Nat) (v : Word) :
    ((m.writeWord a v).readByte c).isSome = true ↔ (a ≤ c ∧ c < a + 4) ∨ (m.readByte c).isSome = true := by
  by_cases h : a ≤ c ∧ c < a + 4
  · obtain ⟨k, rfl⟩ := Nat.exists_eq_add_of_le h.1
    simp [Memory.readByte_writeWord_inside m a v (show k < 4 by omega), show k < 4 by omega]
  · rw [Memory.readByte_writeWord_outside m v (by omega)]
    simp [h]

/-- Settles O36. -/
theorem writtenStaysWritten : Obligations.WrittenStaysWritten := by
  unfold Obligations.WrittenStaysWritten
  intro s t hstep
  obtain ⟨-, w, i, -, -, hexec⟩ := step_next.1 hstep
  obtain ⟨hother, hdest⟩ := registerFrame i s t hexec
  refine ⟨fun r hr => ?_, fun hf => ?_, fun c hc => ?_⟩
  · by_cases hd : i.dest = some r
    · exact hdest r hd
    · exact (hother r hd).2.trans hr
  · cases exec_effect hexec with
    | write | store | advance | branch | call | ret => exact hf
    | compare => rfl
  · cases exec_effect hexec with
    | write | compare | advance | branch | call | ret => exact hc
    | store a v => exact (Memory.isSome_readByte_writeWord ..).2 (.inr hc)

/-! ## The invariant (20_memory.md R42, R43; 40_arithmetic.md R106) -/

/-- A state with the memory and the run of one that has the invariant has it too, if its flags are consistent. -/
theorem State.Inv.of_sameRun {s t : State} (hs : s.Inv) (hmem : t.mem = s.mem) (hrun : Machine.sameRun s t)
    (hflags : t.flagsWritten = true → t.flags.consistent = true) : t.Inv := by
  obtain ⟨hdata, hbase, htext, -, -⟩ := hrun
  refine ⟨hmem ▸ hs.memWf, fun a ha => ?_, fun a ha k hk => ?_, hflags⟩
  · rw [State.admitted_congr hdata hbase htext]
    exact hs.admittedOnly a (hmem ▸ ha)
  · rw [hmem] at ha ⊢
    exact hs.wholeWords a ha k hk

/-- Storing an aligned admitted word keeps the invariant: the bytes it adds are the four of that word. -/
theorem State.Inv.setMem_writeWord {s : State} (hs : s.Inv) {a : Word} (v : Word) (halign : a.toNat % 4 = 0)
    (hadm : s.admitted a = true) : (s.setMem (s.mem.writeWord a.toNat v)).Inv := by
  have hlt := a.isLt
  refine ⟨Memory.wf_writeWord v (by omega) hs.memWf, fun c hc => ?_, fun c hc k hk => ?_, hs.flagsOk⟩
  · rw [State.admitted_setMem]
    rcases (Memory.isSome_readByte_writeWord ..).1 hc with hin | hold
    · have hword : c - c % 4 = a.toNat := by omega
      rwa [hword, BitVec.ofNat_toNat, BitVec.setWidth_eq]
    · exact hs.admittedOnly c hold
  · refine (Memory.isSome_readByte_writeWord ..).2 ?_
    rcases (Memory.isSome_readByte_writeWord ..).1 hc with hin | hold
    · exact .inl (by omega)
    · exact .inr (hs.wholeWords c hold k hk)

theorem Effect.keeps_inv {i : Instr} {s t : State} (he : Effect i s t) (hs : s.Inv) : t.Inv := by
  have hrun := he.sameRun
  cases he with
  | write | advance | branch | call | ret => exact hs.of_sameRun rfl hrun hs.flagsOk
  | compare a b => exact hs.of_sameRun rfl hrun (fun _ => compareFlags_consistent a b)
  | store a v _ halign hadm =>
    exact (hs.setMem_writeWord v halign hadm).of_sameRun rfl ⟨rfl, rfl, rfl, rfl, rfl⟩ hs.flagsOk

/-- Settles O56: a step that completes is an instruction's, and every effect of one keeps the invariant. -/
theorem stepKeepsTheInvariant : Obligations.StepKeepsTheInvariant := by
  unfold Obligations.StepKeepsTheInvariant
  intro s t hs hstep
  obtain ⟨-, w, i, -, -, hexec⟩ := step_next.1 hstep
  exact (exec_effect hexec).keeps_inv hs

end Sys2Proof.Machine
end

section
/-! PROOF. What an instruction does not read makes no difference to it (10_state.md R25, R28). -/

namespace Sys2Proof.Machine

/-- `s'` is `s` as far as `i` reads it, and what `i` can write to the one is, under `k`, what it writes to the
other. -/
structure Blind (i : Instr) (s s' : State) (k : State → State) : Prop where
  readReg : ∀ q ∈ i.sources, s'.readReg q = s.readReg q
  readFlags : i.readsFlags = true → s'.readFlags = s.readFlags
  pc : s'.pc = s.pc
  mem : s'.mem = s.mem
  config : s'.config = s.config
  admitted : ∀ a, s'.admitted a = s.admitted a
  writeReg : ∀ d, i.dest = some d → ∀ v t, (s'.writeReg d v).setPc t = k ((s.writeReg d v).setPc t)
  writeFlags : i.dest = none → i.writesFlags = true → ∀ f t, (s'.writeFlags f).setPc t = k ((s.writeFlags f).setPc t)
  setMem : i.dest = none → i.writesFlags = false → ∀ m t, (s'.setMem m).setPc t = k ((s.setMem m).setPc t)

namespace Blind
variable {i : Instr} {s s' : State} {k : State → State} (h : Blind i s s' k)
include h

theorem writeReg_advance {d : Reg} (hd : i.dest = some d) (v : Word) :
    (s'.writeReg d v).advance = k (s.writeReg d v).advance := by
  rw [State.advance, State.writeReg_pc, h.pc, h.writeReg d hd]
  rfl

theorem compare (hd : i.dest = none) (hf : i.writesFlags = true) (a b : Word) :
    s'.compare a b = k (s.compare a b) := by
  rw [State.compare, State.advance, State.writeFlags_pc, h.pc, h.writeFlags hd hf]
  rfl

theorem setPc (hd : i.dest = none) (hf : i.writesFlags = false) (t : Word) : s'.setPc t = k (s.setPc t) := by
  have hsame : s'.setMem s.mem = s' := by rw [← h.mem]; rfl
  rw [← hsame]
  exact h.setMem hd hf s.mem t

theorem advance (hd : i.dest = none) (hf : i.writesFlags = false) : s'.advance = k s.advance := by
  rw [State.advance, h.pc]
  exact h.setPc hd hf _

theorem branchIf (hd : i.dest = none) (hf : i.writesFlags = false) (taken : Bool) (o : BitVec 27) :
    s'.branchIf taken o = k (s.branchIf taken o) := by
  cases taken with
  | false => exact h.advance hd hf
  | true =>
    show s'.setPc (branchTarget s'.pc o) = _
    rw [h.pc]
    exact h.setPc hd hf _

theorem memRead (a : Word) : s'.memRead a = s.memRead a := State.memRead_congr (h.admitted a) (by rw [h.mem])

/-! ## The shapes -/

theorem aluReg {op op' : Word → Word → Except Fault Word} {rd rs1 rs2 : Reg} (hop : op' = op)
    (hd : i.dest = some rd) (hs : i.sources = [rs1, rs2]) :
    outcome (aluReg op' rd rs1 rs2 s') = mapNext k (outcome (aluReg op rd rs1 rs2 s)) := by
  have h1 : s'.readReg rs1 = s.readReg rs1 := h.readReg rs1 (by simp [hs])
  have h2 : s'.readReg rs2 = s.readReg rs2 := h.readReg rs2 (by simp [hs])
  rw [Machine.aluReg, Machine.aluReg, h1, h2, hop]
  cases s.readReg rs1 with
  | error => rfl
  | ok a =>
    cases s.readReg rs2 with
    | error => rfl
    | ok b =>
      simp only [ok_bind]
      cases op a b with
      | error => rfl
      | ok v => exact congrArg Host.Outcome.next (h.writeReg_advance hd v)

theorem aluImm {op op' : Word → Word → Except Fault Word} {rd rs1 : Reg} {m : BitVec 2} {v : BitVec 16}
    (hop : op' = op) (hd : i.dest = some rd) (hs : i.sources = [rs1]) :
    outcome (aluImm i op' rd rs1 m v s') = mapNext k (outcome (aluImm i op rd rs1 m v s)) := by
  have h1 : s'.readReg rs1 = s.readReg rs1 := h.readReg rs1 (by simp [hs])
  rw [Machine.aluImm, Machine.aluImm, h1, hop]
  cases immOperand i m v with
  | error => rfl
  | ok b =>
    cases s.readReg rs1 with
    | error => rfl
    | ok a =>
      simp only [ok_bind]
      cases op a b with
      | error => rfl
      | ok x => exact congrArg Host.Outcome.next (h.writeReg_advance hd x)

theorem unaryReg {op : Word → Word} {rd rs2 : Reg} (hd : i.dest = some rd) (hs : i.sources = [rs2]) :
    outcome (unaryReg op rd rs2 s') = mapNext k (outcome (unaryReg op rd rs2 s)) := by
  have h2 : s'.readReg rs2 = s.readReg rs2 := h.readReg rs2 (by simp [hs])
  rw [Machine.unaryReg, Machine.unaryReg, h2]
  cases s.readReg rs2 with
  | error => rfl
  | ok b => exact congrArg Host.Outcome.next (h.writeReg_advance hd (op b))

theorem unaryImm {op : Word → Word} {rd : Reg} {m : BitVec 2} {v : BitVec 16} (hd : i.dest = some rd) :
    outcome (unaryImm i op rd m v s') = mapNext k (outcome (unaryImm i op rd m v s)) := by
  rw [Machine.unaryImm, Machine.unaryImm]
  cases immOperand i m v with
  | error => rfl
  | ok b => exact congrArg Host.Outcome.next (h.writeReg_advance hd (op b))

end Blind

section
variable {s s' : State} {k : State → State}

theorem Blind.execCmpReg {rs1 rs2 : Reg} (h : Blind (.cmpReg rs1 rs2) s s' k) :
    execCmpReg rs1 rs2 s' = mapNext k (execCmpReg rs1 rs2 s) := by
  have h1 : s'.readReg rs1 = s.readReg rs1 := h.readReg rs1 (by simp [Instr.sources])
  have h2 : s'.readReg rs2 = s.readReg rs2 := h.readReg rs2 (by simp [Instr.sources])
  rw [Machine.execCmpReg, Machine.execCmpReg, h1, h2]
  cases s.readReg rs1 with
  | error => rfl
  | ok a =>
    cases s.readReg rs2 with
    | error => rfl
    | ok b => exact congrArg Host.Outcome.next (h.compare rfl rfl a b)

theorem Blind.execCmpImm {rs1 : Reg} {m : BitVec 2} {v : BitVec 16} (h : Blind (.cmpImm rs1 m v) s s' k) :
    execCmpImm rs1 m v s' = mapNext k (execCmpImm rs1 m v s) := by
  have h1 : s'.readReg rs1 = s.readReg rs1 := h.readReg rs1 (by simp [Instr.sources])
  rw [Machine.execCmpImm, Machine.execCmpImm, h1]
  cases immOperand (.cmpImm rs1 m v) m v with
  | error => rfl
  | ok b =>
    cases s.readReg rs1 with
    | error => rfl
    | ok a => exact congrArg Host.Outcome.next (h.compare rfl rfl a b)

theorem Blind.execLd {rd rs1 : Reg} {m : BitVec 2} {v : BitVec 16} (h : Blind (.ld rd rs1 m v) s s' k) :
    execLd rd rs1 m v s' = mapNext k (execLd rd rs1 m v s) := by
  have h1 : s'.readReg rs1 = s.readReg rs1 := h.readReg rs1 (by simp [Instr.sources])
  rw [Machine.execLd, Machine.execLd, h1]
  cases immOperand (.ld rd rs1 m v) m v with
  | error => rfl
  | ok disp =>
    cases s.readReg rs1 with
    | error => rfl
    | ok base =>
      simp only [ok_bind]
      rw [h.memRead]
      cases s.memRead (effectiveAddress base disp) with
      | error => rfl
      | ok x => exact congrArg Host.Outcome.next (h.writeReg_advance rfl x)

theorem Blind.execSt {rd rs1 : Reg} {m : BitVec 2} {v : BitVec 16} (h : Blind (.st rd rs1 m v) s s' k) :
    execSt rd rs1 m v s' = mapNext k (execSt rd rs1 m v s) := by
  have h1 : s'.readReg rs1 = s.readReg rs1 := h.readReg rs1 (by simp [Instr.sources])
  have h2 : s'.readReg rd = s.readReg rd := h.readReg rd (by simp [Instr.sources])
  rw [Machine.execSt, Machine.execSt, h1, h2]
  cases immOperand (.st rd rs1 m v) m v with
  | error => rfl
  | ok disp =>
    cases s.readReg rs1 with
    | error => rfl
    | ok base =>
      cases s.readReg rd with
      | error => rfl
      | ok x =>
        simp only [ok_bind, State.memWrite, h.admitted, h.mem]
        split
        · rfl
        split
        · rfl
        have hpc : (s'.setMem (s.mem.writeWord (effectiveAddress base disp).toNat x)).pc = s.pc := h.pc
        refine congrArg Host.Outcome.next ?_
        rw [State.advance, hpc]
        exact h.setMem rfl rfl _ _

theorem Blind.execBeq {o : BitVec 27} (h : Blind (.beq o) s s' k) : execBeq o s' = mapNext k (execBeq o s) := by
  rw [Machine.execBeq, Machine.execBeq, h.readFlags rfl]
  cases s.readFlags with
  | error => rfl
  | ok f => exact congrArg Host.Outcome.next (h.branchIf rfl rfl f.e o)

theorem Blind.execBgt {o : BitVec 27} (h : Blind (.bgt o) s s' k) : execBgt o s' = mapNext k (execBgt o s) := by
  rw [Machine.execBgt, Machine.execBgt, h.readFlags rfl]
  cases s.readFlags with
  | error => rfl
  | ok f => exact congrArg Host.Outcome.next (h.branchIf rfl rfl f.gt o)

theorem Blind.execRet (h : Blind .ret s s' k) : execRet s' = mapNext k (execRet s) := by
  have hra : s'.readReg Reg.ra = s.readReg Reg.ra := h.readReg Reg.ra (by simp [Instr.sources])
  rw [Machine.execRet, Machine.execRet, hra]
  cases s.readReg Reg.ra with
  | error => rfl
  | ok a => exact congrArg Host.Outcome.next (h.setPc rfl rfl a)

theorem Blind.execCall {o : BitVec 27} (h : Blind (.call o) s s' k) : execCall o s' = mapNext k (execCall o s) := by
  rw [Machine.execCall, h.pc, h.writeReg Reg.ra rfl]
  rfl

end

/-- An instruction does not see the difference between states that are the same to it, in its result or its fault. -/
theorem exec_blind {i : Instr} {s s' : State} {k : State → State} (h : Blind i s s' k) :
    exec i s' = mapNext k (exec i s) := by
  cases i with
  | addReg | subReg | mulReg | andReg | orReg => exact h.aluReg rfl rfl rfl
  | addImm | subImm | mulImm | andImm | orImm => exact h.aluImm rfl rfl rfl
  | divReg => exact h.aluReg (congrArg divOp h.config) rfl rfl
  | divImm => exact h.aluImm (congrArg divOp h.config) rfl rfl
  | modReg => exact h.aluReg (congrArg modOp h.config) rfl rfl
  | modImm => exact h.aluImm (congrArg modOp h.config) rfl rfl
  | lslReg => exact h.aluReg (congrArg lslOp h.config) rfl rfl
  | lslImm => exact h.aluImm (congrArg lslOp h.config) rfl rfl
  | lsrReg => exact h.aluReg (congrArg lsrOp h.config) rfl rfl
  | lsrImm => exact h.aluImm (congrArg lsrOp h.config) rfl rfl
  | asrReg => exact h.aluReg (congrArg asrOp h.config) rfl rfl
  | asrImm => exact h.aluImm (congrArg asrOp h.config) rfl rfl
  | notReg | movReg => exact h.unaryReg rfl rfl
  | notImm | movImm => exact h.unaryImm rfl
  | cmpReg => exact h.execCmpReg
  | cmpImm => exact h.execCmpImm
  | ld => exact h.execLd
  | st => exact h.execSt
  | beq => exact h.execBeq
  | bgt => exact h.execBgt
  | ret => exact h.execRet
  | call => exact h.execCall
  | nop => exact congrArg Host.Outcome.next (h.advance rfl rfl)
  | b o => exact congrArg Host.Outcome.next (h.branchIf rfl rfl true o)

/-! ## Registers -/

theorem State.readReg_putReg_other (s : State) {r q : Reg} (v : Word) (w : Bool) (h : q ≠ r) :
    (s.putReg r v w).readReg q = s.readReg q := by
  have h' : (r : Nat) ≠ q := fun e => h (Fin.ext e.symm)
  simp [State.readReg, h']

theorem State.writeReg_putReg_same (s : State) (r : Reg) (x v : Word) (w : Bool) :
    (s.putReg r v w).writeReg r x = s.writeReg r x := by
  simp [State.writeReg, State.putReg]

theorem State.writeReg_putReg_other (s : State) {r d : Reg} (x v : Word) (w : Bool) (h : d ≠ r) :
    (s.putReg r v w).writeReg d x = (s.writeReg d x).putReg r v w := by
  have h' : (r : Nat) ≠ d := fun e => h (Fin.ext e.symm)
  simp [State.writeReg, State.putReg, Vector.set_comm _ _ h']

/-- Settles O37: the instruction reads the same, and its own write covers the other register or passes by it. -/
theorem unreadRegistersMakeNoDifference : Obligations.UnreadRegistersMakeNoDifference := by
  unfold Obligations.UnreadRegistersMakeNoDifference
  intro i s r v written hr
  refine exec_blind ⟨fun q hq => ?_, fun _ => rfl, rfl, rfl, rfl, fun a => State.admitted_congr rfl rfl rfl a,
    fun d hd x t => ?_, fun hd _ f t => ?_, fun hd _ m t => ?_⟩
  · exact State.readReg_putReg_other s v written (fun e => hr (e ▸ hq))
  · by_cases hdr : d = r
    · rw [if_pos (hdr ▸ hd), hdr, State.writeReg_putReg_same]
    · rw [if_neg (fun e => hdr (Option.some.inj (hd.symm.trans e))), State.writeReg_putReg_other s x v written hdr]
      rfl
  · rw [hd, if_neg nofun]
    rfl
  · rw [hd, if_neg nofun]
    rfl

/-- `cmp`, which writes the flags, writes no general register. -/
theorem writesFlags_of_dest {i : Instr} {d : Reg} (hd : i.dest = some d) : i.writesFlags = false := by
  cases i with
  | cmpReg | cmpImm => cases hd
  | _ => rfl

/-- Settles O38: only `beq` and `bgt` would read other flags, and `cmp` overwrites them. -/
theorem flagsMakeNoDifferenceElsewhere : Obligations.FlagsMakeNoDifferenceElsewhere := by
  unfold Obligations.FlagsMakeNoDifferenceElsewhere
  intro i s f written hreads
  refine exec_blind ⟨fun _ _ => rfl, fun h => ?_, rfl, rfl, rfl, fun a => State.admitted_congr rfl rfl rfl a,
    fun d hd x t => ?_, fun _ hw g t => ?_, fun _ hw m t => ?_⟩
  · rw [hreads] at h
    cases h
  · rw [writesFlags_of_dest hd]
    rfl
  · rw [hw]
    rfl
  · rw [hw]
    rfl

end Sys2Proof.Machine
end

section
/-! PROOF. The faults of an instruction and of a step (60_exceptions.md R182 to R187; 20_memory.md R48), and the
normal end (70_reset_and_hazards.md R203). -/

namespace Sys2Proof.Machine

/-! ## The faults that an operation raises once its operands are read -/

/-- A fault of the instruction's own operation: of the division, the shift, or the access to memory. -/
def Fault.IsOperational : Fault → Prop
  | .arithmeticFault _ | .shiftAmountFault _ | .misalignedAccess _ | .accessFault _
  | .uninitialisedRead (.mem _) => True
  | .misalignedFetch _ | .fetchFault _ | .illegalInstruction _
  | .uninitialisedRead (.reg _) | .uninitialisedRead .flags => False

theorem dividing_isOperational {f : Int → Int → Int} {a b : Word} {e : Fault} (h : dividing f a b = .error e) :
    e.IsOperational := by
  obtain ⟨-, rfl⟩ | ⟨-, -, rfl⟩ := dividing_error.1 h <;> trivial

theorem shifting_isOperational {c : Config} {sh : Word → Nat → Word} {far : Word → Word} {a b : Word} {e : Fault}
    (h : shifting c sh far a b = .error e) : e.IsOperational := by
  rcases Nat.lt_or_ge 31 b.toNat with hn | hn
  · rw [shifting_out_of_range hn] at h
    split at h <;> cases h
    trivial
  · rw [shifting_in_range hn] at h
    cases h

theorem memRead_isOperational {s : State} {a : Word} {e : Fault} (h : s.memRead a = .error e) : e.IsOperational := by
  obtain ⟨-, rfl⟩ | ⟨-, -, rfl⟩ | ⟨-, -, -, rfl⟩ := State.memRead_error.1 h <;> trivial

theorem memWrite_isOperational {s : State} {a v : Word} {e : Fault} (h : s.memWrite a v = .error e) :
    e.IsOperational := by
  obtain ⟨-, rfl⟩ | ⟨-, -, rfl⟩ := State.memWrite_error.1 h <;> trivial

/-! ## The first unwritten register of a list -/

/-- The first register of a list that nothing has written (60_exceptions.md R187). -/
def State.firstUnwritten (s : State) (l : List Reg) : Option Reg := l.find? (fun q => !s.regsWritten[q])

theorem State.firstUnwritten_nil (s : State) : s.firstUnwritten [] = none := rfl

theorem State.firstUnwritten_cons_error {s : State} {r : Reg} {f : Fault} (l : List Reg)
    (h : s.readReg r = .error f) : s.firstUnwritten (r :: l) = some r ∧ f = .uninitialisedRead (.reg r) := by
  obtain ⟨hw, rfl⟩ := State.readReg_error.1 h
  exact ⟨List.find?_cons_of_pos (by simp [hw]), rfl⟩

theorem State.firstUnwritten_cons_ok {s : State} {r : Reg} {a : Word} (l : List Reg) (h : s.readReg r = .ok a) :
    s.firstUnwritten (r :: l) = s.firstUnwritten l :=
  List.find?_cons_of_neg (by simp [(State.readReg_ok.1 h).1])

/-- How an instruction that reads the registers `l`, in this order, ends in a fault: at the first unwritten one, or,
where all are written, in its operation. -/
def FaultsAfterReading (l : List Reg) (s : State) (o : Host.Outcome State Fault Refusal) : Prop :=
  (∀ r, s.firstUnwritten l = some r → o = .fault (.uninitialisedRead (.reg r))) ∧
  (s.firstUnwritten l = none → ∀ f, o = .fault f → f.IsOperational)

theorem faultsAfterReading_nil {s : State} {o : Host.Outcome State Fault Refusal}
    (h : ∀ f, o = .fault f → f.IsOperational) : FaultsAfterReading [] s o := ⟨nofun, fun _ => h⟩

/-- Reading the registers one after the other. -/
theorem faultsAfterReading_cons {s : State} {r : Reg} {l : List Reg} {g : Word → Except Fault State}
    (h : ∀ a, s.readReg r = .ok a → FaultsAfterReading l s (outcome (g a))) :
    FaultsAfterReading (r :: l) s (outcome (s.readReg r >>= g)) := by
  cases hr : s.readReg r with
  | error f =>
    obtain ⟨hfirst, rfl⟩ := State.firstUnwritten_cons_error l hr
    refine ⟨fun q hq => ?_, fun hnone => ?_⟩
    · rw [← Option.some.inj (hfirst.symm.trans hq)]
      rfl
    · rw [hfirst] at hnone
      cases hnone
  | ok a =>
    have hrest := h a hr
    unfold FaultsAfterReading at hrest ⊢
    rwa [State.firstUnwritten_cons_ok l hr]

/-- An operation and its write, after the last register is read. -/
theorem faultsAfterReading_operation {α : Type} {s : State} {x : Except Fault α} {g : α → State}
    (h : ∀ f, x = .error f → f.IsOperational) :
    FaultsAfterReading [] s (outcome (x >>= fun v => .ok (g v))) := by
  refine faultsAfterReading_nil (fun f hf => ?_)
  obtain hx | ⟨v, -, hv⟩ := bind_error.1 (outcome_fault.1 hf)
  · exact h f hx
  · cases hv

theorem faultsAfterReading_next (s t : State) : FaultsAfterReading [] s (.next t) := faultsAfterReading_nil nofun

section
variable {i : Instr} {op : Word → Word → Except Fault Word} {rd rs1 rs2 : Reg} {m : BitVec 2} {v : BitVec 16}
  (s : State)

theorem aluReg_faultsAfterReading (hop : ∀ a b f, op a b = .error f → f.IsOperational) :
    FaultsAfterReading [rs1, rs2] s (outcome (aluReg op rd rs1 rs2 s)) :=
  faultsAfterReading_cons (fun a _ => faultsAfterReading_cons (fun b _ => faultsAfterReading_operation (hop a b)))

theorem immOperand_of_ne (i : Instr) (v : BitVec 16) (hm : m ≠ 3#2) : ∃ b, immOperand i m v = .ok b := by
  obtain ⟨b, hb⟩ := exists_immx_of_ne v hm
  exact ⟨b, immOperand_ok.2 hb⟩

theorem aluImm_faultsAfterReading (hm : m ≠ 3#2) (hop : ∀ a b f, op a b = .error f → f.IsOperational) :
    FaultsAfterReading [rs1] s (outcome (aluImm i op rd rs1 m v s)) := by
  obtain ⟨b, hb⟩ := immOperand_of_ne i v hm
  rw [aluImm, hb, ok_bind]
  exact faultsAfterReading_cons (fun a _ => faultsAfterReading_operation (hop a b))

theorem unaryReg_faultsAfterReading {op : Word → Word} :
    FaultsAfterReading [rs2] s (outcome (unaryReg op rd rs2 s)) :=
  faultsAfterReading_cons (fun _ _ => faultsAfterReading_next s _)

theorem unaryImm_faultsAfterReading (hm : m ≠ 3#2) {op : Word → Word} :
    FaultsAfterReading [] s (outcome (unaryImm i op rd m v s)) := by
  obtain ⟨b, hb⟩ := immOperand_of_ne i v hm
  rw [unaryImm, hb, ok_bind]
  exact faultsAfterReading_next s _

theorem execCmpImm_faultsAfterReading (hm : m ≠ 3#2) : FaultsAfterReading [rs1] s (execCmpImm rs1 m v s) := by
  obtain ⟨b, hb⟩ := immOperand_of_ne (.cmpImm rs1 m v) v hm
  rw [execCmpImm, hb, ok_bind]
  exact faultsAfterReading_cons (fun _ _ => faultsAfterReading_next s _)

theorem execLd_faultsAfterReading (hm : m ≠ 3#2) : FaultsAfterReading [rs1] s (execLd rd rs1 m v s) := by
  obtain ⟨disp, hdisp⟩ := immOperand_of_ne (.ld rd rs1 m v) v hm
  rw [execLd, hdisp, ok_bind]
  exact faultsAfterReading_cons (fun _ _ => faultsAfterReading_operation (fun _ => memRead_isOperational))

theorem execSt_faultsAfterReading (hm : m ≠ 3#2) : FaultsAfterReading [rs1, rd] s (execSt rd rs1 m v s) := by
  obtain ⟨disp, hdisp⟩ := immOperand_of_ne (.st rd rs1 m v) v hm
  rw [execSt, hdisp, ok_bind]
  exact faultsAfterReading_cons (fun _ _ => faultsAfterReading_cons (fun _ _ =>
    faultsAfterReading_operation (fun _ => memWrite_isOperational)))

end

/-- An instruction that does not read the flags reads its source registers in their order, then does its operation. -/
theorem exec_faultsAfterReading {i : Instr} (hwf : i.wellFormed = true) (hflags : i.readsFlags = false) (s : State) :
    FaultsAfterReading i.sources s (exec i s) := by
  cases i with
  | addReg | subReg | mulReg | andReg | orReg => exact aluReg_faultsAfterReading s nofun
  | divReg | modReg => exact aluReg_faultsAfterReading s (fun _ _ _ => dividing_isOperational)
  | lslReg | lsrReg | asrReg => exact aluReg_faultsAfterReading s (fun _ _ _ => shifting_isOperational)
  | addImm | subImm | mulImm | andImm | orImm => exact aluImm_faultsAfterReading s (bne_iff_ne.1 hwf) nofun
  | divImm | modImm => exact aluImm_faultsAfterReading s (bne_iff_ne.1 hwf) (fun _ _ _ => dividing_isOperational)
  | lslImm | lsrImm | asrImm =>
    exact aluImm_faultsAfterReading s (bne_iff_ne.1 hwf) (fun _ _ _ => shifting_isOperational)
  | notReg | movReg => exact unaryReg_faultsAfterReading s
  | notImm | movImm => exact unaryImm_faultsAfterReading s (bne_iff_ne.1 hwf)
  | cmpReg =>
    exact faultsAfterReading_cons (fun _ _ => faultsAfterReading_cons (fun _ _ => faultsAfterReading_next s _))
  | cmpImm => exact execCmpImm_faultsAfterReading s (bne_iff_ne.1 hwf)
  | ld => exact execLd_faultsAfterReading s (bne_iff_ne.1 hwf)
  | st => exact execSt_faultsAfterReading s (bne_iff_ne.1 hwf)
  | ret => exact faultsAfterReading_cons (fun _ _ => faultsAfterReading_next s _)
  | nop | b | call => exact faultsAfterReading_next s _
  | beq | bgt => cases hflags

/-- `beq` and `bgt` read the flags alone, and have no other fault. -/
theorem exec_fault_of_readsFlags {i : Instr} (h : i.readsFlags = true) (s : State) (f : Fault) :
    exec i s = .fault f ↔ s.flagsWritten = false ∧ f = .uninitialisedRead .flags := by
  cases i with
  | beq => exact execBeq_fault.trans State.readFlags_error
  | bgt => exact execBgt_fault.trans State.readFlags_error
  | _ => cases h

theorem sources_of_readsFlags {i : Instr} (h : i.readsFlags = true) : i.sources = [] := by
  cases i with
  | beq | bgt => rfl
  | _ => cases h

/-- Settles O48: `beq` and `bgt` read the flags alone, and the others their registers alone. -/
theorem uninitialisedReadsExactly : Obligations.UninitialisedReadsExactly := by
  unfold Obligations.UninitialisedReadsExactly
  intro i s hwf
  show (∀ r, _ ↔ s.firstUnwritten i.sources = some r) ∧ _
  cases hflags : i.readsFlags with
  | true => simp [exec_fault_of_readsFlags hflags, sources_of_readsFlags hflags, State.firstUnwritten_nil]
  | false =>
    obtain ⟨hunwritten, hoperation⟩ := exec_faultsAfterReading hwf hflags s
    cases hfirst : s.firstUnwritten i.sources with
    | some q => simp [hunwritten q hfirst]
    | none =>
      have hreg (r : Reg) : exec i s ≠ .fault (.uninitialisedRead (.reg r)) := hoperation hfirst _
      have hfl : exec i s ≠ .fault (.uninitialisedRead .flags) := hoperation hfirst _
      simp [hreg, hfl]

/-! ## The faults of a step -/

/-- A fault that an instruction which a word stands for can raise: none of the fetch or the decoding. -/
def Fault.IsExecution : Fault → Prop
  | .misalignedFetch _ | .fetchFault _ | .illegalInstruction _ => False
  | .uninitialisedRead _ | .arithmeticFault _ | .shiftAmountFault _ | .misalignedAccess _ | .accessFault _ => True

theorem Fault.IsOperational.isExecution {f : Fault} (h : f.IsOperational) : f.IsExecution := by
  cases f with
  | misalignedFetch | fetchFault | illegalInstruction => cases h
  | _ => trivial

theorem exec_fault_of_decode {w : Word} {i : Instr} {s : State} {f : Fault} (hd : decode w = .ok i)
    (h : exec i s = .fault f) : f.IsExecution := by
  cases hflags : i.readsFlags with
  | true =>
    obtain ⟨-, rfl⟩ := (exec_fault_of_readsFlags hflags s f).1 h
    trivial
  | false =>
    obtain ⟨hunwritten, hoperation⟩ := exec_faultsAfterReading (readFrom_of_decode hd).1 hflags s
    cases hfirst : s.firstUnwritten i.sources with
    | some q =>
      obtain rfl : f = _ := Host.Outcome.fault.inj (h.symm.trans (hunwritten q hfirst))
      trivial
    | none => exact (hoperation hfirst f h).isExecution

/-- A step raises a fault of the fetch or the decoding in the fetch or the decoding only. -/
theorem step_fault_before_exec {s : State} {f : Fault} (hf : ¬ f.IsExecution) : step s = .fault f ↔
    s.pc ≠ s.endPc ∧ (s.fetch = .error f ∨
      ∃ w, s.fetch = .ok w ∧ (∃ e, decode w = .error e) ∧ f = .illegalInstruction w) := by
  rw [step_fault]
  refine and_congr_right (fun _ => or_congr_right (exists_congr fun w => and_congr_right fun _ => ?_))
  exact or_iff_left (fun ⟨_, hd, hexec⟩ => hf (exec_fault_of_decode hd hexec))

/-- Settles O46. -/
theorem fetchFaultsExactly : Obligations.FetchFaultsExactly := by
  unfold Obligations.FetchFaultsExactly
  intro s x
  constructor
  · rw [step_fault_before_exec id, State.fetch_error]
    simp
  · rw [step_fault_before_exec id, State.fetch_error]
    simp

/-- Settles O47. -/
theorem illegalInstructionExactly : Obligations.IllegalInstructionExactly := by
  unfold Obligations.IllegalInstructionExactly
  intro s x
  rw [step_fault_before_exec id]
  refine and_congr_right (fun _ => ⟨?_, ?_⟩)
  · rintro (hf | ⟨w, hw, he, hx⟩)
    · obtain ⟨-, hx⟩ | ⟨-, -, hx⟩ := State.fetch_error.1 hf <;> cases hx
    · cases hx
      exact ⟨hw, he⟩
  · rintro ⟨hw, he⟩
    exact .inr ⟨x, hw, he, rfl⟩

/-! ## The normal end, and a step of a legal word -/

theorem exec_ne_refused (i : Instr) (s : State) (q : Refusal) : exec i s ≠ .refused q := by
  cases i with
  | nop | b | call => nofun
  | _ => exact outcome_not_refused _ q

theorem step_refused {s : State} {q : Refusal} : step s = .refused q ↔ s.pc = s.endPc ∧ q = .endedNormally := by
  constructor
  · intro h
    unfold step at h
    split at h
    · next hend =>
      cases h
      exact ⟨hend, rfl⟩
    split at h
    · cases h
    split at h
    · cases h
    · exact absurd h (exec_ne_refused _ s q)
  · rintro ⟨hend, rfl⟩
    exact step_of_endPc hend

/-- Settles O49. -/
theorem stepEndsOnlyAtEndPc : Obligations.StepEndsOnlyAtEndPc := by
  unfold Obligations.StepEndsOnlyAtEndPc
  exact ⟨fun _ _ => step_refused, exec_ne_refused⟩

theorem step_eq_exec {s : State} {w : Word} {i : Instr} (hend : s.pc ≠ s.endPc) (hf : s.fetch = .ok w)
    (hd : decode w = .ok i) : step s = exec i s := by
  simp only [step, if_neg hend, hf, hd]

/-- Settles O45. -/
theorem stepRunsTheDecodedInstruction : Obligations.StepRunsTheDecodedInstruction := by
  unfold Obligations.StepRunsTheDecodedInstruction
  exact fun _ _ _ => step_eq_exec

/-! ## A placed word (70_reset_and_hazards.md R203; 20_memory.md R48) -/

theorem tableWord_toNat (w : Word) : tableWord 32 w.toNat = w := by
  rw [tableWord, Nat.mod_eq_of_lt w.isLt, BitVec.ofNat_toNat, BitVec.setWidth_eq]

theorem decodeTableWord_of_decode {w : Word} {i : Instr} (hd : decode w = .ok i) :
    decodeTableWord 32 w.toNat = some i := by
  have hbytes : decodeBytes (bytesOfWord w) = some (decode w, []) := decodeBytes_bytesOfWord w []
  rw [decodeTableWord, tableWord_toNat, hbytes, hd]

/-- The `pc` rounded down to a multiple of 4. -/
def State.fetchPc (s : State) : Word := s.pc - BitVec.ofNat 32 (s.pc.toNat % 4)

theorem State.fetchPc_aligned (s : State) : s.fetchPc.toNat % 4 = 0 := by
  have hlt := s.pc.isLt
  rw [State.fetchPc, BitVec.toNat_sub, BitVec.toNat_ofNat]
  omega

theorem State.placeWord_pc (s : State) (w : Word) : (s.placeWord w).pc = s.fetchPc := by
  simp only [State.placeWord, State.fetchPc]
  split <;> rfl

theorem State.placeWord_endPc (s : State) (w : Word) :
    (s.placeWord w).endPc = if s.endPc = s.fetchPc then s.fetchPc + 4#32 else s.endPc := by
  simp only [State.placeWord, State.fetchPc]
  split <;> rfl

theorem State.placeWord_of_inText {s : State} (w : Word) (h : s.inText s.fetchPc = true) :
    (s.placeWord w).textBase = s.textBase ∧
      (s.placeWord w).text = s.text.set ((s.fetchPc.toNat - s.textBase.toNat) / 4) w := by
  simp only [State.fetchPc] at h ⊢
  simp [State.placeWord, h]

theorem State.placeWord_of_not_inText {s : State} (w : Word) (h : s.inText s.fetchPc = false) :
    (s.placeWord w).textBase = s.fetchPc ∧ (s.placeWord w).text = [w] := by
  simp only [State.fetchPc] at h ⊢
  simp [State.placeWord, h]

theorem add_four_ne (a : Word) : a ≠ a + 4#32 := by
  intro h
  have hnat := congrArg BitVec.toNat h
  have hlt := a.isLt
  rw [BitVec.toNat_add, BitVec.toNat_ofNat] at hnat
  omega

theorem State.placeWord_pc_ne_endPc (s : State) (w : Word) : (s.placeWord w).pc ≠ (s.placeWord w).endPc := by
  rw [State.placeWord_pc, State.placeWord_endPc]
  split
  · exact add_four_ne s.fetchPc
  · next hend => exact fun h => hend h.symm

/-- The word placed is the one fetched, in the text that stands or in a text of its own. -/
theorem State.placeWord_fetch (s : State) (w : Word) : (s.placeWord w).fetch = .ok w := by
  rw [State.fetch_ok, State.inText_iff, State.placeWord_pc]
  refine ⟨s.fetchPc_aligned, ?_⟩
  cases hin : s.inText s.fetchPc with
  | true =>
    obtain ⟨hbase, htext⟩ := State.placeWord_of_inText w hin
    obtain ⟨hlo, hhi⟩ := (State.inText_iff s s.fetchPc).1 hin
    rw [hbase, htext, List.length_set]
    exact ⟨⟨hlo, hhi⟩, List.getElem?_set_self (by omega)⟩
  | false =>
    obtain ⟨hbase, htext⟩ := State.placeWord_of_not_inText w hin
    simp [hbase, htext]

/-- Settles O51. -/
theorem placedWordRunsNext : Obligations.PlacedWordRunsNext := by
  unfold Obligations.PlacedWordRunsNext
  intro s w i hd
  rw [State.withFetchWord, tableWord_toNat]
  refine ⟨decodeTableWord_of_decode hd,
    step_eq_exec (State.placeWord_pc_ne_endPc s w) (State.placeWord_fetch s w) hd, ?_⟩
  simp only [State.placeWord]
  split
  · exact ⟨rfl, rfl, rfl⟩
  · exact ⟨rfl, rfl, rfl⟩

end Sys2Proof.Machine
end

section
/-! PROOF. The step that the control signals select is the step of the instruction rules (30_encoding.md section 6,
45_branch.md R164). -/

namespace Sys2Proof.Machine

/-! ## The signals of an opcode -/

/-- The signals that `signalExec` tests, but for the `I` bit, which is no function of the opcode. -/
structure StepSignals where
  alu : Bool := false
  a : Bool := false
  st : Bool := false
  ld : Bool := false
  beq : Bool := false
  bgt : Bool := false
  ret : Bool := false
  wb : Bool := false
  ubranch : Bool := false
  call : Bool := false
  cmp : Bool := false

def stepSignals (w : Word) : StepSignals where
  alu := usesAlu w
  a := usesA w
  st := isSt w
  ld := isLd w
  beq := isBeq w
  bgt := isBgt w
  ret := isRet w
  wb := isWb w
  ubranch := isUbranch w
  call := isCall w
  cmp := isCmp w

/-- The five opcode bits of a word are those of any word with its opcode. -/
theorem opBits_of_opField {w : Word} {c : BitVec 5} (h : opField w = c) :
    op5 w = op5 (branchWord c 0) ∧ op4 w = op4 (branchWord c 0) ∧ op3 w = op3 (branchWord c 0) ∧
      op2 w = op2 (branchWord c 0) ∧ op1 w = op1 (branchWord c 0) := by
  have hc : opField w = opField (branchWord c 0) := h.trans (opField_branchWord ..).symm
  simp only [op5_eq_getLsbD, op4_eq_getLsbD, op3_eq_getLsbD, op2_eq_getLsbD, op1_eq_getLsbD, hc, and_self]

theorem aluSignals_of_opField {w : Word} {c : BitVec 5} (h : opField w = c) :
    aluSignals w = aluSignals (branchWord c 0) := by
  obtain ⟨h5, h4, h3, h2, h1⟩ := opBits_of_opField h
  simp only [aluSignals, isAdd, isSub, isCmp, isMul, isDiv, isMod, isLsl, isLsr, isAsr, isOr, isAnd, isNot, isMov, h5,
    h4, h3, h2, h1]

theorem stepSignals_of_opField {w : Word} {c : BitVec 5} (h : opField w = c) :
    stepSignals w = stepSignals (branchWord c 0) := by
  obtain ⟨h5, h4, h3, h2, h1⟩ := opBits_of_opField h
  simp only [stepSignals, usesAlu, usesA, aluSignals_of_opField h, isNot, isMov, isCmp, isSt, isLd, isBeq, isBgt,
    isRet, isWb, isUbranch, isCall, h5, h4, h3, h2, h1]

/-- The ALU's function is chosen by the ALU signals, and so by the opcode. -/
theorem aluResult_of_opField {w : Word} {c : BitVec 5} (h : opField w = c) (conf : Config) :
    aluResult conf w = aluResult conf (branchWord c 0) := by
  have hsignals := aluSignals_of_opField h
  simp only [aluSignals, List.cons.injEq, and_true] at hsignals
  obtain ⟨hadd, hsub, -, hmul, hdiv, hmod, hlsl, hlsr, hasr, hor, hand, hnot, hmov⟩ := hsignals
  funext a b
  simp only [aluResult, hadd, hsub, hmul, hdiv, hmod, hlsl, hlsr, hasr, hor, hand, hnot, hmov]

theorem wordImmediate_ok {w b : Word} :
    wordImmediate w = .ok b ↔ immx (modField w) (imm16Field w) = some b := by
  unfold wordImmediate
  split <;> simp_all

/-! ## The shapes of instruction, as the signals select them -/

section
variable {w : Word} {s : State}

theorem signalExec_threeReg {op : Word → Word → Except Fault Word} (hI : immBit w = false)
    (h : stepSignals w = { alu := true, a := true, wb := true })
    (hop : ∀ a b, aluResult s.config w a b = op a b) :
    signalExec w s = aluReg op (rdField w) (rs1Field w) (rs2Field w) s := by
  simp only [stepSignals, StepSignals.mk.injEq] at h
  simp [signalExec, onSignal, isImmediate, isBranchTaken, h, hI, hop]
  rfl

theorem signalExec_threeImm {i : Instr} {op : Word → Word → Except Fault Word} (hI : immBit w = true)
    (hm : modField w ≠ 3#2)
    (h : stepSignals w = { alu := true, a := true, wb := true })
    (hop : ∀ a b, aluResult s.config w a b = op a b) :
    signalExec w s = aluImm i op (rdField w) (rs1Field w) (modField w) (imm16Field w) s := by
  simp only [stepSignals, StepSignals.mk.injEq] at h
  obtain ⟨b, hb⟩ := exists_immx_of_ne (imm16Field w) hm
  simp [signalExec, onSignal, isImmediate, isBranchTaken, wordImmediate_ok.2 hb, aluImm, immOperand_ok.2 hb, h, hI,
    hop]
  rfl

theorem signalExec_unaryReg {op : Word → Word} (hI : immBit w = false)
    (h : stepSignals w = { alu := true, wb := true })
    (hop : ∀ a b, aluResult s.config w a b = .ok (op b)) :
    signalExec w s = unaryReg op (rdField w) (rs2Field w) s := by
  simp only [stepSignals, StepSignals.mk.injEq] at h
  simp [signalExec, onSignal, isImmediate, isBranchTaken, h, hI, hop]
  rfl

theorem signalExec_unaryImm {i : Instr} {op : Word → Word} (hI : immBit w = true) (hm : modField w ≠ 3#2)
    (h : stepSignals w = { alu := true, wb := true })
    (hop : ∀ a b, aluResult s.config w a b = .ok (op b)) :
    signalExec w s = unaryImm i op (rdField w) (modField w) (imm16Field w) s := by
  simp only [stepSignals, StepSignals.mk.injEq] at h
  obtain ⟨b, hb⟩ := exists_immx_of_ne (imm16Field w) hm
  simp [signalExec, onSignal, isImmediate, isBranchTaken, wordImmediate_ok.2 hb, unaryImm, immOperand_ok.2 hb, h, hI,
    hop]
  rfl

theorem signalExec_cmpReg (hI : immBit w = false)
    (h : stepSignals w = { alu := true, a := true, cmp := true })
    (hop : ∀ a b, aluResult s.config w a b = .ok 0#32) :
    outcome (signalExec w s) = execCmpReg (rs1Field w) (rs2Field w) s := by
  simp only [stepSignals, StepSignals.mk.injEq] at h
  simp [signalExec, onSignal, isImmediate, isBranchTaken, h, hI, hop]
  rfl

theorem signalExec_cmpImm (hI : immBit w = true) (hm : modField w ≠ 3#2)
    (h : stepSignals w = { alu := true, a := true, cmp := true })
    (hop : ∀ a b, aluResult s.config w a b = .ok 0#32) :
    outcome (signalExec w s) = execCmpImm (rs1Field w) (modField w) (imm16Field w) s := by
  simp only [stepSignals, StepSignals.mk.injEq] at h
  obtain ⟨b, hb⟩ := exists_immx_of_ne (imm16Field w) hm
  simp [signalExec, onSignal, isImmediate, isBranchTaken, wordImmediate_ok.2 hb, execCmpImm,
    immOperand_ok.2 hb, h, hI, hop]
  rfl

theorem signalExec_ld (hI : immBit w = true) (hm : modField w ≠ 3#2)
    (h : stepSignals w = { alu := true, a := true, ld := true, wb := true })
    (hop : ∀ a b, aluResult s.config w a b = addOp a b) :
    outcome (signalExec w s) = execLd (rdField w) (rs1Field w) (modField w) (imm16Field w) s := by
  simp only [stepSignals, StepSignals.mk.injEq] at h
  obtain ⟨b, hb⟩ := exists_immx_of_ne (imm16Field w) hm
  simp [signalExec, onSignal, isImmediate, isBranchTaken, wordImmediate_ok.2 hb, execLd,
    immOperand_ok.2 hb, addOp, h, hI, hop]
  rfl

/-- A store changes no `pc`, so that the `pc` after it is counted from the one before it. -/
theorem State.memWrite_advance (s : State) (a v : Word) :
    (s.memWrite a v >>= fun t => .ok (t.setPc (s.pc + 4#32))) = (s.memWrite a v >>= fun t => .ok t.advance) := by
  cases h : s.memWrite a v with
  | error => rfl
  | ok t =>
    obtain ⟨-, -, rfl⟩ := State.memWrite_ok.1 h
    rfl

theorem signalExec_st (hI : immBit w = true) (hm : modField w ≠ 3#2)
    (h : stepSignals w = { alu := true, a := true, st := true })
    (hop : ∀ a b, aluResult s.config w a b = addOp a b) :
    outcome (signalExec w s) = execSt (rdField w) (rs1Field w) (modField w) (imm16Field w) s := by
  simp only [stepSignals, StepSignals.mk.injEq] at h
  obtain ⟨b, hb⟩ := exists_immx_of_ne (imm16Field w) hm
  have hadv := s.memWrite_advance
  simp [signalExec, onSignal, isImmediate, isBranchTaken, wordImmediate_ok.2 hb, execSt, immOperand_ok.2 hb, addOp,
    effectiveAddress, pure, Except.pure, hadv, h, hI, hop]

theorem State.branchIf_eq_setPc (s : State) (taken : Bool) (o : BitVec 27) :
    s.branchIf taken o = s.setPc (if taken then branchTarget s.pc o else s.pc + 4#32) := s.branchIf_eq taken o

theorem signalExec_beq (h : stepSignals w = { beq := true })
    (hop : ∀ a b, aluResult s.config w a b = .ok 0#32) : outcome (signalExec w s) = execBeq (offsetField w) s := by
  simp only [stepSignals, StepSignals.mk.injEq] at h
  simp [signalExec, onSignal, isBranchTaken, branchPc, execBeq, State.branchIf_eq_setPc, h, hop, -bind_pure_comp]

theorem signalExec_bgt (h : stepSignals w = { bgt := true })
    (hop : ∀ a b, aluResult s.config w a b = .ok 0#32) : outcome (signalExec w s) = execBgt (offsetField w) s := by
  simp only [stepSignals, StepSignals.mk.injEq] at h
  simp [signalExec, onSignal, isBranchTaken, branchPc, execBgt, State.branchIf_eq_setPc, h, hop, -bind_pure_comp]

theorem signalExec_b (h : stepSignals w = { ubranch := true })
    (hop : ∀ a b, aluResult s.config w a b = .ok 0#32) : outcome (signalExec w s) = execB (offsetField w) s := by
  simp only [stepSignals, StepSignals.mk.injEq] at h
  simp [signalExec, onSignal, isBranchTaken, branchPc, execB, h, hop]

theorem signalExec_call (h : stepSignals w = { wb := true, ubranch := true, call := true })
    (hop : ∀ a b, aluResult s.config w a b = .ok 0#32) : outcome (signalExec w s) = execCall (offsetField w) s := by
  simp only [stepSignals, StepSignals.mk.injEq] at h
  simp [signalExec, onSignal, isBranchTaken, branchPc, execCall, h, hop]

theorem signalExec_ret (h : stepSignals w = { ret := true, ubranch := true })
    (hop : ∀ a b, aluResult s.config w a b = .ok 0#32) : outcome (signalExec w s) = execRet s := by
  simp only [stepSignals, StepSignals.mk.injEq] at h
  simp [signalExec, onSignal, isBranchTaken, branchPc, execRet, h, hop, -bind_pure_comp]

theorem signalExec_nop (h : stepSignals w = {})
    (hop : ∀ a b, aluResult s.config w a b = .ok 0#32) : outcome (signalExec w s) = execNop s := by
  simp only [stepSignals, StepSignals.mk.injEq] at h
  simp [signalExec, onSignal, isBranchTaken, execNop, h, hop]
  rfl

end

/-- The decoder and the signals choose the same operands and the same operation for every legal word. -/
theorem signalExec_of_decode {w : Word} {i : Instr} (hd : decode w = .ok i) (s : State) :
    outcome (signalExec w s) = exec i s := by
  obtain ⟨hwf, hop, hread⟩ := readFrom_of_decode hd
  have hsig := stepSignals_of_opField hop
  have halu := congrFun₂ (aluResult_of_opField hop s.config)
  cases i with
  | addReg | subReg | mulReg | divReg | modReg | andReg | orReg | lslReg | lsrReg | asrReg =>
    dsimp only [Instr.opcode] at hsig halu
    obtain ⟨hI, rfl, rfl, rfl⟩ := hread
    exact congrArg outcome (signalExec_threeReg hI (hsig.trans rfl) (fun a b => (halu a b).trans rfl))
  | addImm | subImm | mulImm | divImm | modImm | andImm | orImm | lslImm | lsrImm | asrImm =>
    dsimp only [Instr.opcode] at hsig halu
    obtain ⟨hI, rfl, rfl, rfl, rfl⟩ := hread
    exact congrArg outcome (signalExec_threeImm hI (bne_iff_ne.1 hwf) (hsig.trans rfl)
      (fun a b => (halu a b).trans rfl))
  | notReg | movReg =>
    dsimp only [Instr.opcode] at hsig halu
    obtain ⟨hI, rfl, rfl⟩ := hread
    exact congrArg outcome (signalExec_unaryReg hI (hsig.trans rfl) (fun a b => (halu a b).trans rfl))
  | notImm | movImm =>
    dsimp only [Instr.opcode] at hsig halu
    obtain ⟨hI, rfl, rfl, rfl⟩ := hread
    exact congrArg outcome (signalExec_unaryImm hI (bne_iff_ne.1 hwf) (hsig.trans rfl)
      (fun a b => (halu a b).trans rfl))
  | cmpReg =>
    dsimp only [Instr.opcode] at hsig halu
    obtain ⟨hI, rfl, rfl⟩ := hread
    exact signalExec_cmpReg hI (hsig.trans rfl) (fun a b => (halu a b).trans rfl)
  | cmpImm =>
    dsimp only [Instr.opcode] at hsig halu
    obtain ⟨hI, rfl, rfl, rfl⟩ := hread
    exact signalExec_cmpImm hI (bne_iff_ne.1 hwf) (hsig.trans rfl) (fun a b => (halu a b).trans rfl)
  | ld =>
    dsimp only [Instr.opcode] at hsig halu
    obtain ⟨hI, rfl, rfl, rfl, rfl⟩ := hread
    exact signalExec_ld hI (bne_iff_ne.1 hwf) (hsig.trans rfl) (fun a b => (halu a b).trans rfl)
  | st =>
    dsimp only [Instr.opcode] at hsig halu
    obtain ⟨hI, rfl, rfl, rfl, rfl⟩ := hread
    exact signalExec_st hI (bne_iff_ne.1 hwf) (hsig.trans rfl) (fun a b => (halu a b).trans rfl)
  | beq =>
    dsimp only [Instr.opcode] at hsig halu
    exact hread ▸ signalExec_beq (hsig.trans rfl) (fun a b => (halu a b).trans rfl)
  | bgt =>
    dsimp only [Instr.opcode] at hsig halu
    exact hread ▸ signalExec_bgt (hsig.trans rfl) (fun a b => (halu a b).trans rfl)
  | b =>
    dsimp only [Instr.opcode] at hsig halu
    exact hread ▸ signalExec_b (hsig.trans rfl) (fun a b => (halu a b).trans rfl)
  | call =>
    dsimp only [Instr.opcode] at hsig halu
    exact hread ▸ signalExec_call (hsig.trans rfl) (fun a b => (halu a b).trans rfl)
  | ret =>
    dsimp only [Instr.opcode] at hsig halu
    exact signalExec_ret (hsig.trans rfl) (fun a b => (halu a b).trans rfl)
  | nop =>
    dsimp only [Instr.opcode] at hsig halu
    exact signalExec_nop (hsig.trans rfl) (fun a b => (halu a b).trans rfl)

/-- Settles O44. -/
theorem signalsDriveTheSameStep : Obligations.SignalsDriveTheSameStep := by
  unfold Obligations.SignalsDriveTheSameStep
  exact fun _ _ s hd => signalExec_of_decode hd s

/-! ## The next `pc` -/

theorem onSignal_ok {signal : Bool} {r : Except Fault Word} {v : Word} (h : onSignal signal r = .ok v)
    (hs : signal = true) : r = .ok v := by
  rwa [onSignal, if_pos hs] at h

/-- A choice between two first parts of a chain. -/
theorem ite_bind_ok {α β : Type} {c : Prop} [Decidable c] {x y : Except Fault α} {g : α → Except Fault β} {b : β}
    (h : (if c then x >>= g else y >>= g) = .ok b) : ∃ a, (if c then x else y) = .ok a ∧ g a = .ok b := by
  split at h
  · next hc => simpa only [if_pos hc] using bind_ok.1 h
  · next hc => simpa only [if_neg hc] using bind_ok.1 h

/-- The step that the signals select ends with the `pc` that `isBranchTaken` chooses (45_branch.md R164). -/
theorem signalExec_pc {w : Word} {s t : State} (h : signalExec w s = .ok t) :
    t.pc = if isBranchTaken w s.flags then branchPc w s.pc s.regs[Reg.ra] else s.pc + 4#32 := by
  obtain ⟨imm, -, h⟩ := bind_ok.1 h
  obtain ⟨a, -, h⟩ := bind_ok.1 h
  obtain ⟨x, -, h⟩ := bind_ok.1 h
  obtain ⟨stored, -, h⟩ := bind_ok.1 h
  obtain ⟨ra, hra, h⟩ := bind_ok.1 h
  obtain ⟨f, hf, h⟩ := ite_bind_ok h
  obtain ⟨r, -, h⟩ := bind_ok.1 h
  obtain ⟨loaded, -, h⟩ := bind_ok.1 h
  obtain ⟨u, -, h⟩ := ite_bind_ok h
  obtain rfl : f = s.flags := by
    split at hf
    · exact (State.readFlags_ok.1 hf).2.symm
    · exact (Except.ok.inj hf).symm
  have hpc : branchPc w s.pc ra = branchPc w s.pc s.regs[Reg.ra] := by
    unfold branchPc
    split
    · next hret => exact (State.readReg_ok.1 (onSignal_ok hra hret)).2.symm
    · rfl
  cases h
  rw [State.setPc_pc, hpc]

/-- Settles O30: the instruction's step is the one that the signals select, whose `pc` `isBranchTaken` chooses. -/
theorem nextPcFollowsIsBranchTaken : Obligations.NextPcFollowsIsBranchTaken := by
  unfold Obligations.NextPcFollowsIsBranchTaken
  intro w i s t hd hexec
  exact signalExec_pc (outcome_next.1 ((signalExec_of_decode hd s).trans hexec))

end Sys2Proof.Machine
end

section
/-! PROOF. The state after reset and the state that a launch starts (70_reset_and_hazards.md R200 to R202). -/

namespace Sys2Proof.Machine

/-! ## Reset -/

theorem readByte_nil (a : Nat) : ({ cells := [] } : Memory).readByte a = none := rfl

theorem Memory.readWord_of_readByte_none {m : Memory} {a : Nat} (h : m.readByte a = none) : m.readWord a = none := by
  simp only [Memory.readWord, h]

theorem State.reset_inText (a : Word) : State.reset.inText a = false := by
  simp [State.inText, State.reset]

theorem State.reset_admitted {a : Word} (h : a.toNat % 4 = 0) : State.reset.admitted a = true := by
  have hlt := a.isLt
  have hregion : inRegion { base := 0, words := 2 ^ 30 } a.toNat = true := by
    simp only [inRegion, Bool.and_eq_true, decide_eq_true_eq]
    omega
  rw [State.admitted, State.reset_inText, Bool.not_false, Bool.and_true]
  exact List.any_eq_true.2 ⟨_, List.mem_singleton_self _, hregion⟩

/-- Settles O52. -/
theorem resetValues : Obligations.ResetValues := by
  unfold Obligations.ResetValues
  refine ⟨fun r => ?_, rfl, rfl, rfl, rfl, rfl, rfl, fun a ha => ⟨State.reset_admitted ha, ?_⟩⟩
  · simp [State.readReg, State.reset]
  · exact State.memRead_error.2
      (.inr (.inr ⟨ha, State.reset_admitted ha, Memory.readWord_of_readByte_none (readByte_nil _), rfl⟩))

/-- Settles O54: no byte is written, and the flags are 0. -/
theorem resetHasTheInvariant : Obligations.ResetHasTheInvariant := by
  unfold Obligations.ResetHasTheInvariant
  exact ⟨State.reset_mem_wf, nofun, nofun, fun _ => rfl⟩

/-! ## The regions of a well-formed launch -/

theorem inRegion_iff {r : Region} {a : Nat} :
    inRegion r a = true ↔ r.base ≤ a ∧ a < r.base + 4 * r.words ∧ (a - r.base) % 4 = 0 := by
  simp [inRegion, and_assoc]

section
variable {l : Launch} {r : Region} {a : Word}

theorem Launch.regionOk_iff : l.regionOk r = true ↔ r.base % 4 = 0 ∧ r.base + 4 * r.words ≤ 2 ^ 32 ∧
    (r.base + 4 * r.words ≤ l.textBase.toNat ∨ l.textBase.toNat + 4 * l.text.length ≤ r.base) := by
  simp [Launch.regionOk, and_assoc]

/-- A region's words are aligned. -/
theorem Launch.regionOk_aligned (hok : l.regionOk r = true) (h : inRegion r a.toNat = true) : a.toNat % 4 = 0 := by
  obtain ⟨hbase, -, -⟩ := Launch.regionOk_iff.1 hok
  obtain ⟨hlo, -, hword⟩ := inRegion_iff.1 h
  omega

/-- A region's words are no text. -/
theorem Launch.regionOk_not_inText (hok : l.regionOk r = true) (h : inRegion r a.toNat = true) :
    l.inText a = false := by
  obtain ⟨-, -, hdisjoint⟩ := Launch.regionOk_iff.1 hok
  obtain ⟨hlo, hhi, -⟩ := inRegion_iff.1 h
  rw [Launch.inText, Bool.and_eq_false_iff, decide_eq_false_iff_not, decide_eq_false_iff_not]
  omega

/-- What the state of a launch needs of its being well formed (70_reset_and_hazards.md R202). -/
theorem Launch.wellFormed_data (h : l.wellFormed = true) :
    (∀ r ∈ l.dataMap, l.regionOk r = true) ∧
    (∀ p ∈ l.contents, ∃ r ∈ l.dataMap, inRegion r p.1.toNat = true) ∧
    (l.contents.map Prod.fst).Nodup ∧ (l.regs.map Prod.fst).Nodup := by
  simp only [Launch.wellFormed, Bool.and_eq_true, List.all_eq_true, List.any_eq_true, decide_eq_true_eq] at h
  obtain ⟨⟨⟨⟨-, hregions⟩, hcontents⟩, hcnodup⟩, hrnodup⟩ := h
  exact ⟨hregions, hcontents, hcnodup, hrnodup⟩

theorem Launch.contents_aligned (h : l.wellFormed = true) : ∀ p ∈ l.contents, p.1.toNat % 4 = 0 := by
  obtain ⟨hregions, hcontents, -, -⟩ := Launch.wellFormed_data h
  intro p hp
  obtain ⟨r, hr, hin⟩ := hcontents p hp
  exact Launch.regionOk_aligned (hregions r hr) hin

end

/-! ## The state that a launch starts -/

section
variable (l : Launch)

theorem Launch.start_pc : l.start.pc = l.entryPc := congrArg State.pc (launchRegs_frame _ _)
theorem Launch.start_flags : l.start.flags = l.flags.getD { e := false, gt := false } :=
  congrArg State.flags (launchRegs_frame _ _)
theorem Launch.start_flagsWritten : l.start.flagsWritten = l.flags.isSome :=
  congrArg State.flagsWritten (launchRegs_frame _ _)
theorem Launch.start_mem : l.start.mem = launchData l.contents := congrArg State.mem (launchRegs_frame _ _)
theorem Launch.start_dataMap : l.start.dataMap = l.dataMap := congrArg State.dataMap (launchRegs_frame _ _)
theorem Launch.start_textBase : l.start.textBase = l.textBase := congrArg State.textBase (launchRegs_frame _ _)
theorem Launch.start_text : l.start.text = l.text := congrArg State.text (launchRegs_frame _ _)
theorem Launch.start_endPc : l.start.endPc = l.endPc := congrArg State.endPc (launchRegs_frame _ _)
theorem Launch.start_config : l.start.config = l.config := congrArg State.config (launchRegs_frame _ _)

theorem Launch.start_inText (a : Word) : l.start.inText a = l.inText a := by
  rw [State.inText, Launch.inText, l.start_textBase, l.start_text]

end

section
variable {l : Launch} {a : Word} (h : l.wellFormed = true)
include h

/-- A well-formed launch admits exactly the words of its regions. -/
theorem Launch.start_admitted : l.start.admitted a = true ↔ ∃ r ∈ l.dataMap, inRegion r a.toNat = true := by
  obtain ⟨hregions, -, -, -⟩ := Launch.wellFormed_data h
  rw [State.admitted, l.start_dataMap, l.start_inText, Bool.and_eq_true, List.any_eq_true]
  refine ⟨And.left, fun hr => ⟨hr, ?_⟩⟩
  obtain ⟨r, hr, hin⟩ := hr
  rw [Launch.regionOk_not_inText (hregions r hr) hin, Bool.not_false]

theorem Launch.start_not_admitted (hout : ∀ r ∈ l.dataMap, inRegion r a.toNat = false) :
    l.start.admitted a = false := by
  rw [Bool.eq_false_iff, Ne, Launch.start_admitted h]
  rintro ⟨r, hr, hin⟩
  rw [hout r hr] at hin
  cases hin

/-- An admitted word without initial contents is unwritten (20_memory.md R42). -/
theorem Launch.start_readWord_none (halign : a.toNat % 4 = 0) (hnot : a ∉ l.contents.map Prod.fst) :
    l.start.mem.readWord a.toNat = none := by
  rw [l.start_mem]
  refine Memory.readWord_of_readByte_none (launchData_readByte_other _ _ fun p hp => ?_)
  have hp4 := Launch.contents_aligned h p hp
  have hne : p.1.toNat ≠ a.toNat := fun e => hnot (BitVec.eq_of_toNat_eq e ▸ List.mem_map_of_mem hp)
  omega

end

/-- Settles O53. -/
theorem launchStateValues : Obligations.LaunchStateValues := by
  unfold Obligations.LaunchStateValues
  intro l h
  obtain ⟨hregions, hcontents, hcnodup, hrnodup⟩ := Launch.wellFormed_data h
  refine ⟨l.start_pc, l.start_text, l.start_textBase, l.start_endPc, l.start_dataMap, l.start_config,
    launchRegs_readReg _ _ hrnodup, fun r hr => ?_, fun hnone => ?_, fun a => Launch.start_admitted h, fun p hp => ?_,
    fun a hin hnot => ?_, fun a v halign hout => ⟨?_, ?_⟩⟩
  · refine (launchRegs_readReg_other _ _ r hr).trans (State.readReg_of_unwritten ?_)
    simp
  · refine State.readFlags_error.2 ⟨?_, rfl⟩
    rw [l.start_flagsWritten, hnone]
    rfl
  · refine State.memRead_ok.2 ⟨Launch.contents_aligned h p hp, (Launch.start_admitted h).2 (hcontents p hp), ?_⟩
    rw [l.start_mem]
    exact launchData_readWord _ (Launch.contents_aligned h) hcnodup p hp
  · obtain ⟨r, hr, hword⟩ := hin
    have halign := Launch.regionOk_aligned (hregions r hr) hword
    exact State.memRead_error.2 (.inr (.inr ⟨halign, (Launch.start_admitted h).2 ⟨r, hr, hword⟩,
      Launch.start_readWord_none h halign hnot, rfl⟩))
  · exact State.memRead_error.2 (.inr (.inl ⟨halign, Launch.start_not_admitted h hout, rfl⟩))
  · exact State.memWrite_error.2 (.inr ⟨halign, Launch.start_not_admitted h hout, rfl⟩)

/-! ## The invariant at launch -/

/-- A written word has its four bytes written. -/
theorem Memory.isSome_readByte_of_readWord {m : Memory} {a k : Nat} {v : Word} (h : m.readWord a = some v)
    (hk : k < 4) : (m.readByte (a + k)).isSome = true := by
  unfold Memory.readWord at h
  split at h
  · next h0 h1 h2 h3 => interval_cases k <;> simp [h0, h1, h2, h3]
  · cases h

/-- A written byte of a launch lies in a word of its contents. -/
theorem launchData_isSome {ws : List (Word × Word)} {c : Nat} (h : ((launchData ws).readByte c).isSome = true) :
    ∃ p ∈ ws, p.1.toNat ≤ c ∧ c < p.1.toNat + 4 := by
  by_contra hnone
  push Not at hnone
  rw [launchData_readByte_other ws c (fun p hp => by have := hnone p hp; omega)] at h
  cases h

/-- Settles O55: the written bytes are those of the contents, which are whole admitted words. -/
theorem launchEstablishesTheInvariant : Obligations.LaunchEstablishesTheInvariant := by
  unfold Obligations.LaunchEstablishesTheInvariant
  intro l h hflags
  obtain ⟨-, hcontents, hcnodup, -⟩ := Launch.wellFormed_data h
  have halign := Launch.contents_aligned h
  have hword (c : Nat) (hc : (l.start.mem.readByte c).isSome = true) : ∃ p ∈ l.contents, c - c % 4 = p.1.toNat := by
    obtain ⟨p, hp, hlo, hhi⟩ := launchData_isSome (l.start_mem ▸ hc)
    have hp4 := halign p hp
    exact ⟨p, hp, by omega⟩
  refine ⟨l.start_mem ▸ launchData_wf _ halign, fun c hc => ?_, fun c hc k hk => ?_, fun hw => ?_⟩
  · obtain ⟨p, hp, hcp⟩ := hword c hc
    rw [hcp, BitVec.ofNat_toNat, BitVec.setWidth_eq]
    exact (Launch.start_admitted h).2 (hcontents p hp)
  · obtain ⟨p, hp, hcp⟩ := hword c hc
    rw [hcp, l.start_mem]
    exact Memory.isSome_readByte_of_readWord (launchData_readWord _ halign hcnodup p hp) hk
  · rw [l.start_flagsWritten] at hw
    obtain ⟨f, hf⟩ := Option.isSome_iff_exists.1 hw
    rw [l.start_flags, hf]
    exact hflags f hf

end Sys2Proof.Machine
end

section
/-! PROOF. How a run ends (60_exceptions.md R181; 70_reset_and_hazards.md R203, R204, R208). -/

namespace Sys2Proof.Machine

/-- A run goes on from any state it reaches. -/
theorem runFor_add_next {n : Nat} {s t : State} (h : runFor n s = .next t) (m : Nat) :
    runFor (n + m) s = runFor m t := by
  induction n generalizing s with
  | zero =>
    cases h
    rw [Nat.zero_add]
  | succ n ih =>
    rw [Nat.add_right_comm]
    cases hstep : step s with
    | next u =>
      rw [runFor_succ_next _ hstep] at h ⊢
      exact ih h
    | fault f =>
      rw [runFor_succ_fault _ hstep] at h
      cases h
    | refused q =>
      rw [runFor_succ_refused _ hstep] at h
      cases h

/-- A run that has stopped takes no further step. -/
theorem runFor_add_stopped {n : Nat} {s : State} (h : ∀ t, runFor n s ≠ .next t) (m : Nat) :
    runFor (n + m) s = runFor n s := by
  induction n generalizing s with
  | zero => exact absurd rfl (h s)
  | succ n ih =>
    rw [Nat.add_right_comm]
    cases hstep : step s with
    | next u =>
      simp only [runFor_succ_next _ hstep] at h ⊢
      exact ih h
    | fault f => rw [runFor_succ_fault _ hstep, runFor_succ_fault _ hstep]
    | refused q => rw [runFor_succ_refused _ hstep, runFor_succ_refused _ hstep]

/-- After its final state a run takes no further step. -/
theorem runFor_of_ended {n m : Nat} {s t : State} (h : runFor n s = .next t) (hend : t.pc = t.endPc) (hlt : n < m) :
    runFor m s = .refused .endedNormally := by
  obtain ⟨k, rfl⟩ := Nat.exists_eq_add_of_lt hlt
  rw [Nat.add_assoc, runFor_add_next h, runFor_succ_refused k (step_of_endPc hend)]

/-- A run that is refused has reached `END_PC` (70_reset_and_hazards.md R203). -/
theorem endsNormally_of_refused {n : Nat} {s : State} {q : Refusal} (h : runFor n s = .refused q) :
    ∃ t, EndsNormally s t := by
  induction n generalizing s with
  | zero => cases h
  | succ n ih =>
    cases hstep : step s with
    | next u =>
      rw [runFor_succ_next _ hstep] at h
      obtain ⟨t, k, hk, hend⟩ := ih h
      exact ⟨t, k + 1, (runFor_succ_next k hstep).trans hk, hend⟩
    | fault f =>
      rw [runFor_succ_fault _ hstep] at h
      cases h
    | refused q' => exact ⟨s, 0, rfl, (step_refused.1 hstep).1⟩

/-- From some number of steps on, the run of `s` has the outcome `o`. -/
def SettlesAt (s : State) (o : Host.Outcome State Fault Refusal) : Prop := ∃ n, ∀ m, n ≤ m → runFor m s = o

theorem SettlesAt.unique {s : State} {o o' : Host.Outcome State Fault Refusal} (h : SettlesAt s o)
    (h' : SettlesAt s o') : o = o' := by
  obtain ⟨n, hn⟩ := h
  obtain ⟨n', hn'⟩ := h'
  exact (hn _ (Nat.le_max_left n n')).symm.trans (hn' _ (Nat.le_max_right n n'))

theorem EndsNormally.settlesAt {s t : State} (h : EndsNormally s t) : SettlesAt s (.refused .endedNormally) := by
  obtain ⟨n, hn, hend⟩ := h
  exact ⟨n + 1, fun m hm => runFor_of_ended hn hend hm⟩

theorem EndsInFault.settlesAt {s : State} {f : Fault} (h : EndsInFault s f) : SettlesAt s (.fault f) := by
  obtain ⟨n, hn⟩ := h
  refine ⟨n, fun m hm => ?_⟩
  obtain ⟨k, rfl⟩ := Nat.exists_eq_add_of_le hm
  rw [runFor_add_stopped (by rw [hn]; exact nofun), hn]

/-- A run that never ends settles at a next state only, if at any outcome. -/
theorem Hangs.next_of_settlesAt {s : State} {o : Host.Outcome State Fault Refusal} (h : Hangs s)
    (ho : SettlesAt s o) : ∃ t, o = .next t := by
  obtain ⟨n, hn⟩ := ho
  obtain ⟨t, ht⟩ := h n
  exact ⟨t, (hn n le_rfl).symm.trans ht⟩

theorem EndsNormally.unique {s t u : State} (ht : EndsNormally s t) (hu : EndsNormally s u) : t = u := by
  obtain ⟨n, hn, hend⟩ := ht
  obtain ⟨m, hm, hend'⟩ := hu
  rcases Nat.lt_trichotomy n m with hlt | rfl | hlt
  · cases hm.symm.trans (runFor_of_ended hn hend hlt)
  · exact Host.Outcome.next.inj (hn.symm.trans hm)
  · cases hn.symm.trans (runFor_of_ended hm hend' hlt)

/-- A run that does not hang stops, and it stops in a fault or at `END_PC`. -/
theorem ends_or_hangs (s : State) : (∃ t, EndsNormally s t) ∨ (∃ f, EndsInFault s f) ∨ Hangs s := by
  by_cases hhang : Hangs s
  · exact .inr (.inr hhang)
  · obtain ⟨n, hn⟩ := not_forall.1 hhang
    cases hrun : runFor n s with
    | next t => exact absurd ⟨t, hrun⟩ hn
    | fault f => exact .inr (.inl ⟨f, n, hrun⟩)
    | refused q => exact .inl (endsNormally_of_refused hrun)

/-- Settles O57: the three ends settle the run at outcomes that exclude each other. -/
theorem everyRunEndsInOneWay : Obligations.EveryRunEndsInOneWay := by
  unfold Obligations.EveryRunEndsInOneWay
  refine fun s => ⟨ends_or_hangs s, fun t u ht hu => ht.unique hu,
    fun f g hf hg => Host.Outcome.fault.inj (hf.settlesAt.unique hg.settlesAt), fun t f ht hf => ?_,
    fun t ht hh => ?_, fun f hf hh => ?_⟩
  · cases ht.settlesAt.unique hf.settlesAt
  · obtain ⟨u, hu⟩ := hh.next_of_settlesAt ht.settlesAt
    cases hu
  · obtain ⟨u, hu⟩ := hh.next_of_settlesAt hf.settlesAt
    cases hu

end Sys2Proof.Machine
end

section
/-! PROOF. The assembler: what its passes answer, instruction by instruction (30_encoding.md section 5). -/

namespace Sys2Proof.Machine

theorem asm_bind_ok {α β : Type} {x : Except AsmError α} {f : α → Except AsmError β} {b : β} :
    (x >>= f) = .ok b ↔ ∃ a, x = .ok a ∧ f a = .ok b := by
  cases x <;> simp [bind, Except.bind]

/-! ## One instruction -/

theorem asmReg_ok {sfx : Suffix} {i j : Instr} (h : asmReg sfx i = .ok j) : j = i := by
  unfold asmReg at h
  split at h
  · exact (Except.ok.inj h).symm
  · cases h

/-- No suffix stands for the reserved modifier (30_encoding.md R83). -/
theorem asmImm_ok {sfx : Suffix} {v : Int} {p : BitVec 2 × BitVec 16} (h : asmImm sfx v = .ok p) : p.1 ≠ 3#2 := by
  cases sfx with
  | plain | u | h =>
    simp only [asmImm] at h
    split at h
    · cases h
      simp
    · cases h

theorem Op3.wellFormed_reg (op : Op3) (a b c : Reg) : (op.rows.1 a b c).wellFormed = true := by cases op <;> rfl
theorem Op3.wellFormed_imm (op : Op3) (a b : Reg) {m : BitVec 2} (v : BitVec 16) (h : m ≠ 3#2) :
    (op.rows.2 a b m v).wellFormed = true := by cases op <;> exact bne_iff_ne.2 h
theorem Op2.wellFormed_reg (op : Op2) (a c : Reg) : (op.rows.1 a c).wellFormed = true := by cases op <;> rfl
theorem Op2.wellFormed_imm (op : Op2) (a : Reg) {m : BitVec 2} (v : BitVec 16) (h : m ≠ 3#2) :
    (op.rows.2 a m v).wellFormed = true := by cases op <;> exact bne_iff_ne.2 h
theorem OpMem.wellFormed_row (op : OpMem) (a b : Reg) {m : BitVec 2} (v : BitVec 16) (h : m ≠ 3#2) :
    (op.row a b m v).wellFormed = true := by cases op <;> exact bne_iff_ne.2 h
theorem OpBranch.wellFormed_row (op : OpBranch) (o : BitVec 27) : (op.row o).wellFormed = true := by cases op <;> rfl

/-- A branch is assembled with the offset to its label's position. -/
theorem asmInstr_branch_ok {find : List Char → Except AsmError Nat} {here : Nat} {op : OpBranch} {l : List Char}
    {i : Instr} : asmInstr find here (.branch op l) = .ok i ↔
      ∃ t, find l = .ok t ∧ ∃ o, asmOffset t here = .ok o ∧ op.row o = i := by
  simp [asmInstr, asm_bind_ok, pure, Except.pure]

theorem asmInstr_wellFormed {find : List Char → Except AsmError Nat} {here : Nat} {a : Asm} {i : Instr}
    (h : asmInstr find here a = .ok i) : i.wellFormed = true := by
  cases a with
  | op3 op sfx a b c =>
    cases c with
    | reg c => exact asmReg_ok h ▸ op.wellFormed_reg a b c
    | imm v =>
      obtain ⟨p, hp, h⟩ := asm_bind_ok.1 h
      cases h
      exact op.wellFormed_imm a b p.2 (asmImm_ok hp)
  | op2 op sfx a c =>
    cases c with
    | reg c => exact asmReg_ok h ▸ op.wellFormed_reg a c
    | imm v =>
      obtain ⟨p, hp, h⟩ := asm_bind_ok.1 h
      cases h
      exact op.wellFormed_imm a p.2 (asmImm_ok hp)
  | mem op sfx a v b =>
    obtain ⟨p, hp, h⟩ := asm_bind_ok.1 h
    cases h
    exact op.wellFormed_row a b p.2 (asmImm_ok hp)
  | branch op l =>
    obtain ⟨-, -, o, -, rfl⟩ := asmInstr_branch_ok.1 h
    exact op.wellFormed_row o
  | nop | ret =>
    cases h
    rfl

/-! ## A program -/

theorem asmItems_instr_ok {find : List Char → Except AsmError Nat} {here : Nat} {a : Asm} {p : List Item}
    {is : List Instr} : asmItems find here (.instr a :: p) = .ok is ↔
      ∃ i, asmInstr find here a = .ok i ∧ ∃ js, asmItems find (here + 1) p = .ok js ∧ i :: js = is := by
  simp [asmItems, asm_bind_ok, pure, Except.pure]

/-- There is one instruction for each of the program, and each is the one at its position, assembled there. -/
theorem asmItems_length {find : List Char → Except AsmError Nat} {here : Nat} {p : List Item} {is : List Instr}
    (h : asmItems find here p = .ok is) : is.length = instrCount p := by
  induction p generalizing here is with
  | nil =>
    cases h
    rfl
  | cons x p ih =>
    cases x with
    | label n => exact ih (here := here) h
    | instr a =>
      obtain ⟨i, -, js, hjs, rfl⟩ := asmItems_instr_ok.1 h
      rw [List.length_cons, ih hjs, instrCount_instr]

theorem asmItems_mem {find : List Char → Except AsmError Nat} {here : Nat} {p : List Item} {is : List Instr}
    (h : asmItems find here p = .ok is) : ∀ i ∈ is, ∃ k a, asmInstr find k a = .ok i := by
  induction p generalizing here is with
  | nil =>
    cases h
    nofun
  | cons x p ih =>
    cases x with
    | label n => exact ih (here := here) h
    | instr a =>
      obtain ⟨i, hi, js, hjs, rfl⟩ := asmItems_instr_ok.1 h
      exact List.forall_mem_cons.2 ⟨⟨here, a, hi⟩, ih hjs⟩

theorem asmItems_getElem {find : List Char → Except AsmError Nat} {here : Nat} {pre post : List Item} {a : Asm}
    {is : List Instr} (h : asmItems find here (pre ++ .instr a :: post) = .ok is) :
    ∃ i, is[instrCount pre]? = some i ∧ asmInstr find (here + instrCount pre) a = .ok i := by
  induction pre generalizing here is with
  | nil =>
    obtain ⟨i, hi, js, -, rfl⟩ := asmItems_instr_ok.1 h
    exact ⟨i, rfl, hi⟩
  | cons x pre ih =>
    cases x with
    | label n => exact ih (here := here) h
    | instr b =>
      obtain ⟨-, -, js, hjs, rfl⟩ := asmItems_instr_ok.1 h
      obtain ⟨i, hget, hi⟩ := ih hjs
      exact ⟨i, hget, by rwa [instrCount_instr, Nat.add_comm (instrCount pre), ← Nat.add_assoc]⟩

theorem assemble_ok {p : List Item} {ws : List Word} : assemble p = .ok ws ↔
    ∃ is, asmItems (findLabel (labelTable 0 p)) 0 p = .ok is ∧ is.map encode = ws := by
  simp [assemble, asm_bind_ok, pure, Except.pure]

/-- The instructions of a program are the items that any test of being one keeps. -/
theorem length_filter_eq_instrCount {f : Item → Bool} (hlabel : ∀ n, f (.label n) = false)
    (hinstr : ∀ a, f (.instr a) = true) (p : List Item) : (p.filter f).length = instrCount p := by
  induction p with
  | nil => rfl
  | cons x p ih =>
    cases x with
    | label n => rw [List.filter_cons_of_neg (by simp [hlabel]), ih, instrCount_label]
    | instr a => rw [List.filter_cons_of_pos (hinstr a), List.length_cons, ih, instrCount_instr]

/-- Settles O59: an assembled instruction is well formed, so the decoder reads it back from its word. -/
theorem assembledProgramsAreLegal : Obligations.AssembledProgramsAreLegal := by
  unfold Obligations.AssembledProgramsAreLegal
  intro p ws h
  obtain ⟨is, his, rfl⟩ := assemble_ok.1 h
  refine ⟨fun w hw => ?_, ?_⟩
  · obtain ⟨i, hi, rfl⟩ := List.mem_map.1 hw
    obtain ⟨k, a, ha⟩ := asmItems_mem his i hi
    exact ⟨i, decode_of_readFrom (asmInstr_wellFormed ha) (readFrom_encode i), rfl⟩
  · rw [List.length_map, asmItems_length his]
    exact (length_filter_eq_instrCount (fun _ => rfl) (fun _ => rfl) p).symm

/-! ## Labels and offsets (30_encoding.md R84) -/

theorem labelTable_append (k : Nat) (p q : List Item) :
    labelTable k (p ++ q) = labelTable k p ++ labelTable (k + instrCount p) q := by
  induction p generalizing k with
  | nil => rfl
  | cons x p ih =>
    cases x with
    | label n => exact congrArg ((n, k) :: ·) (ih k)
    | instr a =>
      refine (ih (k + 1)).trans ?_
      rw [instrCount_instr, Nat.add_assoc, Nat.add_comm 1]
      rfl

/-- A label that is found is defined at one place, whose position it stands for. -/
theorem findLabel_defined {p : List Item} {n : List Char} {t : Nat} (h : findLabel (labelTable 0 p) n = .ok t) :
    ∃ before behind, p = before ++ .label n :: behind ∧ .label n ∉ before ∧ .label n ∉ behind ∧
      t = instrCount before := by
  obtain ⟨m, hm⟩ := findLabel_ok h
  obtain ⟨before, behind, rfl, ht⟩ := labelTable_once hm
  rw [labelTable_append, List.filter_append, labelTable, List.filter_cons_of_pos (by simp)] at hm
  have hlen := congrArg List.length hm
  simp only [List.length_append, List.length_cons, List.length_nil] at hlen
  refine ⟨before, behind, rfl, (labelTable_none n before 0).1 (List.eq_nil_of_length_eq_zero (by omega)),
    (labelTable_none n behind (0 + instrCount before)).1 (List.eq_nil_of_length_eq_zero (by omega)), by omega⟩

/-- The machine's target for the offset between two positions is the address of the second (30_encoding.md R75). -/
theorem branchTarget_asmOffset {target here : Nat} {o : BitVec 27} (base : Word) (h : asmOffset target here = .ok o) :
    branchTarget (base + BitVec.ofNat 32 (4 * here)) o = base + BitVec.ofNat 32 (4 * target) := by
  have ho : o.toInt = target - here := by
    simp only [asmOffset] at h
    split at h
    · next hfits =>
      cases h
      exact BitVec.toInt_ofInt_eq_self (by decide) hfits.1 (Int.lt_of_le_sub_one hfits.2)
    · cases h
  have hsum : BitVec.ofNat 32 (4 * here) + BitVec.ofInt 32 (4 * o.toInt) = BitVec.ofNat 32 (4 * target) := by
    rw [← BitVec.ofInt_natCast, ← BitVec.ofInt_natCast, ← BitVec.ofInt_add, ho]
    congr 1
    push_cast
    ring
  rw [branchTarget_eq_add, BitVec.add_assoc, hsum]

/-- Settles O58: the branch is assembled with the offset from its position to its label's. -/
theorem assembledBranchReachesItsLabel : Obligations.AssembledBranchReachesItsLabel := by
  unfold Obligations.AssembledBranchReachesItsLabel
  refine ⟨?_, fun target here o base h => branchTarget_asmOffset base h⟩
  rintro _ pre post op l ws base h rfl
  obtain ⟨is, his, rfl⟩ := assemble_ok.1 h
  obtain ⟨i, hget, hi⟩ := asmItems_getElem his
  obtain ⟨t, ht, o, ho, rfl⟩ := asmInstr_branch_ok.1 hi
  obtain ⟨before, behind, hsplit, hbefore, hbehind, rfl⟩ := findLabel_defined ht
  rw [Nat.zero_add] at ho
  refine ⟨o, before, behind, hsplit, hbefore, hbehind, ⟨encode (op.row o), ?_, ?_⟩,
    branchTarget_asmOffset base ho⟩
  · rw [List.getElem?_map, hget]
    rfl
  · exact decode_of_readFrom (op.wellFormed_row o) (readFrom_encode _)

end Sys2Proof.Machine
end
